-- ==== Sys2Proof/Word.lean ====
section
/-! DEFINITION. The machine's word (spec/00_scope.md R6, R7): 64 bits, two's complement, signed. A word's value is the
integer `w.toInt`; addresses are keyed by `w.toNat`, which is that integer wherever it is not negative. -/

namespace Sys2Proof

/-- A memory word, a program counter, a relative base, a channel value (R6: XLEN = 64; R22, R26, R200). -/
abbrev Word := BitVec 64

/-- The least word, -2^63 (R7). -/
abbrev wordMin : Int := -9223372036854775808

/-- The greatest word, 2^63-1 (R7); it is also the greatest address (R51). -/
abbrev wordMax : Int := 9223372036854775807

/-- The integer `n` is the value of some word (R7). -/
abbrev Fits (n : Int) : Prop := wordMin ≤ n ∧ n ≤ wordMax

/-- The word whose value is `n`, for an `n` that fits. -/
abbrev wordOf (n : Int) : Word := BitVec.ofInt 64 n

end Sys2Proof
end

