-- ==== Sys2Proof/Config.lean ====
section
/-! DEFINITION. What the spec leaves as a parameter of the hardware (spec/00_scope.md R6, R12): the topology, N_STAGES,
HALT_STAGE and DROP_POLICY. They are plain data that `State` carries, so a statement about every state is a statement about
every choice of them. The spec has no undefined data value, so there is no free value here. -/

namespace Sys2Proof

/-- The modulus that takes the opcode from an instruction word (R6 OPCODE_MOD, R81). -/
abbrev opcodeMod : Nat := 100

/-- The two topologies of R233 (R235 the line, R239 the cycle). -/
inductive Topology where
  | pipeline
  | feedbackLoop
  deriving DecidableEq, Repr

/-- When a channel side held by an engine becomes dropped: the OPEN parameter of R208 (D19). -/
inductive DropPolicy where
  /-- By a step of the interconnect that may happen at any time after the engine terminated, or never. -/
  | free
  /-- Atomically with the step that terminates the engine, both sides at once. -/
  | onTerminate
  /-- Never by the interconnect; only by the host on the engine's behalf, after the engine terminated. -/
  | hostOnly
  deriving DecidableEq, Repr

/-- The parameters of one composition (R6, R230, R241). -/
structure Config where
  topology : Topology
  /-- N_STAGES. -/
  nStages : Nat
  /-- HALT_STAGE, the designated stage of a feedback loop. -/
  haltStage : Nat
  dropPolicy : DropPolicy
  deriving DecidableEq, Repr

/-- A composition has at least one stage (R230), and HALT_STAGE is one of them (R6). -/
abbrev Config.wf (c : Config) : Prop := 1 ≤ c.nStages ∧ c.haltStage < c.nStages

/-- The parameters `State.reset` carries: one engine with two host-held channels, which is the composition with
N_STAGES = 1 (R230), under the recommended drop policy. DESIGN CHOICE, unsafe: notes/assumptions/3.md. -/
def Config.reset : Config :=
  { topology := .pipeline, nStages := 1, haltStage := 0, dropPolicy := .free }

end Sys2Proof
end

