-- ==== Sys2Proof/Syntax.lean ====
section
/-! DEFINITION. The instruction set (spec/00_scope.md R2, spec/30_encoding.md R80-R84): ten operations, three addressing
modes, and what each parameter of an operation is for. -/

namespace Sys2Proof

/-- How a parameter's value is obtained (R82): mode digits 0, 1, 2. -/
inductive Mode where
  | position
  | immediate
  | relative
  deriving DecidableEq, Repr

/-- What an operation does with a parameter (R84): `R` or `W`. -/
inductive Role where
  | read
  | write
  deriving DecidableEq, Repr

/-- The closed list of ten operations (R2). -/
inductive Op where
  | add
  | mul
  | input
  | output
  | jumpIfTrue
  | jumpIfFalse
  | lessThan
  | equal
  | adjustRelativeBase
  | halt
  deriving DecidableEq, Repr

/-- The parameters of an operation in order, with their roles (R84). -/
def Op.roles : Op → List Role
  | .add | .mul | .lessThan | .equal => [.read, .read, .write]
  | .input => [.write]
  | .output | .adjustRelativeBase => [.read]
  | .jumpIfTrue | .jumpIfFalse => [.read, .read]
  | .halt => []

/-- An instruction as the instruction word alone gives it (R80): the operation and its three modes. The decoder always
takes three modes (R82, R91), so each constructor holds `m1 m2 m3`, the modes a form has no parameter for included (R94).
The parameter words are data and stay in memory (R80). -/
inductive Instr where
  | add (m1 m2 m3 : Mode)
  | mul (m1 m2 m3 : Mode)
  | input (m1 m2 m3 : Mode)
  | output (m1 m2 m3 : Mode)
  | jumpIfTrue (m1 m2 m3 : Mode)
  | jumpIfFalse (m1 m2 m3 : Mode)
  | lessThan (m1 m2 m3 : Mode)
  | equal (m1 m2 m3 : Mode)
  | adjustRelativeBase (m1 m2 m3 : Mode)
  | halt (m1 m2 m3 : Mode)
  deriving DecidableEq, Repr

/-- The operation an instruction selects. -/
def Instr.op : Instr → Op
  | .add _ _ _ => .add
  | .mul _ _ _ => .mul
  | .input _ _ _ => .input
  | .output _ _ _ => .output
  | .jumpIfTrue _ _ _ => .jumpIfTrue
  | .jumpIfFalse _ _ _ => .jumpIfFalse
  | .lessThan _ _ _ => .lessThan
  | .equal _ _ _ => .equal
  | .adjustRelativeBase _ _ _ => .adjustRelativeBase
  | .halt _ _ _ => .halt

/-- The three modes, parameter 1 first. -/
def Instr.modes : Instr → Mode × Mode × Mode
  | .add m1 m2 m3 | .mul m1 m2 m3 | .input m1 m2 m3 | .output m1 m2 m3 | .jumpIfTrue m1 m2 m3
  | .jumpIfFalse m1 m2 m3 | .lessThan m1 m2 m3 | .equal m1 m2 m3 | .adjustRelativeBase m1 m2 m3
  | .halt m1 m2 m3 => (m1, m2, m3)

/-- The instruction of an operation and three modes. -/
def Op.instr : Op → Mode → Mode → Mode → Instr
  | .add, m1, m2, m3 => .add m1 m2 m3
  | .mul, m1, m2, m3 => .mul m1 m2 m3
  | .input, m1, m2, m3 => .input m1 m2 m3
  | .output, m1, m2, m3 => .output m1 m2 m3
  | .jumpIfTrue, m1, m2, m3 => .jumpIfTrue m1 m2 m3
  | .jumpIfFalse, m1, m2, m3 => .jumpIfFalse m1 m2 m3
  | .lessThan, m1, m2, m3 => .lessThan m1 m2 m3
  | .equal, m1, m2, m3 => .equal m1 m2 m3
  | .adjustRelativeBase, m1, m2, m3 => .adjustRelativeBase m1 m2 m3
  | .halt, m1, m2, m3 => .halt m1 m2 m3

/-- Length in words: the instruction word and one word per parameter (R84). -/
def Op.length (op : Op) : Nat := 1 + op.roles.length

end Sys2Proof
end

