-- ==== Sys2Proof/WellFormed.lean ====
section
/-! DEFINITION. Which instructions are legal (spec/30_encoding.md R87, R92): no write parameter has mode immediate. Every
other term of `Instr` is legal by its type, an unused mode of 1 on a parameter that is not there included (R94). -/

namespace Sys2Proof

/-- The mode may stand on a parameter of this role (R84: `W` takes mode 0 or 2 only). -/
def Role.allows : Role → Mode → Bool
  | .read, _ => true
  | .write, m => m != .immediate

/-- R87, R92: every write parameter has mode position or relative. -/
def Instr.wellFormed (i : Instr) : Bool :=
  (i.op.roles.zip [i.modes.1, i.modes.2.1, i.modes.2.2]).all fun p => p.1.allows p.2

end Sys2Proof
end

