-- ==== Sys2Proof/Decode.lean ====
section
/-! DEFINITION. The decoder and the encoder (spec/30_encoding.md R81-R94, spec/40_engine_step.md R112 phase 2). Fields are
decimal digits of a non-negative word, never bits (R7). -/

namespace Sys2Proof

/-- The one opcode table (R86, which asks for one table so that a correction touches one place). The numbers 1 and 5 to 9 are
PRESUMED: the spec's decision D1 (U20; notes/assumptions/9.md). -/
def opcodeTable : List (Nat × Op) :=
  [(1, .add), (2, .mul), (3, .input), (4, .output), (5, .jumpIfTrue), (6, .jumpIfFalse),
   (7, .lessThan), (8, .equal), (9, .adjustRelativeBase), (99, .halt)]

/-- The operation of an opcode number, if it has one. -/
def opOfCode (code : Nat) : Option Op :=
  (opcodeTable.find? fun row => row.1 == code).map (·.2)

/-- The opcode number of an operation, read from the same table. -/
def codeOfOp (op : Op) : Nat :=
  ((opcodeTable.find? fun row => row.2 == op).map (·.1)).getD 0

/-- `digit(v, k)` of R7, for `v >= 0`. -/
def digit (v k : Nat) : Nat := v / 10 ^ k % 10

/-- The mode a digit stands for (R82); 3 to 9 stand for none (R91). -/
def modeOfDigit : Nat → Option Mode
  | 0 => some .position
  | 1 => some .immediate
  | 2 => some .relative
  | _ => none

/-- The digit of a mode (R82). -/
def digitOfMode : Mode → Nat
  | .position => 0
  | .immediate => 1
  | .relative => 2

/-- Why a word is no instruction (R87): each is a fatal cause of its own (R260). -/
inductive DecodeError where
  /-- R89 (a negative word) and R90 (no such opcode). -/
  | unknownOpcode
  /-- R91: one of the three mode digits is 3 to 9. -/
  | unknownMode
  /-- R92: a write parameter in immediate mode. -/
  | writeToImmediate
  deriving DecidableEq, Repr

/-- The decoder, total on every word (R87), its checks in the order of R112 phase 2: sign, mode digits, opcode, write
parameter. Digits at 10^5 and above are not looked at (R93). -/
def decode (v : Word) : Except DecodeError Instr :=
  if v.toInt < 0 then .error .unknownOpcode
  else
    match modeOfDigit (digit v.toNat 2), modeOfDigit (digit v.toNat 3), modeOfDigit (digit v.toNat 4) with
    | some m1, some m2, some m3 =>
      match opOfCode (v.toNat % opcodeMod) with
      | none => .error .unknownOpcode
      | some op =>
        if (op.instr m1 m2 m3).wellFormed then .ok (op.instr m1 m2 m3) else .error .writeToImmediate
    | _, _, _ => .error .unknownMode

/-- The number `M3 M2 M1 OP OP` of R83. -/
def encodeNat (i : Instr) : Nat :=
  codeOfOp i.op + 100 * digitOfMode i.modes.1 + 1000 * digitOfMode i.modes.2.1 + 10000 * digitOfMode i.modes.2.2

/-- The instruction word, every digit from 10^5 up being 0. -/
def encode (i : Instr) : Word := BitVec.ofNat 64 (encodeNat i)

/-- The words of an instruction as they stand in memory: the instruction word, then its parameter words (R80). -/
def encodeWords (i : Instr) (params : List Word) : List Word := encode i :: params.take i.op.roles.length

/-- The `n` words that a number of `64 * n` bits lays out, the first word in its low bits. -/
def wordsOfBits : Nat → Nat → List Word
  | 0, _ => []
  | n + 1, w => BitVec.ofNat 64 w :: wordsOfBits n (w / 2 ^ 64)

/-- The four words (the longest instruction, R80) of an instruction of `nbits` bits, the bits above them zero. -/
def tableWords (nbits w : Nat) : List Word := wordsOfBits 4 (w % 2 ^ nbits)

/-- The instruction the decoder reads from a word of spec/opcode_table.json's numbering. The instruction word alone is
decoded (R80); the table's `match` and `mask` are decimal (R104). -/
def decodeTableWord (nbits w : Nat) : Option Instr :=
  match tableWords nbits w with
  | [] => none
  | v :: _ =>
    match decode v with
    | .ok i => some i
    | .error _ => none

end Sys2Proof
end

