-- ==== Sys2Proof/Machine/State.lean ====
section
/-! DEFINITION. The state of the machine as plain data: the engines, the channels, the LAST register of a feedback link
(spec/10_state.md, spec/47_channel_endpoint.md R200, spec/48_process_composition.md R239), the parameters of the
composition, and the agenda of the agents' moves. -/

namespace Sys2Proof.Machine

/-- R28. "Blocked" is not one of them (R29). -/
inductive Status where
  | running
  | halted
  | fatal
  deriving DecidableEq, Repr

/-- The host-interface run register (R32). -/
inductive Grant where
  | none
  | toHalt
  | yieldAfterOutput
  deriving DecidableEq, Repr

/-- The six causes of a fatal error (R260). -/
inductive Cause where
  | unknownOpcode
  | unknownMode
  | writeToImmediate
  | negativeAddress
  | brokenChannel
  | arithmeticOverflow
  deriving DecidableEq, Repr

/-- The fault record (R30): `fword` is `none` when the fetch itself faulted. -/
structure FaultRecord where
  cause : Cause
  fpc : Word
  fword : Option Word
  deriving DecidableEq, Repr

/-- Memory (R36, R50): pairs of an address and the word there, addresses strictly rising and no word zero. An address that
is not listed reads as zero (R38, R52). The addressable unit is the whole word, so a cell is a word and never a byte
(R56; notes/assumptions/1.md). -/
abbrev Memory := List (Nat × Word)

/-- One engine (R12, R21, R36). -/
structure Engine where
  /-- R22 -/
  pc : Word
  /-- R26 -/
  rb : Word
  /-- R36 -/
  mem : Memory
  /-- R28 -/
  status : Status
  /-- R30 -/
  fault : Option FaultRecord
  /-- R32 -/
  grant : Grant
  /-- R33 -/
  yielded : Option Word
  deriving DecidableEq, Repr

/-- One channel (R200): the queue, head first, and whether each side is live. -/
structure Channel where
  q : List Word
  txLive : Bool
  rxLive : Bool
  deriving DecidableEq, Repr

/-- A side of a channel (R200, R208). -/
inductive Side where
  | send
  | receive
  deriving DecidableEq, Repr

/-- What the host does (R213, R244, R303, D16). Host reads change nothing and need no transaction. -/
inductive Transaction where
  /-- Abandon whatever there is and start building a fresh composition (R244, R273). -/
  | newComposition (c : Config)
  /-- `make_channel` (R201), the next channel in wiring order; `some v` is the seed of a feedback link (R240). -/
  | makeChannel (seed : Option Word)
  /-- `load` (R300): the next stage in wiring order, from its program text (R100). -/
  | load (text : List Char)
  /-- R125 -/
  | runToHalt (stage : Nat)
  /-- R126 -/
  | runUntilBlocked (stage : Nat)
  /-- R204, on a send side the host holds. -/
  | send (ch : Nat) (v : Word)
  /-- R205, on a receive side the host holds. -/
  | recv (ch : Nat)
  /-- R208 -/
  | drop (ch : Nat) (side : Side)
  deriving DecidableEq, Repr

/-- One move of one agent (R11). -/
inductive Event where
  /-- The stage takes its step, if one is enabled (R110). -/
  | stage (k : Nat)
  /-- The interconnect drops a side of a terminated engine, if DROP_POLICY lets it (R208). -/
  | interconnectDrop (ch : Nat) (side : Side)
  /-- The host makes a transaction (R244). -/
  | host (t : Transaction)
  deriving DecidableEq, Repr

/-- What the host's last transaction answered (R205, R125, R126; notes/assumptions/4.md). -/
inductive Reply where
  /-- No transaction has been answered in this composition. -/
  | none
  /-- Done, with no value to give. -/
  | done
  /-- `Recv` returned this word. -/
  | value (v : Word)
  /-- The host's own `Send` or `Recv` met a broken channel (R204, R205). -/
  | brokenChannel
  deriving DecidableEq, Repr

/-- The machine: a composition of engines and channels (R12, R230), with the moves still to come. -/
structure State where
  /-- The parameters of the composition (R12). No step but the host's `newComposition` changes them. -/
  config : Config
  /-- The stages in wiring order (R230). -/
  engines : List Engine
  /-- The channels in wiring order (R235, R239). -/
  channels : List Channel
  /-- LAST, on the feedback link (R239). -/
  last : Option Word
  /-- The stage whose turn it is: the model's own (notes/assumptions/2.md). -/
  active : Nat
  /-- The moves to come, next first: the model's own (R231; notes/assumptions/2.md). -/
  agenda : List Event
  /-- What the host has received, in order (R237): the model's own (notes/assumptions/4.md). -/
  received : List Word
  /-- The model's own (notes/assumptions/4.md). -/
  reply : Reply
  deriving DecidableEq, Repr

/-- Why a step stops. No state that a run reaches raises one (`Obligations.InvariantStepNeverFaults`). -/
inductive Fault where
  /-- Raised by `exec` in a state that has no engine at the number `active`; the step never asks for one. Safe. -/
  | noSuchStage
  /-- Raised by `exec` of an input or output whose endpoint is bound to no channel (R34 binds both before a run). Safe. -/
  | noSuchChannel
  deriving DecidableEq, Repr

/-- Why something is refused. -/
inductive Refusal where
  /-- Raised by an arm of `exec` that has no meaning yet. Safe. -/
  | notModelled (mnemonic : String)
  /-- Raised by `load` on a text outside the grammar of R101: no engine is created (U15). Safe. -/
  | programText
  /-- Raised by a host transaction the spec does not give the host: a composition of another shape (R233, U16), a side it does
  not hold (R202, R208), a `Recv` on a side it has dropped (R207; notes/assumptions/13.md), a run on an engine that already has
  a grant (R244) or in a composition not yet built (R303), parameters that are not legal (R6). DESIGN CHOICE, safe:
  notes/assumptions/8.md. -/
  | transaction
  deriving DecidableEq, Repr

/-- The answer of a step. -/
abbrev Result := Host.Outcome State Fault Refusal

/-- An engine right after load, with the memory given (R41, R300). -/
def Engine.fresh (mem : Memory) : Engine :=
  { pc := 0, rb := 0, mem := mem, status := .running, fault := none, grant := .none, yielded := none }

/-- A channel right after construction, the queue given: empty, or the seed (R41, R201, R302). -/
def Channel.fresh (q : List Word) : Channel := { q := q, txLive := true, rxLive := true }

/-- One engine after load with nothing placed in its memory, its two channels after construction (R41), no move to come.
How a program comes to run from here: notes/assumptions/7.md. -/
def State.reset : State :=
  { config := Config.reset
    engines := [Engine.fresh []]
    channels := [Channel.fresh [], Channel.fresh []]
    last := none
    active := 0
    agenda := []
    received := []
    reply := .none }

end Sys2Proof.Machine
end

