-- ==== Sys2Proof/Machine/Flags.lean ====
section
/-! DEFINITION. The integer laws (spec/00_scope.md R8 chk64, spec/41_arithmetic.md R142) and the result of each computing
operation. The machine has no flag and no condition code (R25): a result that does not fit is a fatal cause, and a
comparison's result is the word 1 or 0. -/

namespace Sys2Proof.Machine

/-- `chk64(n)` (R8): the word of value `n`, or ArithmeticOverflow (D3). -/
def chk64 (n : Int) : Except Cause Word :=
  if Fits n then .ok (wordOf n) else .error .arithmeticOverflow

/-- R140: the exact sum, through chk64. -/
def sum (a b : Word) : Except Cause Word := chk64 (a.toInt + b.toInt)

/-- R141: the exact product, through chk64. -/
def product (a b : Word) : Except Cause Word := chk64 (a.toInt * b.toInt)

/-- A comparison's result (R25, R170, R171): 1 or 0. -/
def truth (b : Bool) : Word := if b then 1 else 0

/-- R170: signed comparison of the mathematical values (R9). -/
def lessThan (a b : Word) : Except Cause Word := .ok (truth (decide (a.toInt < b.toInt)))

/-- R171. -/
def equal (a b : Word) : Except Cause Word := .ok (truth (decide (a.toInt = b.toInt)))

end Sys2Proof.Machine
end

