-- ==== Sys2Proof/Machine/Ops.lean ====
section
/-! DEFINITION. The named operations over memory, channels, engines and the composition, the fetch, and the one operation
by which an exception is taken (spec/20_memory.md R50-R54, spec/47_channel_endpoint.md R204-R208,
spec/60_exceptions.md R270). There is no return from an exception (R273), so no operation for one. -/

namespace Sys2Proof.Machine

/-! ### Memory -/

/-- The word an unlisted address reads as: exactly zero (R38, R52). -/
def Memory.unlisted : Word := 0

/-- The word at an address (R52). -/
def Memory.read : Memory → Nat → Word
  | [], _ => Memory.unlisted
  | (b, w) :: rest, a => if a = b then w else Memory.read rest a

/-- Store a word at an address (R53), keeping the canonical form: storing what an unlisted address reads as removes the
entry. -/
def Memory.write : Memory → Nat → Word → Memory
  | [], a, v => if v = Memory.unlisted then [] else [(a, v)]
  | (b, w) :: rest, a, v =>
    if a < b then
      if v = Memory.unlisted then (b, w) :: rest else (a, v) :: (b, w) :: rest
    else if a = b then
      if v = Memory.unlisted then rest else (a, v) :: rest
    else (b, w) :: Memory.write rest a v

/-- Every listed address is at least `lo`, the addresses rise strictly, each is a valid address (R51), and no listed word
is the one an unlisted address reads as. -/
def Memory.wfFrom : Nat → Memory → Bool
  | _, [] => true
  | lo, (a, v) :: rest =>
    decide (lo ≤ a) && decide ((a : Int) ≤ wordMax) && decide (v ≠ Memory.unlisted) && Memory.wfFrom (a + 1) rest

/-- The canonical form of memory. -/
def Memory.wf (m : Memory) : Bool := Memory.wfFrom 0 m

/-- `MemRead(addr, 1)` (R52). -/
def memRead (m : Memory) (a : Word) : Except Cause Word :=
  if a.toInt < 0 then .error .negativeAddress else .ok (m.read a.toNat)

/-- The program's integers at addresses `a`, `a + 1`, ... and zero everywhere else (R38). -/
def Memory.ofWords : Nat → List Word → Memory
  | _, [] => []
  | a, w :: ws => if w = Memory.unlisted then Memory.ofWords (a + 1) ws else (a, w) :: Memory.ofWords (a + 1) ws

/-- Store words at consecutive addresses. -/
def Memory.writeWords : Memory → Nat → List Word → Memory
  | m, _, [] => m
  | m, a, w :: ws => Memory.writeWords (m.write a w) (a + 1) ws

/-! ### Channels -/

/-- `Send(ch, v)` (R204): `none` is the broken channel. -/
def Channel.send (ch : Channel) (v : Word) : Option Channel :=
  if ch.rxLive then some { ch with q := ch.q ++ [v] } else none

/-- What `Recv` finds (R205). -/
inductive Received where
  /-- The head of the queue, and the channel without it. -/
  | got (v : Word) (ch : Channel)
  /-- Empty and the sender live: no step (R206). -/
  | hold
  /-- Empty and the sender dropped. -/
  | broken
  deriving DecidableEq, Repr

/-- `Recv(ch)` (R205). -/
def Channel.recv (ch : Channel) : Received :=
  match ch.q with
  | v :: rest => .got v { ch with q := rest }
  | [] => if ch.txLive then .hold else .broken

/-- `Drop(ch, side)` (R208): the queue stays. -/
def Channel.drop (ch : Channel) : Side → Channel
  | .send => { ch with txLive := false }
  | .receive => { ch with rxLive := false }

/-- Whether a side is live. -/
def Channel.live (ch : Channel) : Side → Bool
  | .send => ch.txLive
  | .receive => ch.rxLive

/-! ### Wiring (R34, R233, R235, R239) -/

/-- Stage `k` receives from `c[k]` in both topologies. -/
def inChannelOf (_ : Config) (k : Nat) : Nat := k

/-- Stage `k` sends to `c[k+1]` in a pipeline and to `c[(k+1) mod n]` in a loop. -/
def outChannelOf (c : Config) (k : Nat) : Nat :=
  match c.topology with
  | .pipeline => k + 1
  | .feedbackLoop => (k + 1) % c.nStages

/-- A pipeline of n stages has n+1 channels, a loop n. -/
def channelCount (c : Config) : Nat :=
  match c.topology with
  | .pipeline => c.nStages + 1
  | .feedbackLoop => c.nStages

/-! ### The engine whose turn it is -/

/-- The engine of the stage whose turn it is. -/
def State.engine? (s : State) : Option Engine := s.engines[s.active]?

/-- Write that engine back. -/
def State.setEngine (s : State) (e : Engine) : State := { s with engines := s.engines.set s.active e }

/-- Write channel `k`. -/
def State.setChannel (s : State) (k : Nat) (ch : Channel) : State := { s with channels := s.channels.set k ch }

/-- The channel whose receive side the engine is bound to (R34). -/
def State.inChannel (s : State) : Nat := inChannelOf s.config s.active

/-- The channel whose send side the engine is bound to (R34). -/
def State.outChannel (s : State) : Nat := outChannelOf s.config s.active

/-- Drop one side of channel `k` (R208); nothing where there is no such channel. -/
def State.dropSide (s : State) (k : Nat) (side : Side) : State :=
  match s.channels[k]? with
  | some ch => s.setChannel k (ch.drop side)
  | none => s

/-- What else happens in the step that terminates the engine (R208): under `onTerminate` both its sides are dropped. -/
def State.terminated (s : State) : State :=
  match s.config.dropPolicy with
  | .onTerminate => (s.dropSide s.inChannel .receive).dropSide s.outChannel .send
  | .free | .hostOnly => s

/-- The instruction word a step of this engine fetches: none from a negative `pc` (R111). -/
def Engine.fetched (e : Engine) : Option Word :=
  if e.pc.toInt < 0 then none else some (e.mem.read e.pc.toNat)

/-- `raise` as the engine sees it (R270): status, fault record and grant; `pc`, `rb`, memory and `yielded` stay. -/
def Engine.fatal (e : Engine) (c : Cause) : Engine :=
  { e with status := .fatal, fault := some { cause := c, fpc := e.pc, fword := e.fetched }, grant := .none }

/-- TAKING AN EXCEPTION, the one operation every `raise` goes through (R270, R271, R274). -/
def State.raise (s : State) (e : Engine) (c : Cause) : State := (s.setEngine (e.fatal c)).terminated

/-! ### The shape of a step (R112): an instruction is resolved, or raises, and then commits -/

/-- Act on the engine whose turn it is. -/
def State.withEngine (s : State) (k : Engine → Result) : Result :=
  match s.engine? with
  | some e => k e
  | none => .fault .noSuchStage

/-- Act on channel `n`. -/
def State.withChannel (s : State) (n : Nat) (k : Channel → Result) : Result :=
  match s.channels[n]? with
  | some ch => k ch
  | none => .fault .noSuchChannel

/-- Go on with what was resolved, or take the exception (R112: nothing before the commit changes any state). -/
def State.attempt {α : Type} (s : State) (e : Engine) (r : Except Cause α) (k : α → Result) : Result :=
  match r with
  | .ok a => k a
  | .error c => .next (s.raise e c)

/-! ### Fetch and decode (R111, R112 phases 1 and 2) -/

/-- The cause of a decode error (R260). -/
def Cause.ofDecode : DecodeError → Cause
  | .unknownOpcode => .unknownOpcode
  | .unknownMode => .unknownMode
  | .writeToImmediate => .writeToImmediate

/-- The cause's code (R260, D11). -/
def Cause.code : Cause → Nat
  | .unknownOpcode => 1
  | .unknownMode => 2
  | .writeToImmediate => 3
  | .negativeAddress => 4
  | .brokenChannel => 5
  | .arithmeticOverflow => 6

/-- Fetch (R111): an ordinary read of memory at `pc`. -/
def Engine.fetch (e : Engine) : Except Cause Word := memRead e.mem e.pc

/-- The instruction at `pc`, or the cause that phase 1 or 2 raises. -/
def Engine.decoded (e : Engine) : Except Cause Instr :=
  match e.fetch with
  | .error c => .error c
  | .ok v =>
    match decode v with
    | .ok i => .ok i
    | .error d => .error (Cause.ofDecode d)

end Sys2Proof.Machine
end

