-- ==== Sys2Proof/Machine/Operands.lean ====
section
/-! DEFINITION. The three addressing modes and the next pc (spec/40_engine_step.md R112 phases 3 and 4, R113-R115). -/

namespace Sys2Proof.Machine

/-- `P(i)` (R113): the parameter word at `pc + i`. -/
def Engine.param (e : Engine) (i : Nat) : Except Cause Word := do
  let a ← chk64 (e.pc.toInt + i)
  memRead e.mem a

/-- `chk64(rb + p)`, the address of a relative parameter (R114, R115). -/
def Engine.based (e : Engine) (p : Word) : Except Cause Word := chk64 (e.rb.toInt + p.toInt)

/-- `Val(i)` (R114): the value of a read parameter of mode `m`. -/
def Engine.val (e : Engine) (m : Mode) (i : Nat) : Except Cause Word := do
  let p ← e.param i
  match m with
  | .immediate => .ok p
  | .position => memRead e.mem p
  | .relative => do
    let a ← e.based p
    memRead e.mem a

/-- The sign check of a destination, made in phase 3 (R115, D8). -/
def destination (a : Word) : Except Cause Word :=
  if a.toInt < 0 then .error .negativeAddress else .ok a

/-- `Addr(i)` (R115): the effective address of a write parameter of mode `m`. -/
def Engine.addr (e : Engine) (m : Mode) (i : Nat) : Except Cause Word := do
  let p ← e.param i
  match m with
  | .position => destination p
  | .relative => do
    let a ← e.based p
    destination a
  | .immediate => .error .writeToImmediate

/-- The check of R92 on a write parameter's mode. The decoder makes it in phase 2; a meaning makes it first again, so that a
term of `Instr` no word decodes to is raised as R92 says too (notes/assumptions/12.md). -/
def writable (m : Mode) : Except Cause Unit :=
  match m with
  | .immediate => .error .writeToImmediate
  | .position | .relative => .ok ()

/-- `npc = chk64(pc0 + length)` (R112 phase 4). -/
def Engine.advance (e : Engine) (op : Op) : Except Cause Word := chk64 (e.pc.toInt + op.length)

/-- The one `MemWrite` of a commit (R53), at a destination whose sign phase 3 has checked. -/
def Engine.store (e : Engine) (dest v : Word) : Engine := { e with mem := e.mem.write dest.toNat v }

/-- Two read parameters, a destination, the next pc and the result, in the order of R112, for the four instructions of
that shape (R140, R141, R170, R171): the engine after the commit. -/
def Engine.binary (e : Engine) (op : Op) (f : Word → Word → Except Cause Word) (m1 m2 m3 : Mode) :
    Except Cause Engine := do
  writable m3
  let va ← e.val m1 1
  let vb ← e.val m2 2
  let dest ← e.addr m3 3
  let npc ← e.advance op
  let r ← f va vb
  .ok { e.store dest r with pc := npc }

/-- Both operands and the next pc are resolved whether or not the jump is taken (R160, R161). -/
def Engine.jump (e : Engine) (op : Op) (taken : Word → Bool) (m1 m2 : Mode) : Except Cause Engine := do
  let va ← e.val m1 1
  let vb ← e.val m2 2
  let npc ← e.advance op
  .ok { e with pc := if taken va then vb else npc }

end Sys2Proof.Machine
end

