-- ==== Sys2Proof/Machine/Arithmetic.lean ====
section
/-! DEFINITION. The meanings of add and multiply (spec/41_arithmetic.md). -/

namespace Sys2Proof.Machine

/-- ADD (R140). -/
def execAdd (m1 m2 m3 : Mode) (s : State) : Result :=
  s.withEngine fun e => s.attempt e (e.binary .add sum m1 m2 m3) fun e' => .next (s.setEngine e')

/-- MUL (R141). -/
def execMul (m1 m2 m3 : Mode) (s : State) : Result :=
  s.withEngine fun e => s.attempt e (e.binary .mul product m1 m2 m3) fun e' => .next (s.setEngine e')

end Sys2Proof.Machine
end

