-- ==== Sys2Proof/Machine/Compare.lean ====
section
/-! DEFINITION. The meanings of less-than and equal (spec/44_compare.md). -/

namespace Sys2Proof.Machine

/-- LT (R170). -/
def execLessThan (m1 m2 m3 : Mode) (s : State) : Result :=
  s.withEngine fun e => s.attempt e (e.binary .lessThan lessThan m1 m2 m3) fun e' => .next (s.setEngine e')

/-- EQ (R171). -/
def execEqual (m1 m2 m3 : Mode) (s : State) : Result :=
  s.withEngine fun e => s.attempt e (e.binary .equal equal m1 m2 m3) fun e' => .next (s.setEngine e')

end Sys2Proof.Machine
end

