-- ==== Sys2Proof/Machine/Halt.lean ====
section
/-! DEFINITION. The meaning of halt (spec/46_halt.md). No mode has a parameter (R94). -/

namespace Sys2Proof.Machine

/-- HLT (R190): `pc` stays at the halt; the two sides are dropped as DROP_POLICY says (R208). -/
def execHalt (s : State) : Result :=
  s.withEngine fun e => .next ((s.setEngine { e with status := .halted, grant := .none }).terminated)

end Sys2Proof.Machine
end

