-- ==== Sys2Proof/Machine/InputOutput.lean ====
section
/-! DEFINITION. The meanings of input and output (spec/42_io.md). Modes 2 and 3 have no parameter (R94). -/

namespace Sys2Proof.Machine

/-- Phases 2 to 4 of an input: the destination and the next pc (R150). -/
def Engine.inputPlan (e : Engine) (m1 : Mode) : Except Cause (Word × Word) := do
  writable m1
  let dest ← e.addr m1 1
  let npc ← e.advance .input
  .ok (dest, npc)

/-- Phases 3 and 4 of an output: the value and the next pc (R151). -/
def Engine.outputPlan (e : Engine) (m1 : Mode) : Except Cause (Word × Word) := do
  let va ← e.val m1 1
  let npc ← e.advance .output
  .ok (va, npc)

/-- IN (R150). The checks on the instruction come before the channel is looked at (D28); a hold changes nothing at all
(R206). -/
def execInput (m1 : Mode) (s : State) : Result :=
  s.withEngine fun e => s.attempt e (e.inputPlan m1) fun p =>
    s.withChannel s.inChannel fun ch =>
      match ch.recv with
      | .got x ch' => .next ((s.setChannel s.inChannel ch').setEngine { e.store p.1 x with pc := p.2 })
      | .hold => .next s
      | .broken => .next (s.raise e .brokenChannel)

/-- What a run contract does after an output of `v` (R126, R151, R152). -/
def Engine.afterOutput (e : Engine) (v : Word) : Engine :=
  match e.grant with
  | .yieldAfterOutput => { e with yielded := some v, grant := .none }
  | .none | .toHalt => e

/-- LAST after a successful Send of `v` by the stage whose turn it is (R239): written by the last stage of a loop, which is
the stage that sends to `c[0]`, and by nothing else. -/
def State.lastAfterSend (s : State) (v : Word) : Option Word :=
  if s.config.topology = .feedbackLoop ∧ s.outChannel = 0 then some v else s.last

/-- OUT (R151). On a broken channel nothing is enqueued and neither `pc`, `yielded` nor LAST is written (D29). -/
def execOutput (m1 : Mode) (s : State) : Result :=
  s.withEngine fun e => s.attempt e (e.outputPlan m1) fun p =>
    s.withChannel s.outChannel fun ch =>
      match ch.send p.1 with
      | some ch' =>
        .next (({ s with last := s.lastAfterSend p.1 }.setChannel s.outChannel ch').setEngine
          ({ e with pc := p.2 }.afterOutput p.1))
      | none => .next (s.raise e .brokenChannel)

end Sys2Proof.Machine
end

