-- ==== Sys2Proof/Machine/Jumps.lean ====
section
/-! DEFINITION. The meanings of the two conditional jumps (spec/43_jumps.md). Mode 3 has no parameter (R94). -/

namespace Sys2Proof.Machine

/-- JT (R160): taken on any non-zero word. -/
def execJumpIfTrue (m1 m2 : Mode) (s : State) : Result :=
  s.withEngine fun e =>
    s.attempt e (e.jump .jumpIfTrue (fun va => decide (va.toInt ≠ 0)) m1 m2) fun e' => .next (s.setEngine e')

/-- JF (R161): taken on zero. -/
def execJumpIfFalse (m1 m2 : Mode) (s : State) : Result :=
  s.withEngine fun e =>
    s.attempt e (e.jump .jumpIfFalse (fun va => decide (va.toInt = 0)) m1 m2) fun e' => .next (s.setEngine e')

end Sys2Proof.Machine
end

