-- ==== Sys2Proof/Machine/RelativeBase.lean ====
section
/-! DEFINITION. The meaning of adjust-relative-base (spec/45_relative_base.md). Modes 2 and 3 have no parameter (R94). -/

namespace Sys2Proof.Machine

/-- The engine after an adjustment: the operand is read with the old base (R180). -/
def Engine.rebase (e : Engine) (m1 : Mode) : Except Cause Engine := do
  let va ← e.val m1 1
  let npc ← e.advance .adjustRelativeBase
  let nrb ← chk64 (e.rb.toInt + va.toInt)
  .ok { e with rb := nrb, pc := npc }

/-- ARB (R180). -/
def execAdjustRelativeBase (m1 : Mode) (s : State) : Result :=
  s.withEngine fun e => s.attempt e (e.rebase m1) fun e' => .next (s.setEngine e')

end Sys2Proof.Machine
end

