-- ==== Sys2Proof/Machine/Dispatch.lean ====
section
/-! DEFINITION. Dispatch (spec/40_engine_step.md R119): one arm per constructor, no other arm. -/

namespace Sys2Proof.Machine

def exec (i : Instr) (s : State) : Host.Outcome State Fault Refusal :=
  match i with
  | .add m1 m2 m3 => Sys2Proof.Machine.execAdd m1 m2 m3 s
  | .mul m1 m2 m3 => Sys2Proof.Machine.execMul m1 m2 m3 s
  | .input m1 _ _ => Sys2Proof.Machine.execInput m1 s
  | .output m1 _ _ => Sys2Proof.Machine.execOutput m1 s
  | .jumpIfTrue m1 m2 _ => Sys2Proof.Machine.execJumpIfTrue m1 m2 s
  | .jumpIfFalse m1 m2 _ => Sys2Proof.Machine.execJumpIfFalse m1 m2 s
  | .lessThan m1 m2 m3 => Sys2Proof.Machine.execLessThan m1 m2 m3 s
  | .equal m1 m2 m3 => Sys2Proof.Machine.execEqual m1 m2 m3 s
  | .adjustRelativeBase m1 _ _ => Sys2Proof.Machine.execAdjustRelativeBase m1 s
  | .halt _ _ _ => Sys2Proof.Machine.execHalt s

end Sys2Proof.Machine
end

