-- ==== Sys2Proof/Machine/Composition.lean ====
section
/-! DEFINITION. The composition (spec/48_process_composition.md): who holds which side, when a stage's step is enabled,
when a run is over and what its result is, what a deadlock is, and a stage's turn. -/

namespace Sys2Proof.Machine

/-- Who holds a side of a channel (R202). -/
inductive Holder where
  | host
  | stage (k : Nat)
  deriving DecidableEq, Repr

/-- The holder of a side of channel `ch`: in a pipeline the host holds the send side of `c[0]` and the receive side of
`c[n]` (R236), in a loop it holds none (R240); the rest is the wiring of R235 and R239. -/
def holderOf (c : Config) (ch : Nat) (side : Side) : Holder :=
  match c.topology, side with
  | .pipeline, .send => if ch = 0 then .host else .stage (ch - 1)
  | .pipeline, .receive => if ch = c.nStages then .host else .stage ch
  | .feedbackLoop, .send => .stage ((ch + (c.nStages - 1)) % c.nStages)
  | .feedbackLoop, .receive => .stage ch

/-- Every stage is loaded and every channel constructed (R303 steps 1 to 4). -/
def State.built (s : State) : Bool :=
  s.engines.length == s.config.nStages && s.channels.length == channelCount s.config

/-- The engine may take a step, a hold aside (R110). -/
def Engine.ready (e : Engine) : Bool := e.status == .running && e.grant != .none

/-- The engine has stopped for good (R28). -/
def Engine.terminated (e : Engine) : Bool := e.status != .running

/-- The instruction at `pc` is an input that passes every check and whose queue is empty with a live sender (R206). -/
def State.holdsAt (s : State) (k : Nat) (e : Engine) : Bool :=
  match e.decoded with
  | .ok (.input m1 _ _) =>
    match e.inputPlan m1, s.channels[inChannelOf s.config k]? with
    | .ok _, some ch => ch.q.isEmpty && ch.txLive
    | _, _ => false
  | _ => false

/-- Stage `k` holds (R10 "blocked, hold", R206): it is running and its next instruction is an input that holds. A grant is no part
of it, and lifts no hold. -/
def State.holds (s : State) (k : Nat) : Bool :=
  match s.engines[k]? with
  | some e => e.status == .running && s.holdsAt k e
  | none => false

/-- Stage `k` has an enabled step (R110). -/
def State.enabled (s : State) (k : Nat) : Bool :=
  match s.engines[k]? with
  | some e => e.ready && !s.holdsAt k e
  | none => false

/-- One step of the engine whose turn it is (R112): fetch and decode, or the exception they raise, then the instruction. -/
def stepEngine (s : State) : Result :=
  s.withEngine fun e => s.attempt e e.decoded fun i => exec i s

/-- The stage `k` takes its turn: its step if it is ready, and nothing at all if it is not (R110, R127). -/
def stageTurn (k : Nat) (s : State) : Result :=
  match s.engines[k]? with
  | some e => if e.ready then stepEngine { s with active := k } else .next s
  | none => .next s

/-- The stage `k` has terminated. -/
def State.terminatedStage (s : State) (k : Nat) : Bool :=
  match s.engines[k]? with
  | some e => e.terminated
  | none => false

/-- The interconnect's drop step (R208): enabled under `free` alone, on a side whose holder is a terminated engine; where it
is not enabled nothing happens. -/
def interconnectDrop (ch : Nat) (side : Side) (s : State) : Result :=
  match s.config.dropPolicy, holderOf s.config ch side with
  | .free, .stage k => if s.terminatedStage k then .next (s.dropSide ch side) else .next s
  | _, _ => .next s

/-- The run of a composition is over: every stage of a pipeline has terminated (R237), the designated stage of a loop has
halted (R241). -/
def State.runOver (s : State) : Bool :=
  match s.config.topology with
  | .pipeline => s.built && s.engines.all Engine.terminated
  | .feedbackLoop =>
    match s.engines[s.config.haltStage]? with
    | some e => e.status == .halted
    | none => false

/-- The run is over and it ended well: every stage of a pipeline is halted (R237). DESIGN CHOICE, safe
(notes/assumptions/14.md): a loop, for which no rule says it, ends well if it is over and no stage is fatal (D30). -/
def State.endedWell (s : State) : Bool :=
  match s.config.topology with
  | .pipeline => s.built && s.engines.all fun e => e.status == .halted
  | .feedbackLoop => s.runOver && s.engines.all fun e => e.status != .fatal

/-- The result of a pipeline: what the host has received from `c[n]`, in order (R237). -/
def State.pipelineResult (s : State) : List Word := s.received

/-- The result of a feedback loop as it stands in a state in which its run has just ended (R241): LAST, if a value traversed
the loop. After that step LAST may change and the result does not: read it at the step of the designated halt. -/
def State.loopResult (s : State) : Option Word := if s.runOver then s.last else none

/-- Some stage is running, and every running stage holds, with a grant or without: no stage has an enabled step, and no grant
would enable one (R206). A running stage that waits for nothing but the host's run transaction (R245) is not among them. -/
def State.stalled (s : State) : Bool :=
  s.built && (s.engines.any fun e => e.status == .running) &&
    (List.range s.engines.length).all fun k => s.terminatedStage k || s.holds k

/-- Among the moves to come in this composition is a Send of the host on `c[0]`. -/
def sendToCome : List Event → Bool
  | [] => false
  | ev :: rest =>
    match ev with
    | .host (.newComposition _) => false
    | .host (.send ch _) => ch == 0 || sendToCome rest
    | _ => sendToCome rest

/-- The host's duty to supply a pipeline's seed is outstanding (R245): the first stage holds on `c[0]` and the Send is still to
come. DESIGN CHOICE, safe (notes/assumptions/15.md): a duty is outstanding where the agenda holds the move that does it. -/
def State.seedOutstanding (s : State) : Bool :=
  s.config.topology == .pipeline && s.holds 0 && sendToCome s.agenda

/-- A deadlock (R250): no stage has an enabled step, some stage is running, every running stage holds, and no duty of the host
that would enable a step is outstanding. -/
def State.deadlocked (s : State) : Bool := s.stalled && !s.seedOutstanding

end Sys2Proof.Machine
end

