-- ==== Sys2Proof/Machine/Program.lean ====
section
/-! DEFINITION. Program text and the load transaction (spec/30_encoding.md R100, R101, spec/70_reset_and_hazards.md R300,
R301). A text is a list of characters. -/

namespace Sys2Proof.Machine

/-- `ws` of R101: space, tab, carriage return, line feed. -/
def isWs (c : Char) : Bool := c == ' ' || c == '\t' || c == '\r' || c == '\n'

/-- The fields between the commas; a text without a comma is one field. No field of R101 holds a comma. -/
def splitCommas : List Char → List (List Char)
  | [] => [[]]
  | c :: cs =>
    match splitCommas cs with
    | [] => [[c]]
    | f :: fs => if c == ',' then [] :: f :: fs else (c :: f) :: fs

/-- A field without the white space around it. -/
def trimWs (cs : List Char) : List Char := ((cs.dropWhile isWs).reverse.dropWhile isWs).reverse

/-- The value of a decimal digit. -/
def digitValue (c : Char) : Option Nat :=
  if 48 ≤ c.toNat ∧ c.toNat ≤ 57 then some (c.toNat - 48) else none

/-- The number that the digits read so far (`acc`) and the ones to come stand for. -/
def digitsFrom : Nat → List Char → Option Nat
  | acc, [] => some acc
  | acc, c :: cs =>
    match digitValue c with
    | some d => digitsFrom (10 * acc + d) cs
    | none => none

/-- `digit+` of R101. -/
def parseDigits : List Char → Option Nat
  | [] => none
  | c :: cs => digitsFrom 0 (c :: cs)

/-- `int` of R101: an optional minus sign and at least one digit. -/
def parseInt : List Char → Option Int
  | [] => none
  | c :: cs =>
    if c == '-' then (parseDigits cs).map fun n => -(n : Int) else (parseDigits (c :: cs)).map fun n => (n : Int)

/-- One field: an integer in the word range, white space around it (R101). -/
def parseField (cs : List Char) : Option Word :=
  match parseInt (trimWs cs) with
  | some n => if Fits n then some (wordOf n) else none
  | none => none

/-- Every field, or none of them (R301: a load never partially happens). -/
def parseFields : List (List Char) → Option (List Word)
  | [] => some []
  | f :: fs =>
    match parseField f, parseFields fs with
    | some w, some ws => some (w :: ws)
    | _, _ => none

/-- `text` of R101. -/
def parseProgram (text : List Char) : Option (List Word) := parseFields (splitCommas text)

/-- `load(program_text)` (R300): a fresh engine, or none where the grammar refuses the text. A program of more integers than
there are addresses has no place to be loaded to (R51): notes/assumptions/6.md. -/
def loadEngine (text : List Char) : Option Engine :=
  match parseProgram text with
  | some ws => if (ws.length : Int) ≤ wordMax + 1 then some (Engine.fresh (Memory.ofWords 0 ws)) else none
  | none => none

end Sys2Proof.Machine
end

