-- ==== Sys2Proof/Machine/Transactions.lean ====
section
/-! DEFINITION. The host's transactions (spec/47_channel_endpoint.md R201-R213, spec/48_process_composition.md R236-R247,
spec/40_engine_step.md R125-R127, spec/70_reset_and_hazards.md R300-R303). -/

namespace Sys2Proof.Machine

/-- Start building a fresh composition (R244, R273, R303): nothing of the old one carries over. -/
def newComposition (c : Config) (s : State) : Result :=
  if c.wf then
    .next { config := c, engines := [], channels := [], last := none, active := 0, agenda := s.agenda, received := [],
            reply := .done }
  else .refused .transaction

/-- `make_channel` (R201), in wiring order. Only the feedback link, `c[0]` of a loop, may be seeded (R240). -/
def makeChannel (seed : Option Word) (s : State) : Result :=
  if s.channels.length < channelCount s.config then
    match seed with
    | none => .next { s with channels := s.channels ++ [Channel.fresh []], reply := .done }
    | some v =>
      if s.config.topology = .feedbackLoop ∧ s.channels.length = 0 then
        .next { s with channels := s.channels ++ [Channel.fresh [v]], reply := .done }
      else .refused .transaction
  else .refused .transaction

/-- `load` (R300), in wiring order. -/
def loadStage (text : List Char) (s : State) : Result :=
  if s.engines.length < s.config.nStages then
    match loadEngine text with
    | some e => .next { s with engines := s.engines ++ [e], reply := .done }
    | none => .refused .programText
  else .refused .transaction

/-- The engine at the start of a run under contract `g` (R125, R126): `yielded` is cleared; a terminated engine gets no grant
and its run returns at once (R127). -/
def Engine.granted (e : Engine) (g : Grant) : Engine :=
  if e.terminated then { e with yielded := none } else { e with grant := g, yielded := none }

/-- A run transaction on stage `k` (R125, R126): on an engine whose grant is none (R244) of a composition that has been built
(R303). -/
def runStage (g : Grant) (k : Nat) (s : State) : Result :=
  match s.engines[k]? with
  | some e =>
    if s.built ∧ e.grant = .none then
      .next { s with engines := s.engines.set k (e.granted g), reply := .done }
    else .refused .transaction
  | none => .refused .transaction

/-- The host's `Send` (R204, R236). On a broken channel the channel stays and the host is told: notes/assumptions/5.md. DESIGN
CHOICE, safe (notes/assumptions/13.md): on a send side the host has itself dropped a Send still appends, since R204 tests the
receive side alone and R244 gives the host its Send at any time. -/
def hostSend (k : Nat) (v : Word) (s : State) : Result :=
  match s.channels[k]?, holderOf s.config k .send with
  | some ch, .host =>
    match ch.send v with
    | some ch' => .next { s.setChannel k ch' with reply := .done }
    | none => .next { s with reply := .brokenChannel }
  | _, _ => .refused .transaction

/-- The host's `Recv` (R205, R236). While it holds it has no step and nothing changes (R206). Once the host has dropped the
receive side the queue's content is unobservable (R207): no Recv returns it. DESIGN CHOICE, safe (notes/assumptions/13.md): such
a Recv is refused. -/
def hostRecv (k : Nat) (s : State) : Result :=
  match s.channels[k]?, holderOf s.config k .receive with
  | some ch, .host =>
    if ch.rxLive then
      match ch.recv with
      | .got v ch' => .next { s.setChannel k ch' with received := s.received ++ [v], reply := .value v }
      | .hold => .next s
      | .broken => .next { s with reply := .brokenChannel }
    else .refused .transaction
  | _, _ => .refused .transaction

/-- The host may drop this side (R208): one it holds, at any time; under `hostOnly` also one of a terminated engine, on its
behalf. -/
def State.hostMayDrop (s : State) (ch : Nat) (side : Side) : Bool :=
  match holderOf s.config ch side with
  | .host => true
  | .stage k => s.config.dropPolicy == .hostOnly && s.terminatedStage k

/-- The host's `Drop` (R208). -/
def hostDrop (ch : Nat) (side : Side) (s : State) : Result :=
  match s.channels[ch]? with
  | some _ => if s.hostMayDrop ch side then .next { s.dropSide ch side with reply := .done } else .refused .transaction
  | none => .refused .transaction

/-- One transaction of the host (R213, R244). -/
def transact (t : Transaction) (s : State) : Result :=
  match t with
  | .newComposition c => newComposition c s
  | .makeChannel seed => makeChannel seed s
  | .load text => loadStage text s
  | .runToHalt k => runStage .toHalt k s
  | .runUntilBlocked k => runStage .yieldAfterOutput k s
  | .send ch v => hostSend ch v s
  | .recv ch => hostRecv ch s
  | .drop ch side => hostDrop ch side s

/-- One move of one agent (R11). -/
def happen (ev : Event) (s : State) : Result :=
  match ev with
  | .stage k => stageTurn k s
  | .interconnectDrop ch side => interconnectDrop ch side s
  | .host t => transact t s

/-- The move the machine makes next: the head of the agenda, or a turn of the stage `active` when the agenda is empty
(R231; notes/assumptions/2.md). -/
def nextMove (s : State) : Result :=
  match s.agenda with
  | [] => stageTurn s.active s
  | ev :: rest => happen ev { s with agenda := rest }

/-- An engine that may step (R110): running, with a grant. -/
def Engine.started (e : Engine) : Engine :=
  { e with status := .running, grant := match e.grant with | .none => .toHalt | .toHalt => .toHalt | .yieldAfterOutput => .yieldAfterOutput }

/-- Words placed at the active engine's `pc`, that engine started, and no other move due first: what a load and a run
transaction come to (notes/assumptions/7.md). -/
def State.place (s : State) (ws : List Word) : State :=
  match s.engine? with
  | some e => { s.setEngine ({ e with mem := e.mem.writeWords e.pc.toNat ws }.started) with agenda := [] }
  | none => s

end Sys2Proof.Machine
end

