-- ==== Sys2Proof/Machine/Step.lean ====
section
/-! DEFINITION. One step of the machine: one atomic move of one agent (spec/40_engine_step.md R110,
spec/48_process_composition.md R231), and the placing of one instruction word for the host. -/

namespace Sys2Proof.Machine

/-- One step. -/
def step (s : State) : Host.Outcome State Fault Refusal := nextMove s

/-- The state with the instruction of `nbits` bits `w` (spec/opcode_table.json's numbering) where the next step fetches, so
that the very next step runs it (notes/assumptions/7.md). -/
def State.withFetchWord (s : State) (nbits w : Nat) : State := s.place (tableWords nbits w)

end Sys2Proof.Machine
end

