-- ==== Sys2Proof/Machine/Results.lean ====
section
/-! DEFINITION. The result of a feedback loop over a run (spec/48_process_composition.md R241): LAST as it stands at the
step in which the designated stage halts. -/

namespace Sys2Proof.Machine

/-- The result of the run from `s`, if the run ends within `fuel` steps: LAST at the first state whose run is over, or no
result where LAST is empty then. `none` also stands for a run that has not ended (R316: no run need end;
notes/assumptions/11.md). -/
def loopResultWithin : Nat → State → Option Word
  | 0, s => s.loopResult
  | fuel + 1, s =>
    if s.runOver then s.last
    else
      match step s with
      | .next t => loopResultWithin fuel t
      | .fault _ | .refused _ => none

end Sys2Proof.Machine
end

