-- ==== Sys2Proof/Safety.lean ====
section
/-! DEFINITION. The terms claims are stated in: which states are well formed (the invariants), what the rules say an operand
is (over integers, apart from the functions a meaning calls), and what "the rest is unchanged" says. -/

namespace Sys2Proof.Safety

open Sys2Proof.Machine

/-! ### Invariants -/

/-- An engine's invariant: memory in canonical form (R50), a fault record exactly when fatal (R31), no grant once
terminated (R190, R270), and nothing yielded while a run is under way (R125, R126). -/
abbrev EngineInv (e : Engine) : Prop :=
  e.mem.wf = true ∧ (e.fault.isSome = true ↔ e.status = .fatal) ∧ (e.status ≠ .running → e.grant = .none) ∧
    (e.grant ≠ .none → e.yielded = none)

/-- The invariant of the machine: legal parameters (R6, R230); never more stages or channels than the wiring has (R233);
every engine's invariant; no grant before the composition is built (R303); LAST only on a feedback link (R239). -/
abbrev Inv (s : State) : Prop :=
  s.config.wf ∧ s.engines.length ≤ s.config.nStages ∧ s.channels.length ≤ channelCount s.config ∧
    (∀ e ∈ s.engines, EngineInv e) ∧ (∀ e ∈ s.engines, e.grant ≠ .none → s.built = true) ∧
    (s.config.topology = .pipeline → s.last = none)

/-- A side of a channel that may have been dropped: its holder is the host, or a stage that has terminated (R208). -/
def dropAllowed (s : State) (ch : Nat) (side : Side) : Bool :=
  match holderOf s.config ch side with
  | .host => true
  | .stage k => s.terminatedStage k

/-- R208: "a side held by an engine is dropped only after that engine has terminated". -/
abbrev DropsInv (s : State) : Prop :=
  ∀ n : Fin s.channels.length,
    (s.channels[n].txLive = false → dropAllowed s n .send = true) ∧
      (s.channels[n].rxLive = false → dropAllowed s n .receive = true)

/-- Both bound endpoints of the active stage exist (R34). -/
abbrev Wired (s : State) : Prop :=
  s.inChannel < s.channels.length ∧ s.outChannel < s.channels.length

/-! ### Operands, as the rules give them over integers -/

/-- `n` is a valid address and the word there is `v` (R50, R51). -/
def HoldsAt (e : Engine) (n : Int) (v : Word) : Prop := 0 ≤ n ∧ n ≤ wordMax ∧ e.mem.read n.toNat = v

/-- `P(i)` is `p` (R113). -/
def ParamIs (e : Engine) (i : Nat) (p : Word) : Prop := HoldsAt e (e.pc.toInt + i) p

/-- `Val(i)` is `v` (R114). -/
def ValueIs (e : Engine) (m : Mode) (i : Nat) (v : Word) : Prop :=
  ∃ p, ParamIs e i p ∧
    match m with
    | .immediate => v = p
    | .position => HoldsAt e p.toInt v
    | .relative => HoldsAt e (e.rb.toInt + p.toInt) v

/-- `Addr(i)` is the address `a` (R115). -/
def AddressIs (e : Engine) (m : Mode) (i : Nat) (a : Int) : Prop :=
  ∃ p, ParamIs e i p ∧
    match m with
    | .immediate => False
    | .position => a = p.toInt ∧ 0 ≤ a
    | .relative => a = e.rb.toInt + p.toInt ∧ 0 ≤ a ∧ a ≤ wordMax

/-- What resolving an address `n` that an instruction forms raises (R114, R115, R266 item 6): overflow before sign. -/
def AddressRaises (n : Int) (c : Cause) : Prop :=
  (¬ Fits n ∧ c = .arithmeticOverflow) ∨ (Fits n ∧ n < 0 ∧ c = .negativeAddress)

/-- What resolving parameter `i` in a memory mode raises (R113, R114, R115): forming and reading `pc + i` first. -/
def OperandRaises (e : Engine) (m : Mode) (i : Nat) (c : Cause) : Prop :=
  AddressRaises (e.pc.toInt + i) c ∨
    ∃ p, ParamIs e i p ∧
      match m with
      | .immediate => False
      | .position => AddressRaises p.toInt c
      | .relative => AddressRaises (e.rb.toInt + p.toInt) c

/-- The parameters of an instruction in order: role and mode (R84, R113: only the ones the opcode has). -/
def paramsOf (i : Instr) : List (Role × Mode) := i.op.roles.zip [i.modes.1, i.modes.2.1, i.modes.2.2]

/-- The parameter has a value, or an address (R114, R115). -/
def Resolvable (e : Engine) : Role → Mode → Nat → Prop
  | .read, m, n => ∃ v, ValueIs e m n v
  | .write, m, n => ∃ a, AddressIs e m n a

/-- The first cause raised while the parameters from number `n` on are resolved in order and then the next pc is formed
(R112 phases 3 and 4, R266 items 6 and 7). After the last parameter `n` is the length of the instruction. -/
def FirstRaise (e : Engine) : List (Role × Mode) → Nat → Cause → Prop
  | [], n, c => ¬ Fits (e.pc.toInt + n) ∧ c = .arithmeticOverflow
  | (r, m) :: rest, n, c => OperandRaises e m n c ∨ (Resolvable e r m n ∧ FirstRaise e rest (n + 1) c)

/-! ### Program text, as the grammar of R101 gives it -/

/-- `ws`. -/
def IsWs (cs : List Char) : Prop := ∀ c ∈ cs, c = ' ' ∨ c = '\t' ∨ c = '\r' ∨ c = '\n'

/-- `digit+`, and the number it stands for. -/
def IsDigits (cs : List Char) (n : Nat) : Prop :=
  cs ≠ [] ∧ (∀ c ∈ cs, '0' ≤ c ∧ c ≤ '9') ∧ n = cs.foldl (fun acc c => 10 * acc + (c.toNat - '0'.toNat)) 0

/-- `int`: an optional minus sign and digits. -/
def IsInt (cs : List Char) (n : Int) : Prop :=
  (∃ k : Nat, IsDigits cs k ∧ n = k) ∨ ∃ ds, ∃ k : Nat, cs = '-' :: ds ∧ IsDigits ds k ∧ n = -(k : Int)

/-- `ws int ws`. -/
def IsField (cs : List Char) (n : Int) : Prop :=
  ∃ w1 d w2, IsWs w1 ∧ IsInt d n ∧ IsWs w2 ∧ cs = w1 ++ d ++ w2

/-- `text`: fields with a comma between each two. -/
inductive IsText : List Char → List Int → Prop where
  | one {cs : List Char} {n : Int} (h : IsField cs n) : IsText cs [n]
  | more {cs rest : List Char} {n : Int} {ns : List Int} (h : IsField cs n) (ht : IsText rest ns) :
      IsText (cs ++ ',' :: rest) (n :: ns)

/-! ### A channel by itself (R207) -/

/-- A transaction on one channel (R213). -/
inductive ChannelUse where
  | send (v : Word)
  | recv
  | drop (side : Side)
  deriving DecidableEq, Repr

/-- A channel after a sequence of transactions, with the values sent and the values received, in order. A Send on a dropped
receive side sends nothing; a Recv that holds or is broken receives nothing (R204, R205), and so does one on a dropped receive
side, behind which the queue is unobservable (R207). -/
def useChannel : Channel → List ChannelUse → List Word × List Word × Channel
  | ch, [] => ([], [], ch)
  | ch, .send v :: rest =>
    match ch.send v with
    | some ch' => let r := useChannel ch' rest; (v :: r.1, r.2.1, r.2.2)
    | none => useChannel ch rest
  | ch, .recv :: rest =>
    if ch.rxLive then
      match ch.recv with
      | .got v ch' => let r := useChannel ch' rest; (r.1, v :: r.2.1, r.2.2)
      | .hold | .broken => useChannel ch rest
    else useChannel ch rest
  | ch, .drop side :: rest => useChannel (ch.drop side) rest

/-! ### Frames -/

/-- Everything of the machine but the active engine, the channels and LAST is as it was: the parameters, whose turn it is,
the moves to come, what the host has seen, and every other engine. -/
def SameAround (s t : State) : Prop :=
  t.config = s.config ∧ t.active = s.active ∧ t.agenda = s.agenda ∧ t.received = s.received ∧ t.reply = s.reply ∧
    t.engines.length = s.engines.length ∧ ∀ k, k ≠ s.active → t.engines[k]? = s.engines[k]?

/-- Every channel and LAST are as they were. -/
def SameChannels (s t : State) : Prop := t.channels = s.channels ∧ t.last = s.last

/-- The status, fault record, grant and yielded value of an engine are as they were. -/
def SameRun (e e' : Engine) : Prop :=
  e'.status = e.status ∧ e'.fault = e.fault ∧ e'.grant = e.grant ∧ e'.yielded = e.yielded

/-- Every address reads as before. -/
def SameMemory (e e' : Engine) : Prop := ∀ a, e'.mem.read a = e.mem.read a

/-- Every address but `d` reads as before. -/
def SameMemoryBut (e e' : Engine) (d : Nat) : Prop := ∀ a, a ≠ d → e'.mem.read a = e.mem.read a

/-- The step that terminates the active engine: no queue changes, no channel comes or goes, and the two sides of the engine are
dropped where DROP_POLICY is `on_terminate`, no side otherwise (R208). -/
def SidesAfterEnd (s t : State) : Prop :=
  t.channels.length = s.channels.length ∧
    ∀ (k : Nat) (ch : Channel), s.channels[k]? = some ch →
      ∃ ch' : Channel, t.channels[k]? = some ch' ∧ ch'.q = ch.q ∧
        (ch'.txLive = true ↔ ch.txLive = true ∧ ¬ (s.config.dropPolicy = .onTerminate ∧ k = s.outChannel)) ∧
        (ch'.rxLive = true ↔ ch.rxLive = true ∧ ¬ (s.config.dropPolicy = .onTerminate ∧ k = s.inChannel))

/-- `t` is `s` with the exception of cause `c` taken by its active engine `e`, as R270 says: status, fault record and grant
of that engine, and nothing else of any engine; LAST as it was; the channels as `SidesAfterEnd` says. -/
def TakesFatal (s : State) (e : Engine) (c : Cause) (t : State) : Prop :=
  SameAround s t ∧
    t.engine? = some { e with
      status := .fatal
      fault := some { cause := c, fpc := e.pc, fword := if e.pc.toInt < 0 then none else some (e.mem.read e.pc.toNat) }
      grant := .none } ∧
    t.last = s.last ∧ SidesAfterEnd s t

/-- From `u` to `t` the active stage has taken `taken` values from the head of its input queue and added `sent` at the tail of its
output queue, and no other queue has changed. -/
def QueuesMove (u t : State) (taken : Nat) (sent : List Word) : Prop :=
  ∀ (k : Nat) (ch : Channel), u.channels[k]? = some ch → ∃ ch', t.channels[k]? = some ch' ∧
    ch'.q = ch.q.drop (if k = u.inChannel then taken else 0) ++ (if k = u.outChannel then sent else [])

/-! ### Turns -/

/-- The next move of `s` is the turn of stage `k`, and `u` is the machine as that turn begins: on an empty agenda the turn of the
active stage, otherwise the turn at the head of the agenda, taken off it (the model's own: notes/assumptions/2.md). -/
def TurnOf (s : State) (k : Nat) (u : State) : Prop :=
  (s.agenda = [] ∧ s.active = k ∧ u = s) ∨
    ∃ rest, s.agenda = .stage k :: rest ∧ u = { s with agenda := rest, active := k }

/-- The word at `pc` is the instruction `i` (R111, R112 phases 1 and 2). -/
def Fetches (e : Engine) (i : Instr) : Prop := 0 ≤ e.pc.toInt ∧ decode (e.mem.read e.pc.toNat) = .ok i

/-- The host's next move is not to abandon the composition (R244). -/
def KeepsComposition (s : State) : Prop := ∀ c rest, s.agenda ≠ .host (.newComposition c) :: rest

end Sys2Proof.Safety
end

