-- ==== Sys2Proof/Certificates/Slice0/Obligations.lean ====
section
/-! DEFINITION. The statements for the provers. Each docstring names the rule of spec/ it formalises; where a clause rests on
what the spec marks as its own decision (D<n>) or derivation, or on a choice of this model, it says so. -/

open Sys2Proof Sys2Proof.Machine Sys2Proof.Safety

/-! ### Encoding and decoding -/

/-- R81, R82, R83, R86: decoding the word of a legal instruction gives the instruction back. The six opcode numbers 1, 5 to
9 are decision D1. -/
def Obligations.DecodeInvertsEncode : Prop :=
  ∀ i : Instr, i.wellFormed = true → decode (encode i) = .ok i

/-- R81, R82, R87, R92, R93: a word decodes to an instruction exactly when it is not negative, the instruction is legal, and
the word's low five decimal digits are the instruction's. That higher digits are ignored is decision D6. -/
def Obligations.DecodeReadsLowFiveDigits : Prop :=
  ∀ (v : Word) (i : Instr),
    decode v = .ok i ↔ 0 ≤ v.toInt ∧ i.wellFormed = true ∧ v.toInt % 100000 = (encodeNat i : Int)

/-- R87, R89 to R92, R112 phase 2: which words are no instruction, and under which name each is rejected. The negative word is
decision D4, the unused mode digit D5, the order of the checks D8; that the opcodes 1 and 5 to 9 are instructions, 1, 7 and 8
with a write parameter third, is decision D1, which the model takes over as PRESUMED (notes/assumptions/9.md). -/
def Obligations.DecodeErrorsByCause : Prop :=
  ∀ v : Word,
    (decode v = .error .unknownMode ↔
      0 ≤ v.toInt ∧ (3 ≤ v.toInt / 100 % 10 ∨ 3 ≤ v.toInt / 1000 % 10 ∨ 3 ≤ v.toInt / 10000 % 10)) ∧
    (decode v = .error .unknownOpcode ↔
      v.toInt < 0 ∨
        (v.toInt / 100 % 10 < 3 ∧ v.toInt / 1000 % 10 < 3 ∧ v.toInt / 10000 % 10 < 3 ∧
          (v.toInt % 100 = 0 ∨ (10 ≤ v.toInt % 100 ∧ v.toInt % 100 ≤ 98)))) ∧
    (decode v = .error .writeToImmediate ↔
      0 ≤ v.toInt ∧ v.toInt / 100 % 10 < 3 ∧ v.toInt / 1000 % 10 < 3 ∧ v.toInt / 10000 % 10 < 3 ∧
        (((v.toInt % 100 = 1 ∨ v.toInt % 100 = 2 ∨ v.toInt % 100 = 7 ∨ v.toInt % 100 = 8) ∧
            v.toInt / 10000 % 10 = 1) ∨
          (v.toInt % 100 = 3 ∧ v.toInt / 100 % 10 = 1)))

/-- Ten words written out digit by digit from R83, one per operation, and what they decode to: 1002 stands in the vector S2, 3 in
S1, 104 in S3, 22201 in A3, 1105 in J1, 1106 in J3, 22208 in A13, 209 in B4, 100099 in F7 of 95_test_vectors.md; 21107 is the
format's alone. The opcodes 1 and 5 to 9 are decision D1, which the model takes over as PRESUMED (notes/assumptions/9.md). A
sanity statement. -/
def Obligations.SpecWordsDecode : Prop :=
  decode 1002 = .ok (.mul .position .immediate .position) ∧
  decode 3 = .ok (.input .position .position .position) ∧
  decode 104 = .ok (.output .immediate .position .position) ∧
  decode 22201 = .ok (.add .relative .relative .relative) ∧
  decode 1105 = .ok (.jumpIfTrue .immediate .immediate .position) ∧
  decode 1106 = .ok (.jumpIfFalse .immediate .immediate .position) ∧
  decode 21107 = .ok (.lessThan .immediate .immediate .relative) ∧
  decode 22208 = .ok (.equal .relative .relative .relative) ∧
  decode 209 = .ok (.adjustRelativeBase .relative .position .position) ∧
  decode 100099 = .ok (.halt .position .position .position)

/-! ### Operands and memory -/

/-- R113, R114: the value of a read parameter in each mode, and what resolving it raises. The faults are decisions D3 and
D7. -/
def Obligations.ReadOperandResolves : Prop :=
  ∀ (e : Engine) (m : Mode) (i : Nat),
    (∀ v, e.val m i = .ok v ↔ ValueIs e m i v) ∧ (∀ c, e.val m i = .error c ↔ OperandRaises e m i c)

/-- R113, R115: the address of a write parameter in each mode it may have, and what resolving it raises. The overflow fault is
decision D3, the early sign check D8. -/
def Obligations.WriteOperandResolves : Prop :=
  ∀ (e : Engine) (m : Mode) (i : Nat), m ≠ .immediate →
    (∀ d : Word, e.addr m i = .ok d ↔ AddressIs e m i d.toInt) ∧
    (∀ c, e.addr m i = .error c ↔ OperandRaises e m i c)

/-- R50, R53: a memory at load is the program followed by zeros; a store changes the word at its address and no other, and a
negative address raises NegativeAddress; every address keeps its last written word, or its load word. -/
def Obligations.MemoryKeepsWrites : Prop :=
  (∀ (ws : List Word) (a : Nat), Memory.read (Memory.ofWords 0 ws) a = ws.getD a 0) ∧
  (∀ a : Word, destination a = if a.toInt < 0 then .error .negativeAddress else .ok a) ∧
  (∀ (m : Memory) (d v : Word) (a : Nat), m.wf = true → 0 ≤ d.toInt →
    (m.write d.toNat v).read a = if (a : Int) = d.toInt then v else m.read a) ∧
  (∀ (m : Memory) (ws : List (Word × Word)) (a : Nat), m.wf = true → (∀ w ∈ ws, 0 ≤ w.1.toInt) →
    (ws.foldl (fun m w => m.write w.1.toNat w.2) m).read a =
      match ws.reverse.find? fun w => w.1.toInt == (a : Int) with
      | some w => w.2
      | none => m.read a)

/-- The model's own form of memory (DESIGN CHOICE, notes/assumptions/1.md), no rule of the spec: a load and a store at a valid
address have the canonical form, and two canonical memories that read alike are the same data. -/
def Obligations.MemoryFormIsCanonical : Prop :=
  (∀ ws : List Word, (ws.length : Int) ≤ wordMax + 1 → (Memory.ofWords 0 ws).wf = true) ∧
  (∀ (m : Memory) (d v : Word), m.wf = true → 0 ≤ d.toInt → (m.write d.toNat v).wf = true) ∧
  (∀ m m' : Memory, m.wf = true → m'.wf = true → (∀ a, m.read a = m'.read a) → m = m')

/-- R64: a stored word is what the next fetch of that address and the next parameter read of that address see, and what they
see at every other address is as before. -/
def Obligations.StoreSeenByNextFetch : Prop :=
  ∀ (e : Engine) (d v pc' : Word), e.mem.wf = true → 0 ≤ d.toInt →
    (pc' = d → Engine.fetch { e.store d v with pc := pc' } = .ok v) ∧
    (pc' ≠ d → Engine.fetch { e.store d v with pc := pc' } = Engine.fetch { e with pc := pc' }) ∧
    (∀ i : Nat, pc'.toInt + i = d.toInt → Engine.param { e.store d v with pc := pc' } i = .ok v) ∧
    (∀ i : Nat, pc'.toInt + i ≠ d.toInt →
      Engine.param { e.store d v with pc := pc' } i = Engine.param { e with pc := pc' } i)

/-! ### Arithmetic and comparison -/

/-- R140: add completes where its operands resolve and the sum fits: the exact sum at the destination, `pc` 4 further, and
nothing else changed (R117: the destination may be any of the words read). -/
def Obligations.AddStoresSum : Prop :=
  ∀ (s : State) (e : Engine) (m1 m2 m3 : Mode) (va vb dest : Word),
    s.engine? = some e → e.mem.wf = true → e.val m1 1 = .ok va → e.val m2 2 = .ok vb → e.addr m3 3 = .ok dest →
    Fits (e.pc.toInt + 4) → Fits (va.toInt + vb.toInt) →
    ∃ t e', exec (.add m1 m2 m3) s = .next t ∧ t.engine? = some e' ∧ SameAround s t ∧ SameChannels s t ∧
      SameRun e e' ∧ e'.rb = e.rb ∧ e'.pc.toInt = e.pc.toInt + 4 ∧
      (e'.mem.read dest.toNat).toInt = va.toInt + vb.toInt ∧ SameMemoryBut e e' dest.toNat

/-- R141: multiply, as add, with the exact product. -/
def Obligations.MultiplyStoresProduct : Prop :=
  ∀ (s : State) (e : Engine) (m1 m2 m3 : Mode) (va vb dest : Word),
    s.engine? = some e → e.mem.wf = true → e.val m1 1 = .ok va → e.val m2 2 = .ok vb → e.addr m3 3 = .ok dest →
    Fits (e.pc.toInt + 4) → Fits (va.toInt * vb.toInt) →
    ∃ t e', exec (.mul m1 m2 m3) s = .next t ∧ t.engine? = some e' ∧ SameAround s t ∧ SameChannels s t ∧
      SameRun e e' ∧ e'.rb = e.rb ∧ e'.pc.toInt = e.pc.toInt + 4 ∧
      (e'.mem.read dest.toNat).toInt = va.toInt * vb.toInt ∧ SameMemoryBut e e' dest.toNat

/-- R170: the encoding and length of less-than (the opcode number is decision D1); 1 or 0 at the destination by the signed
comparison, `pc` 4 further and nothing else changed; what resolving a, b, c raises, in that order (D3, D8). That exec of a term
with mode 3 immediate takes WriteToImmediate is the model's reading (DEDUCED, notes/assumptions/12.md): no word decodes to such a
term, and R170 places that cause in decode. -/
def Obligations.LessThanRule : Prop :=
  ∀ (s : State) (e : Engine) (m1 m2 m3 : Mode), s.engine? = some e →
    (encodeNat (.lessThan m1 m2 m3) = 10000 * digitOfMode m3 + 1000 * digitOfMode m2 + 100 * digitOfMode m1 + 7 ∧
      Op.length .lessThan = 4) ∧
    (∀ va vb dest : Word, e.mem.wf = true → e.val m1 1 = .ok va → e.val m2 2 = .ok vb → e.addr m3 3 = .ok dest →
      Fits (e.pc.toInt + 4) →
      ∃ t e', exec (.lessThan m1 m2 m3) s = .next t ∧ t.engine? = some e' ∧ SameAround s t ∧ SameChannels s t ∧
        SameRun e e' ∧ e'.rb = e.rb ∧ e'.pc.toInt = e.pc.toInt + 4 ∧
        (e'.mem.read dest.toNat).toInt = (if va.toInt < vb.toInt then 1 else 0) ∧ SameMemoryBut e e' dest.toNat) ∧
    (m3 = .immediate → ∃ t, exec (.lessThan m1 m2 m3) s = .next t ∧ TakesFatal s e .writeToImmediate t) ∧
    (m3 ≠ .immediate → ∀ c, FirstRaise e (paramsOf (.lessThan m1 m2 m3)) 1 c →
      ∃ t, exec (.lessThan m1 m2 m3) s = .next t ∧ TakesFatal s e c t)

/-- R171: as less-than, with equality of the two words. The opcode number is decision D1, the order of the causes D3 and D8, and
the clause on mode 3 immediate the model's reading (DEDUCED, notes/assumptions/12.md). -/
def Obligations.EqualRule : Prop :=
  ∀ (s : State) (e : Engine) (m1 m2 m3 : Mode), s.engine? = some e →
    (encodeNat (.equal m1 m2 m3) = 10000 * digitOfMode m3 + 1000 * digitOfMode m2 + 100 * digitOfMode m1 + 8 ∧
      Op.length .equal = 4) ∧
    (∀ va vb dest : Word, e.mem.wf = true → e.val m1 1 = .ok va → e.val m2 2 = .ok vb → e.addr m3 3 = .ok dest →
      Fits (e.pc.toInt + 4) →
      ∃ t e', exec (.equal m1 m2 m3) s = .next t ∧ t.engine? = some e' ∧ SameAround s t ∧ SameChannels s t ∧
        SameRun e e' ∧ e'.rb = e.rb ∧ e'.pc.toInt = e.pc.toInt + 4 ∧
        (e'.mem.read dest.toNat).toInt = (if va = vb then 1 else 0) ∧ SameMemoryBut e e' dest.toNat) ∧
    (m3 = .immediate → ∃ t, exec (.equal m1 m2 m3) s = .next t ∧ TakesFatal s e .writeToImmediate t) ∧
    (m3 ≠ .immediate → ∀ c, FirstRaise e (paramsOf (.equal m1 m2 m3)) 1 c →
      ∃ t, exec (.equal m1 m2 m3) s = .next t ∧ TakesFatal s e c t)

/-- R172: a comparison has a result on every pair of words, 1 or 0; x is not less than itself and equals itself; of less,
greater and equal exactly one holds. -/
def Obligations.ComparisonsAreTrichotomous : Prop :=
  ∀ x y : Word, ∃ a b c : Word,
    lessThan x y = .ok a ∧ lessThan y x = .ok b ∧ equal x y = .ok c ∧
      (a.toInt = 0 ∨ a.toInt = 1) ∧ (b.toInt = 0 ∨ b.toInt = 1) ∧ (c.toInt = 0 ∨ c.toInt = 1) ∧
      a.toInt + b.toInt + c.toInt = 1 ∧ lessThan x x = .ok 0 ∧ equal x x = .ok 1

/-- R143 (marked derived by the spec): two forms of add, multiply, less-than or equal whose read parameters denote the same
values and whose destinations are the same address store the same word there and advance `pc` by 4 alike. -/
def Obligations.AddressingModesAreEquivalent : Prop :=
  ∀ (op : Op) (s s' : State) (e e' : Engine) (m1 m2 m3 n1 n2 n3 : Mode) (va vb dest : Word),
    (op = .add ∨ op = .mul ∨ op = .lessThan ∨ op = .equal) →
    s.engine? = some e → s'.engine? = some e' → e.mem.wf = true → e'.mem.wf = true → e.pc = e'.pc →
    e.val m1 1 = .ok va → e'.val n1 1 = .ok va → e.val m2 2 = .ok vb → e'.val n2 2 = .ok vb →
    e.addr m3 3 = .ok dest → e'.addr n3 3 = .ok dest →
    ∀ t f, exec (op.instr m1 m2 m3) s = .next t → t.engine? = some f → f.status ≠ .fatal →
      ∃ t' f', exec (op.instr n1 n2 n3) s' = .next t' ∧ t'.engine? = some f' ∧
        f'.mem.read dest.toNat = f.mem.read dest.toNat ∧ f'.pc = f.pc ∧ f.pc.toInt = e.pc.toInt + 4

/-- R142: a sum, product or new base that does not fit is ArithmeticOverflow and nothing else (decision D3). -/
def Obligations.ResultOverflowIsFatal : Prop :=
  ∀ (s : State) (e : Engine) (m1 m2 m3 : Mode) (va : Word), s.engine? = some e → e.val m1 1 = .ok va →
    (∀ vb dest : Word, e.val m2 2 = .ok vb → e.addr m3 3 = .ok dest → Fits (e.pc.toInt + 4) →
      (¬ Fits (va.toInt + vb.toInt) →
        ∃ t, exec (.add m1 m2 m3) s = .next t ∧ TakesFatal s e .arithmeticOverflow t) ∧
      (¬ Fits (va.toInt * vb.toInt) →
        ∃ t, exec (.mul m1 m2 m3) s = .next t ∧ TakesFatal s e .arithmeticOverflow t)) ∧
    (Fits (e.pc.toInt + 2) → ¬ Fits (e.rb.toInt + va.toInt) →
      ∃ t, exec (.adjustRelativeBase m1 m2 m3) s = .next t ∧ TakesFatal s e .arithmeticOverflow t)

/-! ### Jumps, relative base, halt -/

/-- R160: jump-if-true completes where both operands resolve and `pc + 3` fits (D8 resolves both and forms `pc + 3` whether or
not the jump is taken): `pc` is the target if the condition is not zero, else 3 further, and nothing else changes. -/
def Obligations.JumpIfTrueSetsPc : Prop :=
  ∀ (s : State) (e : Engine) (m1 m2 m3 : Mode) (va vb : Word),
    s.engine? = some e → e.val m1 1 = .ok va → e.val m2 2 = .ok vb → Fits (e.pc.toInt + 3) →
    ∃ t e', exec (.jumpIfTrue m1 m2 m3) s = .next t ∧ t.engine? = some e' ∧ SameAround s t ∧ SameChannels s t ∧
      SameRun e e' ∧ e'.rb = e.rb ∧ SameMemory e e' ∧
      e'.pc.toInt = if va.toInt = 0 then e.pc.toInt + 3 else vb.toInt

/-- R161: jump-if-false, taken exactly where jump-if-true is not. -/
def Obligations.JumpIfFalseSetsPc : Prop :=
  ∀ (s : State) (e : Engine) (m1 m2 m3 : Mode) (va vb : Word),
    s.engine? = some e → e.val m1 1 = .ok va → e.val m2 2 = .ok vb → Fits (e.pc.toInt + 3) →
    ∃ t e', exec (.jumpIfFalse m1 m2 m3) s = .next t ∧ t.engine? = some e' ∧ SameAround s t ∧ SameChannels s t ∧
      SameRun e e' ∧ e'.rb = e.rb ∧ SameMemory e e' ∧
      e'.pc.toInt = if va.toInt = 0 then vb.toInt else e.pc.toInt + 3

/-- R180: adjust-relative-base completes where its operand resolves (with the old base) and the new base fits: the exact sum in
`rb`, `pc` 2 further, and nothing else changed. A negative new base is legal. -/
def Obligations.AdjustAddsToRelativeBase : Prop :=
  ∀ (s : State) (e : Engine) (m1 m2 m3 : Mode) (va : Word),
    s.engine? = some e → e.val m1 1 = .ok va → Fits (e.pc.toInt + 2) → Fits (e.rb.toInt + va.toInt) →
    ∃ t e', exec (.adjustRelativeBase m1 m2 m3) s = .next t ∧ t.engine? = some e' ∧ SameAround s t ∧ SameChannels s t ∧
      SameRun e e' ∧ SameMemory e e' ∧ e'.pc.toInt = e.pc.toInt + 2 ∧ e'.rb.toInt = e.rb.toInt + va.toInt

/-- R26, R180, R181: no other instruction changes the relative base. -/
def Obligations.OnlyAdjustWritesRelativeBase : Prop :=
  ∀ (i : Instr) (s t : State) (e e' : Engine), i.op ≠ .adjustRelativeBase → s.engine? = some e →
    exec i s = .next t → t.engine? = some e' → e'.rb = e.rb

/-- R190: halt always completes: status halted, grant none, `pc` and everything else of the engine unchanged (`pc` is decision
D12); no queue changes; the engine's two sides as DROP_POLICY says (R208, D19). -/
def Obligations.HaltStopsEngine : Prop :=
  ∀ (s : State) (e : Engine) (m1 m2 m3 : Mode), s.engine? = some e →
    ∃ t, exec (.halt m1 m2 m3) s = .next t ∧
      t.engine? = some { e with status := .halted, grant := .none } ∧ SameAround s t ∧ t.last = s.last ∧
      t.channels.length = s.channels.length ∧ SidesAfterEnd s t

/-! ### Input and output -/

/-- R150: input completes where its destination resolves and its queue holds a value: the head of the queue at the
destination, one value fewer in the queue, `pc` 2 further, and nothing else changed. -/
def Obligations.InputStoresHead : Prop :=
  ∀ (s : State) (e : Engine) (m1 m2 m3 : Mode) (dest v : Word) (ch : Channel) (rest : List Word),
    s.engine? = some e → e.mem.wf = true → e.addr m1 1 = .ok dest → Fits (e.pc.toInt + 2) →
    s.channels[s.active]? = some ch → ch.q = v :: rest →
    ∃ t e', exec (.input m1 m2 m3) s = .next t ∧ t.engine? = some e' ∧ SameAround s t ∧
      t.last = s.last ∧ t.channels = s.channels.set s.active { ch with q := rest } ∧
      SameRun e e' ∧ e'.rb = e.rb ∧ e'.pc.toInt = e.pc.toInt + 2 ∧
      e'.mem.read dest.toNat = v ∧ SameMemoryBut e e' dest.toNat

/-- R150, R206: where the destination resolves and the queue is empty with a live sender, an input holds: no state changes at
all. That a hold is answered as a next state equal to the state before, where R110 and R206 say that there is no step, is the
model's (DESIGN CHOICE, notes/assumptions/2.md). -/
def Obligations.InputHoldsWhileEmpty : Prop :=
  ∀ (s : State) (e : Engine) (m1 m2 m3 : Mode) (dest : Word) (ch : Channel),
    s.engine? = some e → e.addr m1 1 = .ok dest → Fits (e.pc.toInt + 2) →
    s.channels[s.active]? = some ch → ch.q = [] → ch.txLive = true →
    exec (.input m1 m2 m3) s = .next s

/-- R206, R10: a stage that holds is running, on an empty queue with a live sender, and has no enabled step. A value sent
lifts the hold, and the step of the stage, where it has a grant, takes that value and stores it; a drop of the send side lifts
it, and the step is BrokenChannel. Nothing else lifts it, the host's grant neither: after any other move, short of a fresh
composition, the stage still holds. That a held stage may have a turn, and that its turn is a next state with nothing changed
(nor `active`, where it has no grant), is the model's (DESIGN CHOICE, notes/assumptions/2.md). -/
def Obligations.HoldRule : Prop :=
  ∀ (s : State) (k : Nat) (e : Engine) (ch : Channel),
    s.holds k = true → s.engines[k]? = some e → s.channels[k]? = some ch →
    e.status = .running ∧ ch.q = [] ∧ ch.txLive = true ∧ s.enabled k = false ∧
    (∀ u, TurnOf s k u →
      (e.grant ≠ .none → step s = .next u) ∧ (e.grant = .none → step s = .next { u with active := s.active })) ∧
    (∀ (v : Word) (u : State), u = { s.setChannel k { ch with q := [v] } with agenda := [], active := k } →
      u.holds k = false ∧
      (e.grant ≠ .none → u.enabled k = true ∧
        ∃ (t : State) (e' : Engine) (m1 m2 m3 : Mode) (dest : Word),
          Fetches e (.input m1 m2 m3) ∧ e.addr m1 1 = .ok dest ∧ step u = .next t ∧
          t.channels[k]? = some { ch with q := [] } ∧ t.engine? = some e' ∧ e'.pc.toInt = e.pc.toInt + 2 ∧
          (e.mem.wf = true → e'.mem.read dest.toNat = v) ∧ SameMemoryBut e e' dest.toNat)) ∧
    (∀ u : State, u = { s.setChannel k { ch with txLive := false } with agenda := [], active := k } →
      u.holds k = false ∧
      (e.grant ≠ .none → u.enabled k = true ∧ ∃ t, step u = .next t ∧ TakesFatal u e .brokenChannel t)) ∧
    (∀ t, step s = .next t → KeepsComposition s →
      t.holds k = true ∨ ∃ ch', t.channels[k]? = some ch' ∧ (ch'.q ≠ [] ∨ ch'.txLive = false))

/-- R151, R126, R239: output completes where its operand resolves and the receive side is live: the value at the tail of the
output queue, `pc` 2 further, memory and `rb` unchanged; under `yield_after_output` the value is yielded and the grant
given back (D20); LAST is written by the last stage of a loop and by no other (D23). -/
def Obligations.OutputSendsValue : Prop :=
  ∀ (s : State) (e : Engine) (m1 m2 m3 : Mode) (v : Word) (ch : Channel),
    s.engine? = some e → e.val m1 1 = .ok v → Fits (e.pc.toInt + 2) →
    s.channels[s.outChannel]? = some ch → ch.rxLive = true →
    ∃ t e', exec (.output m1 m2 m3) s = .next t ∧ t.engine? = some e' ∧ SameAround s t ∧
      t.channels = s.channels.set s.outChannel { ch with q := ch.q ++ [v] } ∧
      t.last = (if s.config.topology = .feedbackLoop ∧ (s.active + 1) % s.config.nStages = 0 then some v else s.last) ∧
      e'.pc.toInt = e.pc.toInt + 2 ∧ e'.rb = e.rb ∧ SameMemory e e' ∧ e'.status = e.status ∧ e'.fault = e.fault ∧
      (e.grant = .yieldAfterOutput → e'.grant = .none ∧ e'.yielded = some v) ∧
      (e.grant ≠ .yieldAfterOutput → e'.grant = e.grant ∧ e'.yielded = e.yielded)

/-- R150, R151, R204, R205: where the operand resolves, an input on an empty queue whose sender is dropped and an output whose
receive side is dropped raise BrokenChannel; nothing is received or sent (D28, D29). -/
def Obligations.BrokenChannelIsFatal : Prop :=
  ∀ (s : State) (e : Engine) (m1 m2 m3 : Mode) (ch : Channel), s.engine? = some e → Fits (e.pc.toInt + 2) →
    (∀ dest : Word, e.addr m1 1 = .ok dest → s.channels[s.active]? = some ch → ch.q = [] → ch.txLive = false →
      ∃ t, exec (.input m1 m2 m3) s = .next t ∧ TakesFatal s e .brokenChannel t) ∧
    (∀ v : Word, e.val m1 1 = .ok v → s.channels[s.outChannel]? = some ch → ch.rxLive = false →
      ∃ t, exec (.output m1 m2 m3) s = .next t ∧ TakesFatal s e .brokenChannel t)

/-- R110 (D16): an instruction makes at most one channel transaction: every queue is as before, but that an input may have
taken one value from the head of its own queue and an output may have added one at the tail of its own. -/
def Obligations.QueuesMoveByOneValue : Prop :=
  ∀ (i : Instr) (s t : State), exec i s = .next t →
    t.channels.length = s.channels.length ∧
    ∀ (k : Nat) (ch ch' : Channel), s.channels[k]? = some ch → t.channels[k]? = some ch' →
      ch'.q = ch.q ∨ (i.op = .input ∧ k = s.inChannel ∧ ∃ v, ch.q = v :: ch'.q) ∨
        (i.op = .output ∧ k = s.outChannel ∧ ∃ v, ch'.q = ch.q ++ [v])

/-- R239 (D23): an instruction that changes LAST is an output of a stage of a loop that sends to the feedback link, and what
LAST then holds is the value it has put at the tail of that link. -/
def Obligations.LastIsWhatTheFeedbackLinkGot : Prop :=
  ∀ (i : Instr) (s t : State), exec i s = .next t → t.last ≠ s.last →
    i.op = .output ∧ s.config.topology = .feedbackLoop ∧ s.outChannel = 0 ∧
      ∃ v ch, t.last = some v ∧ s.channels[0]? = some ch ∧ t.channels[0]? = some { ch with q := ch.q ++ [v] }

/-- R207: over any sequence of transactions on a channel, what was in the queue and what was sent, in order, is what was
received and what is still in the queue, in order: no reordering, no duplication, no loss; and once the receive side is dropped
the queue is unobservable: nothing is received any more. -/
def Obligations.ChannelIsFifo : Prop :=
  ∀ (ch : Channel) (uses : List ChannelUse),
    (useChannel ch uses).2.1 ++ (useChannel ch uses).2.2.q = ch.q ++ (useChannel ch uses).1 ∧
    (ch.rxLive = false → (useChannel ch uses).2.1 = [])

/-! ### Exceptions -/

/-- R266 items 6 and 7, R262 (decisions D3, D7, D8): for every legal instruction but halt, the first cause met while its
parameters are resolved in order and the next pc is formed is the exception it takes. -/
def Obligations.OperandFaultsInOrder : Prop :=
  ∀ (i : Instr) (s : State) (e : Engine) (c : Cause), s.engine? = some e → i.wellFormed = true → i.op ≠ .halt →
    FirstRaise e (paramsOf i) 1 c → ∃ t, exec i s = .next t ∧ TakesFatal s e c t

/-- The model's own reading (DEDUCED, notes/assumptions/12.md) of R92 for terms that no word decodes to: exec of an instruction
whose write parameter is in immediate mode takes WriteToImmediate, before any operand is looked at. The rule on words is in
`DecodeErrorsByCause` and `FetchAndDecodeFaults`. -/
def Obligations.WriteToImmediateIsFatal : Prop :=
  ∀ (i : Instr) (s : State) (e : Engine), s.engine? = some e → i.wellFormed = false →
    ∃ t, exec i s = .next t ∧ TakesFatal s e .writeToImmediate t

/-- R111, R112 phases 1 and 2, R266 items 1 to 5 (D4 to D8, D10, D13): the turn of a running, granted engine whose `pc` is
negative takes NegativeAddress with no word recorded, and of one whose word is no instruction the decoder's cause. How a turn
comes is the model's (`TurnOf`, notes/assumptions/2.md). -/
def Obligations.FetchAndDecodeFaults : Prop :=
  ∀ (s u : State) (k : Nat) (e : Engine), TurnOf s k u → u.engine? = some e → e.status = .running → e.grant ≠ .none →
    (e.pc.toInt < 0 → ∃ t, step s = .next t ∧ TakesFatal u e .negativeAddress t) ∧
    (∀ d, 0 ≤ e.pc.toInt → decode (e.mem.read e.pc.toNat) = .error d →
      ∃ t, step s = .next t ∧
        TakesFatal u e
          (match d with
            | .unknownOpcode => .unknownOpcode
            | .unknownMode => .unknownMode
            | .writeToImmediate => .writeToImmediate) t)

/-- R270 (precision, R271, is decision D9): an instruction, and a turn of a stage, that leaves its engine fatal has done exactly
this: status fatal, the fault record of its cause, its `pc` and the word there (none where `pc` is negative), grant none; no
memory word, `pc`, `rb`, yielded value, queue or LAST has changed; the engine's two sides are as DROP_POLICY says. The engine
takes no further step: a later turn does nothing. How a turn comes is the model's (`TurnOf`, notes/assumptions/2.md). -/
def Obligations.FatalErrorsArePrecise : Prop :=
  (∀ (i : Instr) (s t : State) (e e' : Engine), s.engine? = some e → e.status ≠ .fatal → exec i s = .next t →
    t.engine? = some e' → e'.status = .fatal → ∃ c, TakesFatal s e c t) ∧
  (∀ (s u t : State) (k : Nat) (e e' : Engine), TurnOf s k u → u.engine? = some e → e.status ≠ .fatal →
    step s = .next t → t.engines[k]? = some e' → e'.status = .fatal →
    (∃ c, TakesFatal u e c t) ∧
    ∀ t' w : State, t'.engines = t.engines → TurnOf t' k w → step t' = .next { w with active := t'.active })

/-- R95, R270: no instruction stops the model. Whatever the instruction and the operands, where the stage and its two channels
exist exec answers a next state. -/
def Obligations.NoInstructionStopsTheModel : Prop :=
  ∀ (i : Instr) (s : State) (e : Engine), s.engine? = some e → Wired s → ∃ t, exec i s = .next t

/-! ### The step -/

/-- R110, R112, R119: a step runs the decoded instruction. The turn of a running, granted engine is exec of the instruction at its
`pc`, in the machine as the turn begins: with the turn taken off the agenda and the stage active, or, on an empty agenda, as it
was (`TurnOf`, the model's own: notes/assumptions/2.md). -/
def Obligations.StepRunsDecodedInstruction : Prop :=
  ∀ (s u : State) (k : Nat) (e : Engine) (i : Instr), TurnOf s k u → s.engines[k]? = some e → e.status = .running →
    e.grant ≠ .none → Fetches e i → step s = exec i u

/-- R28, R32, R110, R127: the turn of a stage that has terminated, has no grant or is not there changes nothing but the
agenda; the turn of one that has a grant and holds, nothing but the agenda and whose turn it is (both the model's own:
notes/assumptions/2.md). -/
def Obligations.DisabledStageTakesNoStep : Prop :=
  ∀ (s u : State) (k : Nat), TurnOf s k u →
    ((∀ e, s.engines[k]? = some e → e.status ≠ .running ∨ e.grant = .none) →
      step s = .next { u with active := s.active }) ∧
    (∀ e, s.engines[k]? = some e → e.grant ≠ .none → s.holds k = true → step s = .next u)

/-- R28: halted and fatal are sticky. Whatever moves next, short of the host's fresh composition, a terminated engine keeps
everything but what the host's next run transaction clears. -/
def Obligations.TerminatedEnginesStay : Prop :=
  ∀ (s t : State) (k : Nat) (e : Engine), step s = .next t → KeepsComposition s → s.engines[k]? = some e →
    e.status ≠ .running →
    ∃ e', t.engines[k]? = some e' ∧ e'.status = e.status ∧ e'.fault = e.fault ∧ e'.pc = e.pc ∧ e'.rb = e.rb ∧
      e'.mem = e.mem ∧ (e'.grant = e.grant) ∧ (e'.yielded = e.yielded ∨ e'.yielded = none)

/-- R65, R232, R274: a stage's turn, on an empty agenda or at the head of one, changes no other stage, no parameter and nothing of
the host's; of the channels it can change only the two the stage is bound to. -/
def Obligations.StagesAreIsolated : Prop :=
  ∀ (s u t : State) (k : Nat), TurnOf s k u → step s = .next t →
    t.config = s.config ∧ t.agenda = u.agenda ∧ t.received = s.received ∧ t.reply = s.reply ∧
      t.engines.length = s.engines.length ∧ (∀ j, j ≠ k → t.engines[j]? = s.engines[j]?) ∧
      t.channels.length = s.channels.length ∧
      (∀ j, j ≠ inChannelOf s.config k → j ≠ outChannelOf s.config k → t.channels[j]? = s.channels[j]?)

/-- R118: what the step of an engine does is a function of its `pc`, `rb`, memory and grant and, for input alone, of the head of
its input queue and the live bit of that queue's sender and, for output alone, of the live bit of its output's receiver. Two
running engines that agree on those, in two machines that may differ in all else, do the same: the same `pc`, `rb`, memory,
status and grant afterwards, fault record and yielded value set alike or left, as many values taken from the input queue, the
same values added to the output queue, and no other queue touched. How a turn comes is the model's (notes/assumptions/2.md). -/
def Obligations.StepDependsOnOwnState : Prop :=
  ∀ (s s' u u' : State) (k k' : Nat) (e e' : Engine),
    TurnOf s k u → TurnOf s' k' u' → u.engine? = some e → u'.engine? = some e' →
    e.status = .running → e'.status = .running → e.pc = e'.pc → e.rb = e'.rb → e.mem = e'.mem → e.grant = e'.grant →
    Wired u → Wired u' →
    (∀ m1 m2 m3, Fetches e (.input m1 m2 m3) → ∀ c c' : Channel, u.channels[u.inChannel]? = some c →
      u'.channels[u'.inChannel]? = some c' → c.q.head? = c'.q.head? ∧ c.txLive = c'.txLive) →
    (∀ m1 m2 m3, Fetches e (.output m1 m2 m3) → ∀ c c' : Channel, u.channels[u.outChannel]? = some c →
      u'.channels[u'.outChannel]? = some c' → c.rxLive = c'.rxLive) →
    ∃ (t t' : State) (f f' : Engine) (taken : Nat) (sent : List Word),
      step s = .next t ∧ step s' = .next t' ∧ t.engines[k]? = some f ∧ t'.engines[k']? = some f' ∧
      f.pc = f'.pc ∧ f.rb = f'.rb ∧ f.mem = f'.mem ∧ f.status = f'.status ∧ f.grant = f'.grant ∧
      (f.fault = f'.fault ∨ (f.fault = e.fault ∧ f'.fault = e'.fault)) ∧
      (f.yielded = f'.yielded ∨ (f.yielded = e.yielded ∧ f'.yielded = e'.yielded)) ∧
      QueuesMove u t taken sent ∧ QueuesMove u' t' taken sent

/-- R249, the whole rule: no move of another agent stops, pauses, resets or kills a running engine. Whatever moves, but the
engine's own turn and the host's abandoning of the whole composition (R244), a running engine keeps its status, `pc`, `rb`,
memory and fault record; and where it has a grant, which only the host's withholding could have kept from it, it keeps
everything. -/
def Obligations.RunningEnginesAreNotDisturbed : Prop :=
  ∀ (s t : State) (k : Nat) (e : Engine), s.engines[k]? = some e → e.status = .running → step s = .next t →
    (∀ u, ¬ TurnOf s k u) → KeepsComposition s →
    ∃ e', t.engines[k]? = some e' ∧ e'.status = .running ∧ e'.pc = e.pc ∧ e'.rb = e.rb ∧ e'.mem = e.mem ∧
      e'.fault = e.fault ∧ (e.grant ≠ .none → e' = e)

/-! ### Invariants -/

/-- The state after reset meets the invariants of `Safety`. R41, R300 and R302 give its engine and its channels; that it is one
engine with two channels, and its parameters, is notes/assumptions/3.md (DESIGN CHOICE), and the form of its memory
notes/assumptions/1.md (DESIGN CHOICE). -/
def Obligations.ResetMeetsInvariants : Prop := Inv State.reset ∧ DropsInv State.reset

/-- R41: what reset leaves. That the composition is one engine with two host-held channels, and its drop policy, are choices
of the model (notes/assumptions/3.md). -/
def Obligations.ResetState : Prop :=
  ∃ e c0 c1, State.reset.engines = [e] ∧ State.reset.channels = [c0, c1] ∧ State.reset.last = none ∧
    e.pc.toInt = 0 ∧ e.rb.toInt = 0 ∧ (∀ a, (e.mem.read a).toInt = 0) ∧ e.status = .running ∧ e.fault = none ∧
    e.grant = .none ∧ e.yielded = none ∧
    c0.q = [] ∧ c0.txLive = true ∧ c0.rxLive = true ∧ c1.q = [] ∧ c1.txLive = true ∧ c1.rxLive = true

/-- Every step, of whichever agent, keeps `Safety.Inv`. A fault record exactly when fatal is R31, no grant once terminated R190
and R270, nothing yielded under a grant R125 and R126, legal parameters R6 and R230. The canonical form of memory is the
model's (DESIGN CHOICE, notes/assumptions/1.md), and so is no grant in a composition not built and never more stages or
channels than the wiring has (DESIGN CHOICE, notes/assumptions/8.md); no LAST in a pipeline is notes/assumptions/11.md
(DEDUCED). -/
def Obligations.StepKeepsInvariant : Prop :=
  ∀ s t : State, Inv s → step s = .next t → Inv t

/-- R208 (D19): under every DROP_POLICY and every order of moves, a side of a channel held by an engine is dropped only after
that engine has terminated. -/
def Obligations.StepKeepsDropRule : Prop :=
  ∀ s t : State, Inv s → DropsInv s → step s = .next t → DropsInv t

/-- From a state that meets the invariant the machine never faults: what a step refuses is a transaction of the host. -/
def Obligations.InvariantStepNeverFaults : Prop :=
  ∀ s : State, Inv s → (∀ r, step s ≠ .fault r) ∧
    (∀ r, step s = .refused r → ∃ t rest, s.agenda = .host t :: rest)

/-- An ingredient of R251 (which the spec marks as derived and as a law to be proved, and which speaks of the values sent on each
channel over whole runs), for two steps: two stages whose steps are both enabled may step in either order and reach the same
machine, under a policy that drops nothing as an engine terminates. -/
def Obligations.EnabledStagesCommute : Prop :=
  ∀ (s : State) (i j : Nat), Inv s → DropsInv s → s.config.dropPolicy ≠ .onTerminate → i ≠ j →
    s.enabled i = true → s.enabled j = true →
    ∃ u v, core.run 2 { s with agenda := [.stage i, .stage j] } = .next u ∧
      core.run 2 { s with agenda := [.stage j, .stage i] } = .next v ∧
      { u with active := 0 } = { v with active := 0 }

/-- R250: where every running stage holds and some stage is running, no stage has an enabled step, and none has one after a
grant of the host to any of them (R206). Where moreover no duty of the host that would enable a step is outstanding (R245: the
seed of a pipeline; that a duty is outstanding where the agenda holds its move is the model's, DESIGN CHOICE,
notes/assumptions/15.md) this is a deadlock, and it stays one under the turns of stages and the grants of the host. That a
stage without an enabled step may have a turn, which is a next state with no engine, channel or LAST changed, is the model's
(DESIGN CHOICE, notes/assumptions/2.md). A pipeline whose seed is the next move is no deadlock: the seed lifts the hold of its
first stage, and enables it where it has a grant. -/
def Obligations.DeadlockIsStuck : Prop :=
  ∀ s : State, s.stalled = true →
    (∀ k, s.enabled k = false) ∧
    (∀ (k : Nat) (e : Engine), s.engines[k]? = some e → e.status = .running → s.holds k = true) ∧
    (∀ (k : Nat) (u : State), TurnOf s k u →
      ∃ t, step s = .next t ∧ t.engines = s.engines ∧ t.channels = s.channels ∧ t.last = s.last ∧ t.stalled = true ∧
        (s.deadlocked = true → t.deadlocked = true)) ∧
    (∀ (k : Nat) (r : Transaction) (rest : List Event) (t : State), (r = .runToHalt k ∨ r = .runUntilBlocked k) →
      s.agenda = .host r :: rest → step s = .next t →
      (∀ j, t.enabled j = false) ∧ t.stalled = true ∧ (s.deadlocked = true → t.deadlocked = true)) ∧
    (∀ (v : Word) (rest : List Event) (e : Engine) (ch : Channel), s.config.topology = .pipeline → s.holds 0 = true →
      s.engines[0]? = some e → s.channels[0]? = some ch → ch.rxLive = true → s.agenda = .host (.send 0 v) :: rest →
      s.deadlocked = false ∧ ∃ t, step s = .next t ∧ t.holds 0 = false ∧ (e.grant ≠ .none → t.enabled 0 = true))

/-- R241 (D23, D32): the result of a loop is LAST as it stands at the first state of the run in which the run is over, and no
later value of LAST. -/
def Obligations.LoopResultIsLastAtEnd : Prop :=
  ∀ (s t : State) (n fuel : Nat), n ≤ fuel → core.run n s = .next t → t.runOver = true →
    (∀ j u, j < n → core.run j s = .next u → u.runOver = false) → loopResultWithin fuel s = t.last

/-- R237, R241 (D32): when a run is over, and what follows. A pipeline's is over exactly when every stage has terminated, and
ended well when every stage is halted; a loop's exactly when stage HALT_STAGE is halted, its result then being LAST. That a
loop ended well if it is over and no stage is fatal is the model's choice (D30; notes/assumptions/14.md). A loop whose stage
HALT_STAGE is fatal has no result, now or after any number of moves short of a fresh composition. -/
def Obligations.RunOverRule : Prop :=
  ∀ s : State,
    (s.config.topology = .pipeline →
      (s.runOver = true ↔ s.engines.length = s.config.nStages ∧ s.channels.length = channelCount s.config ∧
        ∀ e ∈ s.engines, e.status ≠ .running) ∧
      (s.endedWell = true ↔ s.engines.length = s.config.nStages ∧ s.channels.length = channelCount s.config ∧
        ∀ e ∈ s.engines, e.status = .halted)) ∧
    (s.config.topology = .feedbackLoop →
      (s.runOver = true ↔ ∃ e, s.engines[s.config.haltStage]? = some e ∧ e.status = .halted) ∧
      (s.endedWell = true ↔ s.runOver = true ∧ ∀ e ∈ s.engines, e.status ≠ .fatal) ∧
      (s.runOver = true → s.loopResult = s.last ∧ ∀ fuel, loopResultWithin fuel s = s.last) ∧
      (∀ e, s.engines[s.config.haltStage]? = some e → e.status = .fatal →
        (∀ c, Event.host (.newComposition c) ∉ s.agenda) →
        s.loopResult = none ∧ ∀ n, loopResultWithin n s = none ∧ ∀ t, core.run n s = .next t → t.runOver = false))

/-- R237, R241, R28 (D32): once the run of a composition is over it stays over, whatever moves next short of a fresh composition;
a pipeline that has ended well stays so, and a loop does while no stage is fatal (what the other stages of a loop do after
its end is no part of its result, R241; for a loop "ended well" is the model's, notes/assumptions/14.md). -/
def Obligations.RunOverIsFinal : Prop :=
  ∀ s t : State, step s = .next t → KeepsComposition s →
    (s.runOver = true → t.runOver = true) ∧
    (s.config.topology = .pipeline → s.endedWell = true → t.endedWell = true) ∧
    (s.config.topology = .feedbackLoop → s.endedWell = true → (∀ e ∈ t.engines, e.status ≠ .fatal) →
      t.endedWell = true)

/-! ### The host -/

/-- R125, R126, R127 (D20, D21): a run transaction on an engine without a grant, in a composition that is built, gives the grant
of its contract and clears `yielded`; a terminated engine gets no grant. That a run of an engine that has a grant, or in a
composition not yet built (R303), is refused is the model's (DESIGN CHOICE, notes/assumptions/8.md). -/
def Obligations.RunTransactionsGrant : Prop :=
  ∀ (s : State) (k : Nat) (rest : List Event) (e : Engine) (r : Transaction) (g : Grant),
    ((r = .runToHalt k ∧ g = .toHalt) ∨ (r = .runUntilBlocked k ∧ g = .yieldAfterOutput)) →
    s.agenda = .host r :: rest → s.engines[k]? = some e →
    (s.built = true → e.grant = .none → e.status = .running →
      step s = .next { s with
        agenda := rest, reply := .done, engines := s.engines.set k { e with grant := g, yielded := none } }) ∧
    (s.built = true → e.grant = .none → e.status ≠ .running →
      step s = .next { s with
        agenda := rest, reply := .done, engines := s.engines.set k { e with yielded := none } }) ∧
    (e.grant ≠ .none → step s = .refused .transaction) ∧
    (s.engines.length < s.config.nStages ∨ s.channels.length < channelCount s.config →
      step s = .refused .transaction)

/-- R38, R300: load makes a fresh engine: `pc` 0, `rb` 0, running, no fault, no grant, nothing yielded (D25), memory the
program's integers from address 0 and zero everywhere else; a text outside the grammar creates no engine (D26). The model's own
are the form of the memory (notes/assumptions/1.md), a text of more than 2^63 integers, set aside here (notes/assumptions/6.md),
and that the engine is the next stage in wiring order and a load with every stage loaded is refused (notes/assumptions/8.md). -/
def Obligations.LoadMakesFreshEngine : Prop :=
  ∀ (s : State) (text : List Char) (rest : List Event), s.agenda = .host (.load text) :: rest →
    (s.engines.length < s.config.nStages →
      (∀ ws, parseProgram text = some ws → (ws.length : Int) ≤ wordMax + 1 →
        ∃ e, step s = .next { s with agenda := rest, reply := .done, engines := s.engines ++ [e] } ∧
          e.pc.toInt = 0 ∧ e.rb.toInt = 0 ∧ e.status = .running ∧ e.fault = none ∧ e.grant = .none ∧ e.yielded = none ∧
          e.mem.wf = true ∧ ∀ a, e.mem.read a = ws.getD a 0) ∧
      (parseProgram text = none → step s = .refused .programText)) ∧
    (s.config.nStages ≤ s.engines.length → step s = .refused .transaction)

/-- R101 (D26): the texts that load accepts, and the integers they stand for, are those of the grammar, each integer in the
word range. -/
def Obligations.ProgramTextGrammar : Prop :=
  ∀ (text : List Char) (ws : List Word), parseProgram text = some ws ↔ IsText text (ws.map fun w => w.toInt)

/-- R201, R240, R303 (D18, D24): building. A fresh composition keeps nothing of the old one; the next channel is empty with
both sides live, or holds the seed if it is the feedback link. That channels are made in wiring order, and that parameters that
are not legal (R6, R230), a seed elsewhere and a channel beyond the wiring are answered by a refusal, is the model's (DESIGN
CHOICE, notes/assumptions/8.md). -/
def Obligations.BuildingTransactions : Prop :=
  ∀ (s : State) (rest : List Event),
    (∀ c, s.agenda = .host (.newComposition c) :: rest → 1 ≤ c.nStages → c.haltStage < c.nStages →
      ∃ t, step s = .next t ∧ t.config = c ∧ t.engines = [] ∧ t.channels = [] ∧ t.last = none ∧ t.received = [] ∧
        t.agenda = rest) ∧
    (∀ c, s.agenda = .host (.newComposition c) :: rest → c.nStages = 0 ∨ c.nStages ≤ c.haltStage →
      step s = .refused .transaction) ∧
    (s.agenda = .host (.makeChannel none) :: rest → s.channels.length < channelCount s.config →
      step s = .next { s with
        agenda := rest, reply := .done, channels := s.channels ++ [{ q := [], txLive := true, rxLive := true }] }) ∧
    (∀ v, s.agenda = .host (.makeChannel (some v)) :: rest → s.config.topology = .feedbackLoop → s.channels = [] →
      s.config.wf →
      step s = .next { s with
        agenda := rest, reply := .done, channels := [{ q := [v], txLive := true, rxLive := true }] }) ∧
    (∀ v, s.agenda = .host (.makeChannel (some v)) :: rest →
      (s.config.topology = .pipeline ∨ s.channels ≠ []) → step s = .refused .transaction) ∧
    (∀ seed, s.agenda = .host (.makeChannel seed) :: rest → channelCount s.config ≤ s.channels.length →
      step s = .refused .transaction)

/-- R204, R205, R206, R236: the host's Send on `c[0]` of a pipeline adds its value at the tail, its Recv on `c[n]` takes the head,
and holds while the queue is empty with a live sender; neither changes an engine. The model's own are: the list `received` that
a received value is added to, and the reply (DESIGN CHOICE, notes/assumptions/4.md); that a Recv that holds is a next state,
taken off the agenda (DESIGN CHOICE, notes/assumptions/2.md); what the host sees of a broken channel (DESIGN CHOICE,
notes/assumptions/5.md), where that the channel is unchanged is R204; and, of a side the host has itself dropped, that a Send
still appends and that a Recv is refused, the queue being unobservable by R207 (DESIGN CHOICE, notes/assumptions/13.md). -/
def Obligations.HostSeedsAndDrainsPipeline : Prop :=
  ∀ (s : State) (rest : List Event) (ch : Channel), s.config.topology = .pipeline →
    (∀ v, s.agenda = .host (.send 0 v) :: rest → s.channels[0]? = some ch →
      (ch.rxLive = true → step s = .next { s with
        agenda := rest, reply := .done, channels := s.channels.set 0 { ch with q := ch.q ++ [v] } }) ∧
      (ch.rxLive = false → step s = .next { s with agenda := rest, reply := .brokenChannel })) ∧
    (s.agenda = .host (.recv s.config.nStages) :: rest → s.channels[s.config.nStages]? = some ch →
      (ch.rxLive = true →
        (∀ v q, ch.q = v :: q → step s = .next { s with
          agenda := rest, reply := .value v, received := s.received ++ [v]
          channels := s.channels.set s.config.nStages { ch with q := q } }) ∧
        (ch.q = [] → ch.txLive = true → step s = .next { s with agenda := rest }) ∧
        (ch.q = [] → ch.txLive = false → step s = .next { s with agenda := rest, reply := .brokenChannel })) ∧
      (ch.rxLive = false → step s = .refused .transaction))

/-- R235 (the line), R239 (the loop, D23), R202, R233 (one holder, one sender and one receiver each): the channels of a
composition and who holds their sides. Each stage receives from one channel and sends to one, both are there, no two stages
send to one, and the host holds the two ends of a line and nothing of a loop (R236, R240: decision D24). -/
def Obligations.WiringIsOneToOne : Prop :=
  ∀ c : Config, c.wf →
    (c.topology = .pipeline → channelCount c = c.nStages + 1 ∧
      (∀ i, i < c.nStages → inChannelOf c i = i ∧ outChannelOf c i = i + 1) ∧
      holderOf c 0 .send = .host ∧ holderOf c c.nStages .receive = .host) ∧
    (c.topology = .feedbackLoop → channelCount c = c.nStages ∧
      (∀ i, i < c.nStages → inChannelOf c i = i ∧ outChannelOf c i = if i + 1 = c.nStages then 0 else i + 1) ∧
      ∀ ch side, ch < c.nStages → holderOf c ch side ≠ .host) ∧
    (∀ i, i < c.nStages → inChannelOf c i < channelCount c ∧ outChannelOf c i < channelCount c ∧
      holderOf c (inChannelOf c i) .receive = .stage i ∧ holderOf c (outChannelOf c i) .send = .stage i) ∧
    (∀ i j, i < c.nStages → j < c.nStages → outChannelOf c i = outChannelOf c j → i = j)

/-- R202: only the holder of a side may use or drop it. A Send, Recv or Drop by the host on a side that a stage holds does not
happen (but for the drop that `host_only` gives the host, on behalf of a terminated stage: R208, D19); that the machine answers
it with a refusal is the model's (DESIGN CHOICE, notes/assumptions/8.md). -/
def Obligations.HostUsesOnlyItsOwnSides : Prop :=
  ∀ (s : State) (ch k : Nat) (rest : List Event),
    (∀ v, holderOf s.config ch .send = .stage k → s.agenda = .host (.send ch v) :: rest →
      step s = .refused .transaction) ∧
    (holderOf s.config ch .receive = .stage k → s.agenda = .host (.recv ch) :: rest →
      step s = .refused .transaction) ∧
    (∀ side, holderOf s.config ch side = .stage k → s.agenda = .host (.drop ch side) :: rest →
      (s.config.dropPolicy ≠ .hostOnly ∨ s.terminatedStage k = false) → step s = .refused .transaction)

/-- R208, R209 (D19): a drop clears the live bit of its side and changes no queue and no engine. The host's drop is of a side it
holds, under every policy, and under `host_only` of a side of a terminated stage, on its behalf; the interconnect's, under `free`,
is of a side whose holder is a stage that has terminated, and of no other: of none that a running stage or the host holds. That
a drop step that is not enabled is a next state, taken off the agenda, is the model's (DESIGN CHOICE, notes/assumptions/2.md). -/
def Obligations.DropsChangeOnlyTheirSide : Prop :=
  ∀ (s : State) (n k : Nat) (side : Side) (rest : List Event) (ch : Channel), s.channels[n]? = some ch →
    (s.agenda = .host (.drop n side) :: rest →
      (holderOf s.config n side = .host →
        step s = .next { s with agenda := rest, reply := .done, channels := s.channels.set n (ch.drop side) }) ∧
      (holderOf s.config n side = .stage k → s.config.dropPolicy = .hostOnly → s.terminatedStage k = true →
        step s = .next { s with agenda := rest, reply := .done, channels := s.channels.set n (ch.drop side) })) ∧
    (s.agenda = .interconnectDrop n side :: rest →
      (holderOf s.config n side = .host → step s = .next { s with agenda := rest }) ∧
      (holderOf s.config n side = .stage k →
        (s.config.dropPolicy = .free → s.terminatedStage k = true →
          step s = .next { s with agenda := rest, channels := s.channels.set n (ch.drop side) }) ∧
        (s.config.dropPolicy ≠ .free ∨ s.terminatedStage k = false → step s = .next { s with agenda := rest }))) ∧
    ((ch.drop .send).txLive = false ∧ (ch.drop .send).rxLive = ch.rxLive ∧ (ch.drop .receive).rxLive = false ∧
      (ch.drop .receive).txLive = ch.txLive ∧ (ch.drop side).q = ch.q)

/-- The model's own placing of a word (notes/assumptions/7.md), no rule of the spec: the word placed is what the next step
fetches, and the step runs the instruction the decoder reads from it. -/
def Obligations.PlacedWordRunsNext : Prop :=
  ∀ (nbits w : Nat) (i : Instr), decodeTableWord nbits w = some i →
    step (State.reset.withFetchWord nbits w) = exec i (State.reset.withFetchWord nbits w)
end

