-- ==== Sys2Proof/Laws/State.lean ====
section
/-! SUPPORT. One lemma per field per update of the state, so that no later proof unfolds a record update. -/

namespace Sys2Proof.Laws

open Sys2Proof.Machine

section SetEngine
variable (s : State) (e : Engine)
@[simp] theorem setEngine_config : (s.setEngine e).config = s.config := rfl
@[simp] theorem setEngine_engines : (s.setEngine e).engines = s.engines.set s.active e := rfl
@[simp] theorem setEngine_channels : (s.setEngine e).channels = s.channels := rfl
@[simp] theorem setEngine_last : (s.setEngine e).last = s.last := rfl
@[simp] theorem setEngine_active : (s.setEngine e).active = s.active := rfl
@[simp] theorem setEngine_agenda : (s.setEngine e).agenda = s.agenda := rfl
@[simp] theorem setEngine_received : (s.setEngine e).received = s.received := rfl
@[simp] theorem setEngine_reply : (s.setEngine e).reply = s.reply := rfl
@[simp] theorem setEngine_inChannel : (s.setEngine e).inChannel = s.inChannel := rfl
@[simp] theorem setEngine_outChannel : (s.setEngine e).outChannel = s.outChannel := rfl
end SetEngine

section SetChannel
variable (s : State) (k : Nat) (ch : Channel)
@[simp] theorem setChannel_config : (s.setChannel k ch).config = s.config := rfl
@[simp] theorem setChannel_engines : (s.setChannel k ch).engines = s.engines := rfl
@[simp] theorem setChannel_channels : (s.setChannel k ch).channels = s.channels.set k ch := rfl
@[simp] theorem setChannel_last : (s.setChannel k ch).last = s.last := rfl
@[simp] theorem setChannel_active : (s.setChannel k ch).active = s.active := rfl
@[simp] theorem setChannel_agenda : (s.setChannel k ch).agenda = s.agenda := rfl
@[simp] theorem setChannel_received : (s.setChannel k ch).received = s.received := rfl
@[simp] theorem setChannel_reply : (s.setChannel k ch).reply = s.reply := rfl
@[simp] theorem setChannel_inChannel : (s.setChannel k ch).inChannel = s.inChannel := rfl
@[simp] theorem setChannel_outChannel : (s.setChannel k ch).outChannel = s.outChannel := rfl
@[simp] theorem setChannel_engine : (s.setChannel k ch).engine? = s.engine? := rfl
end SetChannel

section DropSide
variable (s : State) (k : Nat) (side : Side)
@[simp] theorem dropSide_config : (s.dropSide k side).config = s.config := by unfold State.dropSide; split <;> rfl
@[simp] theorem dropSide_engines : (s.dropSide k side).engines = s.engines := by unfold State.dropSide; split <;> rfl
@[simp] theorem dropSide_last : (s.dropSide k side).last = s.last := by unfold State.dropSide; split <;> rfl
@[simp] theorem dropSide_active : (s.dropSide k side).active = s.active := by unfold State.dropSide; split <;> rfl
@[simp] theorem dropSide_agenda : (s.dropSide k side).agenda = s.agenda := by unfold State.dropSide; split <;> rfl
@[simp] theorem dropSide_received : (s.dropSide k side).received = s.received := by
  unfold State.dropSide; split <;> rfl
@[simp] theorem dropSide_reply : (s.dropSide k side).reply = s.reply := by unfold State.dropSide; split <;> rfl
@[simp] theorem dropSide_inChannel : (s.dropSide k side).inChannel = s.inChannel := by
  simp [State.inChannel]
@[simp] theorem dropSide_outChannel : (s.dropSide k side).outChannel = s.outChannel := by
  simp [State.outChannel]
@[simp] theorem dropSide_length : (s.dropSide k side).channels.length = s.channels.length := by
  unfold State.dropSide; split <;> simp
/-- What a drop does to each channel: the named side of channel `k`, nothing else. -/
theorem dropSide_channel (j : Nat) :
    (s.dropSide k side).channels[j]? = (s.channels[j]?).map fun ch => if j = k then ch.drop side else ch := by
  unfold State.dropSide
  split
  · rename_i ch h
    by_cases hj : j = k
    · subst hj
      obtain ⟨hl, rfl⟩ := List.getElem?_eq_some_iff.mp h
      simp [hl]
    · simp [Ne.symm hj, hj]
  · rename_i h
    by_cases hj : j = k
    · subst hj; simp [h]
    · simp [hj]
end DropSide

section Terminated
variable (s : State)
@[simp] theorem terminated_config : s.terminated.config = s.config := by unfold State.terminated; split <;> simp
@[simp] theorem terminated_engines : s.terminated.engines = s.engines := by unfold State.terminated; split <;> simp
@[simp] theorem terminated_last : s.terminated.last = s.last := by unfold State.terminated; split <;> simp
@[simp] theorem terminated_active : s.terminated.active = s.active := by unfold State.terminated; split <;> simp
@[simp] theorem terminated_agenda : s.terminated.agenda = s.agenda := by unfold State.terminated; split <;> simp
@[simp] theorem terminated_received : s.terminated.received = s.received := by unfold State.terminated; split <;> simp
@[simp] theorem terminated_reply : s.terminated.reply = s.reply := by unfold State.terminated; split <;> simp
@[simp] theorem terminated_engine : s.terminated.engine? = s.engine? := by simp [State.engine?]
@[simp] theorem terminated_inChannel : s.terminated.inChannel = s.inChannel := by simp [State.inChannel]
@[simp] theorem terminated_outChannel : s.terminated.outChannel = s.outChannel := by simp [State.outChannel]
@[simp] theorem terminated_length : s.terminated.channels.length = s.channels.length := by
  unfold State.terminated; split <;> simp
theorem terminated_id (h : s.config.dropPolicy ≠ .onTerminate) : s.terminated = s := by
  unfold State.terminated; split <;> simp_all
/-- What the end of an engine does to each channel (R208). -/
theorem terminated_channel (j : Nat) :
    s.terminated.channels[j]? = (s.channels[j]?).map fun ch =>
      { q := ch.q
        txLive := ch.txLive && !(decide (s.config.dropPolicy = .onTerminate) && decide (j = s.outChannel))
        rxLive := ch.rxLive && !(decide (s.config.dropPolicy = .onTerminate) && decide (j = s.inChannel)) } := by
  by_cases h : s.config.dropPolicy = .onTerminate
  · have : s.terminated = (s.dropSide s.inChannel .receive).dropSide s.outChannel .send := by
      simp [State.terminated, h]
    rw [this, dropSide_channel, dropSide_channel]
    cases s.channels[j]? with
    | none => rfl
    | some ch =>
      by_cases h1 : j = s.inChannel <;> by_cases h2 : j = s.outChannel <;> simp_all [Channel.drop]
  · rw [terminated_id s h]
    cases s.channels[j]? with
    | none => rfl
    | some ch => simp [h]
end Terminated

section Engines
variable (e : Engine)
@[simp] theorem fatal_pc (c : Cause) : (e.fatal c).pc = e.pc := rfl
@[simp] theorem fatal_rb (c : Cause) : (e.fatal c).rb = e.rb := rfl
@[simp] theorem fatal_mem (c : Cause) : (e.fatal c).mem = e.mem := rfl
@[simp] theorem fatal_status (c : Cause) : (e.fatal c).status = .fatal := rfl
@[simp] theorem fatal_fault (c : Cause) : (e.fatal c).fault = some ⟨c, e.pc, e.fetched⟩ := rfl
@[simp] theorem fatal_grant (c : Cause) : (e.fatal c).grant = .none := rfl
@[simp] theorem fatal_yielded (c : Cause) : (e.fatal c).yielded = e.yielded := rfl
@[simp] theorem store_pc (d v : Word) : (e.store d v).pc = e.pc := rfl
@[simp] theorem store_rb (d v : Word) : (e.store d v).rb = e.rb := rfl
@[simp] theorem store_mem (d v : Word) : (e.store d v).mem = e.mem.write d.toNat v := rfl
@[simp] theorem store_status (d v : Word) : (e.store d v).status = e.status := rfl
@[simp] theorem store_fault (d v : Word) : (e.store d v).fault = e.fault := rfl
@[simp] theorem store_grant (d v : Word) : (e.store d v).grant = e.grant := rfl
@[simp] theorem store_yielded (d v : Word) : (e.store d v).yielded = e.yielded := rfl
@[simp] theorem afterOutput_pc (v : Word) : (e.afterOutput v).pc = e.pc := by unfold Engine.afterOutput; split <;> rfl
@[simp] theorem afterOutput_rb (v : Word) : (e.afterOutput v).rb = e.rb := by unfold Engine.afterOutput; split <;> rfl
@[simp] theorem afterOutput_mem (v : Word) : (e.afterOutput v).mem = e.mem := by unfold Engine.afterOutput; split <;> rfl
@[simp] theorem afterOutput_status (v : Word) : (e.afterOutput v).status = e.status := by
  unfold Engine.afterOutput; split <;> rfl
@[simp] theorem afterOutput_fault (v : Word) : (e.afterOutput v).fault = e.fault := by
  unfold Engine.afterOutput; split <;> rfl
@[simp] theorem granted_status (g : Grant) : (e.granted g).status = e.status := by
  unfold Engine.granted; split <;> rfl
@[simp] theorem granted_pc (g : Grant) : (e.granted g).pc = e.pc := by unfold Engine.granted; split <;> rfl
@[simp] theorem granted_rb (g : Grant) : (e.granted g).rb = e.rb := by unfold Engine.granted; split <;> rfl
@[simp] theorem granted_mem (g : Grant) : (e.granted g).mem = e.mem := by unfold Engine.granted; split <;> rfl
theorem afterOutput_yield (v : Word) (h : e.grant = .yieldAfterOutput) :
    (e.afterOutput v).grant = .none ∧ (e.afterOutput v).yielded = some v := by simp [Engine.afterOutput, h]
theorem afterOutput_stay (v : Word) (h : e.grant ≠ .yieldAfterOutput) : e.afterOutput v = e := by
  unfold Engine.afterOutput; split <;> simp_all
end Engines

section EngineOf
variable (s : State) (e : Engine)
/-- An engine written back is the one read next. -/
theorem setEngine_engine (h : s.active < s.engines.length) : (s.setEngine e).engine? = some e := by
  simp [State.engine?, h]
theorem engine_lt {s : State} {e : Engine} (h : s.engine? = some e) : s.active < s.engines.length :=
  (List.getElem?_eq_some_iff.mp h).1
theorem setEngine_other {k : Nat} (h : k ≠ s.active) : (s.setEngine e).engines[k]? = s.engines[k]? := by
  simp [Ne.symm h]
end EngineOf

end Sys2Proof.Laws
end

