-- ==== Sys2Proof/Laws/Ops.lean ====
section
/-! SUPPORT. What each shared operation can do, once each: words and chk64, memory, channels, the shape of a step. -/

namespace Sys2Proof.Laws

open Sys2Proof.Machine Sys2Proof.Safety

/-! ### Words -/

theorem toInt_fits (w : Word) : Fits w.toInt := by
  have h1 := BitVec.toInt_lt (x := w)
  have h2 := BitVec.le_toInt (x := w)
  simp only [Fits, wordMin, wordMax]
  omega

theorem wordOf_toInt {n : Int} (h : Fits n) : (wordOf n).toInt = n := by
  simp only [Fits, wordMin, wordMax] at h
  rw [wordOf, BitVec.toInt_ofInt, Int.bmod_eq_of_le] <;> omega

theorem wordOf_eq_iff {n : Int} (h : Fits n) (w : Word) : wordOf n = w ↔ w.toInt = n := by
  constructor
  · rintro rfl; exact wordOf_toInt h
  · rintro rfl; exact BitVec.eq_of_toInt_eq (wordOf_toInt h)

theorem toNat_of_nonneg {w : Word} (h : 0 ≤ w.toInt) : w.toNat = w.toInt.toNat := by
  have := w.isLt
  rw [BitVec.toInt_eq_toNat_cond] at h ⊢
  split at h
  · simp_all
  · omega

theorem chk64_ok_iff {n : Int} {w : Word} : chk64 n = .ok w ↔ w.toInt = n := by
  unfold chk64
  split
  · rename_i h
    rw [Except.ok.injEq, wordOf_eq_iff h]
  · rename_i h
    constructor
    · intro h'; cases h'
    · rintro rfl; exact absurd (toInt_fits w) h

theorem chk64_error_iff {n : Int} {c : Cause} : chk64 n = .error c ↔ ¬ Fits n ∧ c = .arithmeticOverflow := by
  unfold chk64
  split <;> simp_all [eq_comm]

theorem chk64_fits {n : Int} (h : Fits n) : chk64 n = .ok (wordOf n) := by simp [chk64, h]

/-! ### Memory -/

@[simp] theorem read_nil (a : Nat) : Memory.read [] a = 0 := rfl

theorem read_cons (b : Nat) (w : Word) (m : Memory) (a : Nat) :
    Memory.read ((b, w) :: m) a = if a = b then w else m.read a := rfl

theorem wfFrom_mono {m : Memory} {lo lo' : Nat} (hl : lo' ≤ lo) (h : Memory.wfFrom lo m = true) :
    Memory.wfFrom lo' m = true := by
  cases m with
  | nil => rfl
  | cons p rest =>
    simp only [Memory.wfFrom, Bool.and_eq_true, decide_eq_true_eq] at h ⊢
    exact ⟨⟨⟨by omega, h.1.1.2⟩, h.1.2⟩, h.2⟩

theorem wfFrom_cons {lo a : Nat} {v : Word} {m : Memory} :
    Memory.wfFrom lo ((a, v) :: m) = true ↔
      lo ≤ a ∧ (a : Int) ≤ wordMax ∧ v ≠ 0 ∧ Memory.wfFrom (a + 1) m = true := by
  simp only [Memory.wfFrom, Bool.and_eq_true, decide_eq_true_eq, and_assoc]
  exact Iff.rfl

/-- Below its least address a canonical memory reads as zero. -/
theorem read_below {m : Memory} {lo a : Nat} (h : Memory.wfFrom lo m = true) (ha : a < lo) : m.read a = 0 := by
  induction m generalizing lo with
  | nil => rfl
  | cons p rest ih =>
    obtain ⟨b, w⟩ := p
    rw [wfFrom_cons] at h
    rw [read_cons, if_neg (by omega)]
    exact ih h.2.2.2 (by omega)

/-- A write leaves every other address alone, whatever the form of the memory. -/
theorem read_write_other {m : Memory} {a b : Nat} {v : Word} (h : a ≠ b) : (m.write b v).read a = m.read a := by
  induction m with
  | nil =>
    unfold Memory.write
    split <;> simp [read_cons, h]
  | cons p rest ih =>
    obtain ⟨c, w⟩ := p
    unfold Memory.write
    split_ifs <;> simp_all [read_cons]

/-- A canonical memory reads, at the address written, the word written. -/
theorem read_write_same_from {m : Memory} {lo a : Nat} {v : Word} (h : Memory.wfFrom lo m = true) :
    (m.write a v).read a = v := by
  induction m generalizing lo with
  | nil =>
    unfold Memory.write
    split <;> simp_all [read_cons, Memory.unlisted]
  | cons p rest ih =>
    obtain ⟨c, w⟩ := p
    rw [wfFrom_cons] at h
    unfold Memory.write
    split_ifs with h1 h2 h3 h4
    · have := read_below (a := a) h.2.2.2 (by omega)
      rw [read_cons, if_neg (by omega), this]; exact h2.symm
    · simp [read_cons]
    · subst h3; rw [read_below h.2.2.2 (by omega)]; exact h4.symm
    · simp [read_cons]
    · rw [read_cons, if_neg h3]; exact ih h.2.2.2

theorem read_write_same {m : Memory} {a : Nat} {v : Word} (h : m.wf = true) : (m.write a v).read a = v :=
  read_write_same_from h

theorem write_wfFrom {m : Memory} {lo a : Nat} {v : Word} (h : Memory.wfFrom lo m = true) (hlo : lo ≤ a)
    (ha : (a : Int) ≤ wordMax) : Memory.wfFrom lo (m.write a v) = true := by
  induction m generalizing lo with
  | nil =>
    unfold Memory.write
    split
    · rfl
    · rw [wfFrom_cons]; exact ⟨hlo, ha, by assumption, rfl⟩
  | cons p rest ih =>
    obtain ⟨c, w⟩ := p
    have h0 := h
    rw [wfFrom_cons] at h
    unfold Memory.write
    split_ifs with h1 h2 h3 h4
    · exact h0
    · rw [wfFrom_cons]
      exact ⟨hlo, ha, h2, by rw [wfFrom_cons]; exact ⟨by omega, h.2.1, h.2.2⟩⟩
    · exact wfFrom_mono (by omega) h.2.2.2
    · rw [wfFrom_cons]; subst h3; exact ⟨hlo, ha, h4, h.2.2.2⟩
    · rw [wfFrom_cons]; exact ⟨h.1, h.2.1, h.2.2.1, ih h.2.2.2 (by omega)⟩

/-- A write at a valid address keeps the canonical form. -/
theorem write_wf {m : Memory} {a : Nat} {v : Word} (h : m.wf = true) (ha : (a : Int) ≤ wordMax) :
    (m.write a v).wf = true := write_wfFrom h (Nat.zero_le _) ha

/-- The store of a commit keeps the canonical form. -/
theorem write_word_wf {m : Memory} {d v : Word} (h : m.wf = true) (hd : 0 ≤ d.toInt) : (m.write d.toNat v).wf = true := by
  apply write_wf h
  have := toInt_fits d
  rw [toNat_of_nonneg hd]
  omega

theorem ofWords_wfFrom (a : Nat) (ws : List Word) (h : ((a + ws.length : Nat) : Int) ≤ wordMax + 1) :
    Memory.wfFrom a (Memory.ofWords a ws) = true := by
  induction ws generalizing a with
  | nil => rfl
  | cons w ws ih =>
    simp only [List.length_cons] at h
    have := ih (a + 1) (by omega)
    unfold Memory.ofWords
    split
    · exact wfFrom_mono (by omega) this
    · rw [wfFrom_cons]; exact ⟨le_refl _, by omega, by assumption, this⟩

/-- A loaded memory is canonical. -/
theorem ofWords_wf (ws : List Word) (h : (ws.length : Int) ≤ wordMax + 1) : (Memory.ofWords 0 ws).wf = true :=
  ofWords_wfFrom 0 ws (by simpa using h)

theorem ofWords_read_below (a b : Nat) (ws : List Word) (h : b < a) : (Memory.ofWords a ws).read b = 0 := by
  induction ws generalizing a with
  | nil => rfl
  | cons w ws ih =>
    unfold Memory.ofWords
    split
    · exact ih (a + 1) (by omega)
    · rw [read_cons, if_neg (by omega)]; exact ih (a + 1) (by omega)

/-- A loaded memory reads as the program and as zero elsewhere (R38). -/
theorem ofWords_read (a i : Nat) (ws : List Word) : (Memory.ofWords a ws).read (a + i) = ws.getD i 0 := by
  induction ws generalizing a i with
  | nil => rfl
  | cons w ws ih =>
    cases i with
    | zero =>
      unfold Memory.ofWords
      split
      · rename_i h; rw [h]; exact ofWords_read_below (a + 1) a ws (by omega)
      · simp [read_cons]
    | succ i =>
      have := ih (a + 1) i
      rw [Nat.add_assoc, Nat.add_comm 1 i] at this
      unfold Memory.ofWords
      split
      · simpa using this
      · rw [read_cons, if_neg (by omega)]; simpa using this

theorem writeWords_wf {m : Memory} (a : Nat) (ws : List Word) (h : m.wf = true)
    (ha : ((a + ws.length : Nat) : Int) ≤ wordMax + 1) : (m.writeWords a ws).wf = true := by
  induction ws generalizing a m with
  | nil => exact h
  | cons w ws ih =>
    simp only [List.length_cons] at ha
    exact ih (a + 1) (write_wf h (by omega)) (by omega)

theorem memRead_ok_iff {m : Memory} {a v : Word} :
    memRead m a = .ok v ↔ 0 ≤ a.toInt ∧ m.read a.toInt.toNat = v := by
  unfold memRead
  split
  · simp; omega
  · rename_i h
    rw [toNat_of_nonneg (by omega)]
    simp; omega

theorem memRead_error_iff {m : Memory} {a : Word} {c : Cause} :
    memRead m a = .error c ↔ a.toInt < 0 ∧ c = .negativeAddress := by
  unfold memRead
  split <;> simp_all [eq_comm]

/-! ### Channels -/

/-- Everything a Recv can find (R205). -/
theorem recv_cases (ch : Channel) :
    (∃ v rest, ch.q = v :: rest ∧ ch.recv = .got v { ch with q := rest }) ∨
      (ch.q = [] ∧ ch.txLive = true ∧ ch.recv = .hold) ∨ (ch.q = [] ∧ ch.txLive = false ∧ ch.recv = .broken) := by
  unfold Channel.recv
  cases h : ch.q with
  | nil => cases ht : ch.txLive <;> simp
  | cons v rest => simp

theorem recv_got_iff {ch ch' : Channel} {v : Word} :
    ch.recv = .got v ch' ↔ ∃ rest, ch.q = v :: rest ∧ ch' = { ch with q := rest } := by
  obtain ⟨w, rest, hq, hr⟩ | ⟨hq, _, hr⟩ | ⟨hq, _, hr⟩ := recv_cases ch <;> rw [hr] <;> simp [hq]
  exact fun _ => eq_comm

/-- Everything a Send can do (R204). -/
theorem send_some_iff {ch ch' : Channel} {v : Word} :
    ch.send v = some ch' ↔ ch.rxLive = true ∧ ch' = { ch with q := ch.q ++ [v] } := by
  unfold Channel.send
  split
  · simp_all only [Option.some.injEq, true_and]; exact eq_comm
  · simp_all

theorem send_none_iff {ch : Channel} {v : Word} : ch.send v = none ↔ ch.rxLive = false := by
  unfold Channel.send
  split <;> simp_all

/-! ### The shape of a step -/

theorem withEngine_some {s : State} {e : Engine} (h : s.engine? = some e) (k : Engine → Result) :
    s.withEngine k = k e := by simp [State.withEngine, h]

theorem withEngine_next {s t : State} {k : Engine → Result} (h : s.withEngine k = .next t) :
    ∃ e, s.engine? = some e ∧ k e = .next t := by
  unfold State.withEngine at h
  split at h
  · exact ⟨_, by assumption, h⟩
  · cases h

theorem withChannel_some {s : State} {n : Nat} {ch : Channel} (h : s.channels[n]? = some ch) (k : Channel → Result) :
    s.withChannel n k = k ch := by simp [State.withChannel, h]

theorem withChannel_next {s t : State} {n : Nat} {k : Channel → Result} (h : s.withChannel n k = .next t) :
    ∃ ch, s.channels[n]? = some ch ∧ k ch = .next t := by
  unfold State.withChannel at h
  split at h
  · exact ⟨_, by assumption, h⟩
  · cases h

theorem attempt_ok {α : Type} {s : State} {e : Engine} {r : Except Cause α} {a : α} (h : r = .ok a) (k : α → Result) :
    s.attempt e r k = k a := by simp [State.attempt, h]

theorem attempt_error {α : Type} {s : State} {e : Engine} {r : Except Cause α} {c : Cause} (h : r = .error c)
    (k : α → Result) : s.attempt e r k = .next (s.raise e c) := by simp [State.attempt, h]

theorem attempt_next {α : Type} {s t : State} {e : Engine} {r : Except Cause α} {k : α → Result}
    (h : s.attempt e r k = .next t) : (∃ c, r = .error c ∧ t = s.raise e c) ∨ ∃ a, r = .ok a ∧ k a = .next t := by
  cases r with
  | ok a => exact .inr ⟨a, rfl, h⟩
  | error c => cases h; exact .inl ⟨c, rfl, rfl⟩

/-- An engine written back changes nothing around it. -/
theorem sameAround_setEngine (s : State) (e : Engine) : SameAround s (s.setEngine e) :=
  ⟨rfl, rfl, rfl, rfl, rfl, by simp, fun _ hk => setEngine_other s e hk⟩

/-- What terminating the active engine does to the channels is what R208 says. -/
theorem terminated_sides (s : State) (e : Engine) : SidesAfterEnd s (s.setEngine e).terminated := by
  refine ⟨by simp, fun k ch hk => ?_⟩
  rw [terminated_channel]
  simp only [setEngine_channels, hk, Option.map_some, setEngine_config, setEngine_outChannel, setEngine_inChannel]
  refine ⟨_, rfl, rfl, ?_, ?_⟩ <;> by_cases h1 : s.config.dropPolicy = .onTerminate <;>
    by_cases h2 : k = s.outChannel <;> by_cases h3 : k = s.inChannel <;> simp [h1, h2, h3]

/-- Terminating the active engine changes nothing around it. -/
theorem sameAround_terminated (s : State) (e : Engine) : SameAround s (s.setEngine e).terminated :=
  ⟨by simp, by simp, by simp, by simp, by simp, by simp, fun k hk => by simp [Ne.symm hk]⟩

/-- Taking an exception is what R270 says. -/
theorem raise_takesFatal {s : State} {e : Engine} {c : Cause} (h : s.engine? = some e) :
    TakesFatal s e c (s.raise e c) := by
  refine ⟨sameAround_terminated s _, ?_, by simp [State.raise], terminated_sides s _⟩
  rw [State.raise, terminated_engine, setEngine_engine _ _ (engine_lt h)]
  rfl

end Sys2Proof.Laws
end

