-- ==== Sys2Proof/Laws/Operands.lean ====
section
/-! SUPPORT. What resolving the operands of an instruction can do: each lemma says all of it once. -/

namespace Sys2Proof.Laws

open Sys2Proof.Machine Sys2Proof.Safety

/-! ### Sequencing -/

theorem bind_ok_iff {α β : Type} {x : Except Cause α} {f : α → Except Cause β} {b : β} :
    (x >>= f) = .ok b ↔ ∃ a, x = .ok a ∧ f a = .ok b := by
  cases x with
  | ok a => simp [bind, Except.bind]
  | error c => simp [bind, Except.bind]

theorem bind_error_iff {α β : Type} {x : Except Cause α} {f : α → Except Cause β} {c : Cause} :
    (x >>= f) = .error c ↔ x = .error c ∨ ∃ a, x = .ok a ∧ f a = .error c := by
  cases x with
  | ok a => simp [bind, Except.bind]
  | error c => simp [bind, Except.bind]

/-! ### Parameter words and addresses -/

theorem param_ok_iff {e : Engine} {i : Nat} {p : Word} : e.param i = .ok p ↔ ParamIs e i p := by
  unfold Engine.param ParamIs HoldsAt
  rw [bind_ok_iff]
  constructor
  · rintro ⟨a, ha, h⟩
    rw [chk64_ok_iff] at ha
    rw [memRead_ok_iff, ha] at h
    have := toInt_fits a
    exact ⟨h.1, by omega, h.2⟩
  · rintro ⟨h1, h2, h3⟩
    have hf : Fits (e.pc.toInt + i) := ⟨by simp only [wordMin]; omega, h2⟩
    refine ⟨_, chk64_fits hf, ?_⟩
    rw [memRead_ok_iff, wordOf_toInt hf]
    exact ⟨h1, h3⟩

/-- Forming an address `n` and checking it raises exactly what `AddressRaises` says. -/
theorem formed_error_iff {n : Int} {c : Cause} {α : Type} {f : Word → Except Cause α}
    (hf : ∀ a c, f a = .error c ↔ a.toInt < 0 ∧ c = .negativeAddress) :
    (chk64 n >>= f) = .error c ↔ AddressRaises n c := by
  rw [bind_error_iff, chk64_error_iff]
  unfold AddressRaises
  constructor
  · rintro (h | ⟨a, ha, h⟩)
    · exact .inl h
    · rw [hf, chk64_ok_iff.mp ha] at h
      have := toInt_fits a
      rw [chk64_ok_iff.mp ha] at this
      exact .inr ⟨this, h⟩
  · rintro (h | ⟨h1, h2, h3⟩)
    · exact .inl h
    · exact .inr ⟨_, chk64_fits h1, (hf _ _).mpr ⟨by rw [wordOf_toInt h1]; exact h2, h3⟩⟩

theorem param_error_iff {e : Engine} {i : Nat} {c : Cause} :
    e.param i = .error c ↔ AddressRaises (e.pc.toInt + i) c :=
  formed_error_iff fun _ _ => memRead_error_iff

theorem destination_ok_iff {a d : Word} : destination a = .ok d ↔ 0 ≤ a.toInt ∧ d = a := by
  unfold destination
  split <;> simp_all [eq_comm]

theorem destination_error_iff {a : Word} {c : Cause} :
    destination a = .error c ↔ a.toInt < 0 ∧ c = .negativeAddress := by
  unfold destination
  split <;> simp_all [eq_comm]

theorem addr_ok_writable {e : Engine} {m : Mode} {i : Nat} {d : Word} (h : e.addr m i = .ok d) :
    writable m = .ok () := by
  cases m with
  | immediate =>
    unfold Engine.addr at h
    obtain ⟨p, _, h⟩ := bind_ok_iff.mp h
    cases h
  | position => rfl
  | relative => rfl

/-- A destination is never negative (R115). -/
theorem addr_nonneg {e : Engine} {m : Mode} {i : Nat} {d : Word} (h : e.addr m i = .ok d) : 0 ≤ d.toInt := by
  unfold Engine.addr at h
  obtain ⟨p, _, h⟩ := bind_ok_iff.mp h
  cases m with
  | immediate => cases h
  | position => obtain ⟨h, rfl⟩ := destination_ok_iff.mp h; exact h
  | relative =>
    obtain ⟨a, _, h⟩ := bind_ok_iff.mp h
    obtain ⟨h, rfl⟩ := destination_ok_iff.mp h
    exact h

theorem writable_ok_iff {m : Mode} : writable m = .ok () ↔ m ≠ .immediate := by cases m <;> simp [writable]

/-! ### The shapes of instructions -/

/-- Everything the four-word shape can resolve to (R140, R141, R170, R171). -/
theorem binary_ok_iff {e e' : Engine} {op : Op} {f : Word → Word → Except Cause Word} {m1 m2 m3 : Mode} :
    e.binary op f m1 m2 m3 = .ok e' ↔
      ∃ va vb dest npc r, e.val m1 1 = .ok va ∧ e.val m2 2 = .ok vb ∧ e.addr m3 3 = .ok dest ∧
        e.advance op = .ok npc ∧ f va vb = .ok r ∧ e' = { e.store dest r with pc := npc } := by
  unfold Engine.binary
  simp only [bind_ok_iff, Except.ok.injEq]
  constructor
  · rintro ⟨_, _, va, h1, vb, h2, d, h3, npc, h4, r, h5, rfl⟩
    exact ⟨va, vb, d, npc, r, h1, h2, h3, h4, h5, rfl⟩
  · rintro ⟨va, vb, d, npc, r, h1, h2, h3, h4, h5, rfl⟩
    exact ⟨(), addr_ok_writable h3, va, h1, vb, h2, d, h3, npc, h4, r, h5, rfl⟩

/-- Everything a jump can resolve to (R160, R161). -/
theorem jump_ok_iff {e e' : Engine} {op : Op} {taken : Word → Bool} {m1 m2 : Mode} :
    e.jump op taken m1 m2 = .ok e' ↔
      ∃ va vb npc, e.val m1 1 = .ok va ∧ e.val m2 2 = .ok vb ∧ e.advance op = .ok npc ∧
        e' = { e with pc := if taken va then vb else npc } := by
  unfold Engine.jump
  simp only [bind_ok_iff, Except.ok.injEq]
  constructor
  · rintro ⟨va, h1, vb, h2, npc, h3, rfl⟩; exact ⟨va, vb, npc, h1, h2, h3, rfl⟩
  · rintro ⟨va, vb, npc, h1, h2, h3, rfl⟩; exact ⟨va, h1, vb, h2, npc, h3, rfl⟩

/-- Everything an adjustment can resolve to (R180). -/
theorem rebase_ok_iff {e e' : Engine} {m1 : Mode} :
    e.rebase m1 = .ok e' ↔
      ∃ va npc nrb, e.val m1 1 = .ok va ∧ e.advance .adjustRelativeBase = .ok npc ∧
        nrb.toInt = e.rb.toInt + va.toInt ∧ e' = { e with rb := nrb, pc := npc } := by
  unfold Engine.rebase
  simp only [bind_ok_iff, Except.ok.injEq, chk64_ok_iff]
  constructor
  · rintro ⟨va, h1, npc, h2, nrb, h3, rfl⟩; exact ⟨va, npc, nrb, h1, h2, h3, rfl⟩
  · rintro ⟨va, npc, nrb, h1, h2, h3, rfl⟩; exact ⟨va, h1, npc, h2, nrb, h3, rfl⟩

theorem inputPlan_ok_iff {e : Engine} {m1 : Mode} {d npc : Word} :
    e.inputPlan m1 = .ok (d, npc) ↔ e.addr m1 1 = .ok d ∧ e.advance .input = .ok npc := by
  unfold Engine.inputPlan
  simp only [bind_ok_iff, Except.ok.injEq, Prod.mk.injEq]
  constructor
  · rintro ⟨_, _, d, h1, npc, h2, rfl, rfl⟩; exact ⟨h1, h2⟩
  · rintro ⟨h1, h2⟩; exact ⟨(), addr_ok_writable h1, d, h1, npc, h2, rfl, rfl⟩

theorem outputPlan_ok_iff {e : Engine} {m1 : Mode} {v npc : Word} :
    e.outputPlan m1 = .ok (v, npc) ↔ e.val m1 1 = .ok v ∧ e.advance .output = .ok npc := by
  unfold Engine.outputPlan
  simp only [bind_ok_iff, Except.ok.injEq, Prod.mk.injEq]
  constructor
  · rintro ⟨v, h1, npc, h2, rfl, rfl⟩; exact ⟨h1, h2⟩
  · rintro ⟨h1, h2⟩; exact ⟨v, h1, npc, h2, rfl, rfl⟩

/-- The next pc (R112 phase 4). -/
theorem advance_ok_iff {e : Engine} {op : Op} {npc : Word} :
    e.advance op = .ok npc ↔ npc.toInt = e.pc.toInt + op.length := chk64_ok_iff

end Sys2Proof.Laws
end

