-- ==== Sys2Proof/Laws/Exec.lean ====
section
/-! SUPPORT. Inversion: everything an instruction can do to the machine, once. -/

namespace Sys2Proof.Laws

open Sys2Proof.Machine Sys2Proof.Safety

/-- What a completed instruction of a memory, jump or base form does to its engine: it keeps the run registers, and keeps
memory but for at most one store at a valid address; the relative base changes only where `rbMayChange`. -/
structure Local (rbMayChange : Prop) (e e' : Engine) : Prop where
  run : SameRun e e'
  base : rbMayChange ∨ e'.rb = e.rb
  store : e'.mem = e.mem ∨ ∃ d v : Word, 0 ≤ d.toInt ∧ e'.mem = e.mem.write d.toNat v

/-- Everything `exec i` can do in a state whose active engine is `e`. -/
inductive Moves (s : State) (e : Engine) (i : Instr) : State → Prop where
  | raised (c : Cause) : Moves s e i (s.raise e c)
  | committed (e' : Engine) (h : Local (i.op = .adjustRelativeBase) e e') : Moves s e i (s.setEngine e')
  | received (ch : Channel) (v : Word) (rest : List Word) (d npc : Word) (hi : i.op = .input)
      (hc : s.channels[s.inChannel]? = some ch) (hq : ch.q = v :: rest) (hd : 0 ≤ d.toInt) :
      Moves s e i ((s.setChannel s.inChannel { ch with q := rest }).setEngine { e.store d v with pc := npc })
  | held (ch : Channel) (hi : i.op = .input) (hc : s.channels[s.inChannel]? = some ch) (hq : ch.q = [])
      (ht : ch.txLive = true) : Moves s e i s
  | sent (ch : Channel) (v npc : Word) (hi : i.op = .output) (hc : s.channels[s.outChannel]? = some ch)
      (hr : ch.rxLive = true) :
      Moves s e i (({ s with last := s.lastAfterSend v }.setChannel s.outChannel { ch with q := ch.q ++ [v] }).setEngine
        ({ e with pc := npc }.afterOutput v))
  | halted (hi : i.op = .halt) : Moves s e i ((s.setEngine { e with status := .halted, grant := .none }).terminated)

theorem binary_local {P : Prop} {e e' : Engine} {op : Op} {f : Word → Word → Except Cause Word} {m1 m2 m3 : Mode}
    (h : e.binary op f m1 m2 m3 = .ok e') : Local P e e' := by
  obtain ⟨va, vb, d, npc, r, _, _, hd, _, _, rfl⟩ := binary_ok_iff.mp h
  exact ⟨⟨rfl, rfl, rfl, rfl⟩, .inr rfl, .inr ⟨d, r, addr_nonneg hd, rfl⟩⟩

theorem jump_local {P : Prop} {e e' : Engine} {op : Op} {taken : Word → Bool} {m1 m2 : Mode}
    (h : e.jump op taken m1 m2 = .ok e') : Local P e e' := by
  obtain ⟨va, vb, npc, _, _, _, rfl⟩ := jump_ok_iff.mp h
  exact ⟨⟨rfl, rfl, rfl, rfl⟩, .inr rfl, .inl rfl⟩

theorem rebase_local {e e' : Engine} {m1 : Mode} (h : e.rebase m1 = .ok e') : Local True e e' := by
  obtain ⟨va, npc, nrb, _, _, _, rfl⟩ := rebase_ok_iff.mp h
  exact ⟨⟨rfl, rfl, rfl, rfl⟩, .inl trivial, .inl rfl⟩

/-- The inversion of the shape the four-word, jump and base instructions share. -/
theorem commit_next {s t : State} {r : Engine → Except Cause Engine}
    (h : (s.withEngine fun e => s.attempt e (r e) fun e' => .next (s.setEngine e')) = .next t) :
    ∃ e, s.engine? = some e ∧ ((∃ c, r e = .error c ∧ t = s.raise e c) ∨ ∃ e', r e = .ok e' ∧ t = s.setEngine e') := by
  obtain ⟨e, he, h⟩ := withEngine_next h
  refine ⟨e, he, ?_⟩
  obtain ⟨c, hc, rfl⟩ | ⟨e', hr, h⟩ := attempt_next h
  · exact .inl ⟨c, hc, rfl⟩
  · cases h; exact .inr ⟨e', hr, rfl⟩

/-- An instruction that answers a next state made one of the moves above. -/
theorem exec_next {s t : State} {i : Instr} (h : exec i s = .next t) : ∃ e, s.engine? = some e ∧ Moves s e i t := by
  cases i with
  | add m1 m2 m3 | mul m1 m2 m3 | lessThan m1 m2 m3 | equal m1 m2 m3 =>
    obtain ⟨e, he, ⟨c, _, rfl⟩ | ⟨e', hr, rfl⟩⟩ := commit_next h
    · exact ⟨e, he, .raised c⟩
    · exact ⟨e, he, .committed e' (binary_local hr)⟩
  | jumpIfTrue m1 m2 m3 | jumpIfFalse m1 m2 m3 =>
    obtain ⟨e, he, ⟨c, _, rfl⟩ | ⟨e', hr, rfl⟩⟩ := commit_next h
    · exact ⟨e, he, .raised c⟩
    · exact ⟨e, he, .committed e' (jump_local hr)⟩
  | adjustRelativeBase m1 m2 m3 =>
    obtain ⟨e, he, ⟨c, _, rfl⟩ | ⟨e', hr, rfl⟩⟩ := commit_next h
    · exact ⟨e, he, .raised c⟩
    · have hl := rebase_local hr
      exact ⟨e, he, .committed e' ⟨hl.run, .inl rfl, hl.store⟩⟩
  | input m1 m2 m3 =>
    obtain ⟨e, he, h⟩ := withEngine_next h
    refine ⟨e, he, ?_⟩
    obtain ⟨c, _, rfl⟩ | ⟨⟨d, npc⟩, hp, h⟩ := attempt_next h
    · exact .raised c
    · obtain ⟨hd, _⟩ := inputPlan_ok_iff.mp hp
      obtain ⟨ch, hc, h⟩ := withChannel_next h
      obtain ⟨v, rest, hq, hr⟩ | ⟨hq, ht, hr⟩ | ⟨hq, ht, hr⟩ := recv_cases ch <;> rw [hr] at h <;> cases h
      · exact .received ch v rest d npc rfl hc hq (addr_nonneg hd)
      · exact .held ch rfl hc hq ht
      · exact .raised _
  | output m1 m2 m3 =>
    obtain ⟨e, he, h⟩ := withEngine_next h
    refine ⟨e, he, ?_⟩
    obtain ⟨c, _, rfl⟩ | ⟨⟨v, npc⟩, hp, h⟩ := attempt_next h
    · exact .raised c
    · obtain ⟨ch, hc, h⟩ := withChannel_next h
      dsimp only at h
      split at h
      · rename_i ch' hs
        obtain ⟨hr, rfl⟩ := send_some_iff.mp hs
        cases h
        exact .sent ch v npc rfl hc hr
      · cases h; exact .raised _
  | halt m1 m2 m3 =>
    obtain ⟨e, he, h⟩ := withEngine_next h
    cases h
    exact ⟨e, he, .halted rfl⟩

/-- An instruction never faults or refuses where the active engine and its two endpoints exist. -/
theorem exec_total {s : State} {e : Engine} (i : Instr) (he : s.engine? = some e) (hw : Wired s) :
    ∃ t, exec i s = .next t := by
  obtain ⟨hin, hout⟩ := hw
  obtain ⟨ci, hci⟩ : ∃ ch, s.channels[s.inChannel]? = some ch := ⟨_, List.getElem?_eq_getElem hin⟩
  obtain ⟨co, hco⟩ : ∃ ch, s.channels[s.outChannel]? = some ch := ⟨_, List.getElem?_eq_getElem hout⟩
  have commit : ∀ r : Engine → Except Cause Engine,
      ∃ t, (s.withEngine fun e => s.attempt e (r e) fun e' => .next (s.setEngine e')) = .next t := by
    intro r
    rw [withEngine_some he]
    cases hr : r e with
    | ok e' => exact ⟨_, attempt_ok rfl _⟩
    | error c => exact ⟨_, attempt_error rfl _⟩
  cases i with
  | add | mul | lessThan | equal | jumpIfTrue | jumpIfFalse | adjustRelativeBase => exact commit _
  | input m1 m2 m3 =>
    show ∃ t, execInput m1 s = .next t
    unfold execInput
    rw [withEngine_some he]
    cases hr : e.inputPlan m1 with
    | error c => exact ⟨_, attempt_error rfl _⟩
    | ok p =>
      rw [attempt_ok rfl, withChannel_some hci]
      obtain ⟨v, rest, hq, hr⟩ | ⟨hq, ht, hr⟩ | ⟨hq, ht, hr⟩ := recv_cases ci <;> rw [hr] <;> exact ⟨_, rfl⟩
  | output m1 m2 m3 =>
    show ∃ t, execOutput m1 s = .next t
    unfold execOutput
    rw [withEngine_some he]
    cases hr : e.outputPlan m1 with
    | error c => exact ⟨_, attempt_error rfl _⟩
    | ok p =>
      rw [attempt_ok rfl, withChannel_some hco]
      split <;> exact ⟨_, rfl⟩
  | halt m1 m2 m3 =>
    show ∃ t, execHalt s = .next t
    unfold execHalt
    rw [withEngine_some he]
    exact ⟨_, rfl⟩

end Sys2Proof.Laws
end

