-- ==== Sys2Proof/Laws/PerInstr.lean ====
section
/-! SUPPORT. What the encoding of each instruction looks like (spec/30_encoding.md R83): the family `Fields`. -/

/-- R83: the low two decimal digits of the instruction word are the opcode, the next three the modes, and there is no digit
above. -/
def Sys2Proof.Laws.Fields.Statement (i : Sys2Proof.Instr) : Prop :=
  Sys2Proof.encodeNat i % 100 = Sys2Proof.codeOfOp i.op ∧
    Sys2Proof.digit (Sys2Proof.encodeNat i) 2 = Sys2Proof.digitOfMode i.modes.1 ∧
    Sys2Proof.digit (Sys2Proof.encodeNat i) 3 = Sys2Proof.digitOfMode i.modes.2.1 ∧
    Sys2Proof.digit (Sys2Proof.encodeNat i) 4 = Sys2Proof.digitOfMode i.modes.2.2 ∧ Sys2Proof.encodeNat i < 100000

namespace Sys2Proof.Laws

open Sys2Proof

theorem Fields.add (m1 m2 m3 : Mode) : Fields.Statement (.add m1 m2 m3) := by
  unfold Fields.Statement; cases m1 <;> cases m2 <;> cases m3 <;> decide
theorem Fields.mul (m1 m2 m3 : Mode) : Fields.Statement (.mul m1 m2 m3) := by
  unfold Fields.Statement; cases m1 <;> cases m2 <;> cases m3 <;> decide
theorem Fields.input (m1 m2 m3 : Mode) : Fields.Statement (.input m1 m2 m3) := by
  unfold Fields.Statement; cases m1 <;> cases m2 <;> cases m3 <;> decide
theorem Fields.output (m1 m2 m3 : Mode) : Fields.Statement (.output m1 m2 m3) := by
  unfold Fields.Statement; cases m1 <;> cases m2 <;> cases m3 <;> decide
theorem Fields.jumpIfTrue (m1 m2 m3 : Mode) : Fields.Statement (.jumpIfTrue m1 m2 m3) := by
  unfold Fields.Statement; cases m1 <;> cases m2 <;> cases m3 <;> decide
theorem Fields.jumpIfFalse (m1 m2 m3 : Mode) : Fields.Statement (.jumpIfFalse m1 m2 m3) := by
  unfold Fields.Statement; cases m1 <;> cases m2 <;> cases m3 <;> decide
theorem Fields.lessThan (m1 m2 m3 : Mode) : Fields.Statement (.lessThan m1 m2 m3) := by
  unfold Fields.Statement; cases m1 <;> cases m2 <;> cases m3 <;> decide
theorem Fields.equal (m1 m2 m3 : Mode) : Fields.Statement (.equal m1 m2 m3) := by
  unfold Fields.Statement; cases m1 <;> cases m2 <;> cases m3 <;> decide
theorem Fields.adjustRelativeBase (m1 m2 m3 : Mode) : Fields.Statement (.adjustRelativeBase m1 m2 m3) := by
  unfold Fields.Statement; cases m1 <;> cases m2 <;> cases m3 <;> decide
theorem Fields.halt (m1 m2 m3 : Mode) : Fields.Statement (.halt m1 m2 m3) := by
  unfold Fields.Statement; cases m1 <;> cases m2 <;> cases m3 <;> decide

end Sys2Proof.Laws
end

