-- ==== Sys2Proof/Laws/Step.lean ====
section
/-! SUPPORT. Inversion of a step: everything one move of one agent can do to the machine, once. -/

namespace Sys2Proof.Laws

open Sys2Proof.Machine Sys2Proof.Safety

/-- Everything the turn of stage `k` can do: nothing, or one of the moves of an instruction (R110, R112). -/
theorem stageTurn_next {k : Nat} {s t : State} (h : stageTurn k s = .next t) :
    t = s ∨ ∃ e i, s.engines[k]? = some e ∧ e.ready = true ∧ Moves { s with active := k } e i t := by
  unfold stageTurn at h
  split at h
  · rename_i e he
    split at h
    · rename_i hr
      refine .inr ⟨e, ?_⟩
      obtain ⟨e', he', h⟩ := withEngine_next h
      obtain rfl : e = e' := by simpa [State.engine?, he] using he'
      obtain ⟨c, _, rfl⟩ | ⟨i, _, h⟩ := attempt_next h
      · exact ⟨.halt .position .position .position, he, hr, .raised c⟩
      · obtain ⟨e', he', hm⟩ := exec_next h
        obtain rfl : e = e' := by simpa [State.engine?, he] using he'
        exact ⟨i, he, hr, hm⟩
    · cases h; exact .inl rfl
  · cases h; exact .inl rfl

/-- The turn of a ready stage is its fetch, its decode and its instruction (R112). -/
theorem stageTurn_ready {k : Nat} {s : State} {e : Engine} (he : s.engines[k]? = some e) (hr : e.ready = true) :
    stageTurn k s = ({ s with active := k } : State).attempt e e.decoded fun i => exec i { s with active := k } := by
  simp only [stageTurn, he, hr, if_true, stepEngine]
  exact withEngine_some (s := { s with active := k }) he _

theorem stageTurn_idle {k : Nat} {s : State} (h : ∀ e, s.engines[k]? = some e → e.ready = false) :
    stageTurn k s = .next s := by
  unfold stageTurn
  split
  · rename_i e he; simp [h e he]
  · rfl

theorem ready_iff {e : Engine} : e.ready = true ↔ e.status = .running ∧ e.grant ≠ .none := by
  simp [Engine.ready]

theorem decoded_ok {e : Engine} {i : Instr} (hp : 0 ≤ e.pc.toInt) (hd : decode (e.mem.read e.pc.toNat) = .ok i) :
    e.decoded = .ok i := by
  simp [Engine.decoded, Engine.fetch, memRead, not_lt.mpr hp, hd]

theorem decoded_error {e : Engine} {d : DecodeError} (hp : 0 ≤ e.pc.toInt)
    (hd : decode (e.mem.read e.pc.toNat) = .error d) : e.decoded = .error (Cause.ofDecode d) := by
  simp [Engine.decoded, Engine.fetch, memRead, not_lt.mpr hp, hd]

theorem decoded_negative {e : Engine} (hp : e.pc.toInt < 0) : e.decoded = .error .negativeAddress := by
  simp [Engine.decoded, Engine.fetch, memRead, hp]

/-- Everything a transaction of the host can do (R213, R244). -/
inductive HostMoves (s : State) : Transaction → State → Prop where
  | built (c : Config) (hc : c.wf) :
      HostMoves s (.newComposition c)
        { config := c, engines := [], channels := [], last := none, active := 0, agenda := s.agenda, received := [],
          reply := .done }
  | channel (seed : Option Word) (q : List Word) (hl : s.channels.length < channelCount s.config) :
      HostMoves s (.makeChannel seed) { s with channels := s.channels ++ [Channel.fresh q], reply := .done }
  | loaded (text : List Char) (e : Engine) (hl : s.engines.length < s.config.nStages) (he : loadEngine text = some e) :
      HostMoves s (.load text) { s with engines := s.engines ++ [e], reply := .done }
  | granted (r : Transaction) (g : Grant) (k : Nat) (e : Engine) (hr : r = .runToHalt k ∨ r = .runUntilBlocked k)
      (he : s.engines[k]? = some e) (hb : s.built = true) (hg : e.grant = .none) :
      HostMoves s r { s with engines := s.engines.set k (e.granted g), reply := .done }
  | sent (k : Nat) (v : Word) (ch : Channel) (hc : s.channels[k]? = some ch) (hh : holderOf s.config k .send = .host) :
      HostMoves s (.send k v) { s.setChannel k { ch with q := ch.q ++ [v] } with reply := .done }
  | received (k : Nat) (v : Word) (rest : List Word) (ch : Channel) (hc : s.channels[k]? = some ch)
      (hr : ch.rxLive = true) (hq : ch.q = v :: rest) :
      HostMoves s (.recv k)
        { s.setChannel k { ch with q := rest } with received := s.received ++ [v], reply := .value v }
  | told (r : Transaction) (reply : Reply) : HostMoves s r { s with reply := reply }
  | dropped (ch : Nat) (side : Side) (hd : s.hostMayDrop ch side = true) :
      HostMoves s (.drop ch side) { s.dropSide ch side with reply := .done }

theorem runStage_next {g : Grant} {k : Nat} {s t : State} {r : Transaction} (hr : r = .runToHalt k ∨ r = .runUntilBlocked k)
    (h : runStage g k s = .next t) : HostMoves s r t := by
  unfold runStage at h
  split at h
  · rename_i e he
    split at h
    · rename_i hb; cases h; exact .granted r g k e hr he hb.1 hb.2
    · cases h
  · cases h

theorem transact_next {r : Transaction} {s t : State} (h : transact r s = .next t) : HostMoves s r t := by
  cases r with
  | newComposition c =>
    simp only [transact, newComposition] at h
    split at h
    · cases h; exact .built c (by assumption)
    · cases h
  | makeChannel seed =>
    simp only [transact, makeChannel] at h
    split at h
    · rename_i hl
      split at h
      · cases h; exact .channel none [] hl
      · split at h
        · cases h; exact .channel _ [_] hl
        · cases h
    · cases h
  | load text =>
    simp only [transact, loadStage] at h
    split at h
    · rename_i hl
      split at h
      · rename_i e he; cases h; exact .loaded text e hl he
      · cases h
    · cases h
  | runToHalt k => exact runStage_next (.inl rfl) h
  | runUntilBlocked k => exact runStage_next (.inr rfl) h
  | send k v =>
    simp only [transact, hostSend] at h
    split at h
    · rename_i ch hc hh
      split at h
      · rename_i ch' hs
        obtain ⟨_, rfl⟩ := send_some_iff.mp hs
        cases h; exact .sent k v ch hc hh
      · cases h; exact .told _ _
    · cases h
  | recv k =>
    simp only [transact, hostRecv] at h
    split at h
    · rename_i ch hc hh
      split at h
      · rename_i hl
        obtain ⟨v, rest, hq, hr⟩ | ⟨hq, ht, hr⟩ | ⟨hq, ht, hr⟩ := recv_cases ch <;> rw [hr] at h <;> cases h
        · exact .received k v rest ch hc hl hq
        · exact .told _ s.reply
        · exact .told _ _
      · cases h
    · cases h
  | drop ch side =>
    simp only [transact, hostDrop] at h
    split at h
    · split at h
      · cases h; exact .dropped ch side (by assumption)
      · cases h
    · cases h

/-- A step is the turn of a stage, a drop of the interconnect, or a transaction of the host. -/
theorem step_next {s t : State} (h : step s = .next t) :
    (s.agenda = [] ∧ stageTurn s.active s = .next t) ∨
      (∃ k rest, s.agenda = .stage k :: rest ∧ stageTurn k { s with agenda := rest } = .next t) ∨
      (∃ ch side rest, s.agenda = .interconnectDrop ch side :: rest ∧
        interconnectDrop ch side { s with agenda := rest } = .next t) ∨
      ∃ r rest, s.agenda = .host r :: rest ∧ HostMoves { s with agenda := rest } r t := by
  unfold step nextMove at h
  split at h
  · exact .inl ⟨by assumption, h⟩
  · rename_i ev rest ha
    cases ev with
    | stage k => exact .inr (.inl ⟨k, rest, ha, h⟩)
    | interconnectDrop ch side => exact .inr (.inr (.inl ⟨ch, side, rest, ha, h⟩))
    | host r => exact .inr (.inr (.inr ⟨r, rest, ha, transact_next h⟩))

/-! ### Turns -/

theorem turnOf_active {s u : State} {k : Nat} (h : TurnOf s k u) : u.active = k := by
  obtain ⟨_, hk, rfl⟩ | ⟨_, _, rfl⟩ := h
  · exact hk
  · rfl

/-- As its turn begins a machine is the one it was, but for the model's own `agenda` and `active`. -/
theorem turnOf_same {s u : State} {k : Nat} (h : TurnOf s k u) :
    u.config = s.config ∧ u.engines = s.engines ∧ u.channels = s.channels ∧ u.last = s.last ∧
      u.received = s.received ∧ u.reply = s.reply := by
  obtain ⟨_, _, rfl⟩ | ⟨_, _, rfl⟩ := h <;> exact ⟨rfl, rfl, rfl, rfl, rfl, rfl⟩

theorem turnOf_engine {s u : State} {k : Nat} (h : TurnOf s k u) : u.engine? = s.engines[k]? := by
  rw [State.engine?, turnOf_active h, (turnOf_same h).2.1]

/-- The step that is the turn of a ready stage is its fetch, its decode and its instruction (R112). -/
theorem step_turn_ready {s u : State} {k : Nat} {e : Engine} (h : TurnOf s k u) (he : u.engine? = some e)
    (hr : e.ready = true) : step s = u.attempt e e.decoded fun i => exec i u := by
  rw [turnOf_engine h] at he
  obtain ⟨ha, rfl, rfl⟩ | ⟨rest, ha, rfl⟩ := h
  · simp only [step, nextMove, ha]
    exact stageTurn_ready he hr
  · simp only [step, nextMove, ha, happen]
    exact stageTurn_ready (s := { s with agenda := rest }) he hr

/-- The step that is the turn of any other stage does nothing (R110, R127). -/
theorem step_turn_idle {s u : State} {k : Nat} (h : TurnOf s k u) (hi : ∀ e, u.engine? = some e → e.ready = false) :
    step s = .next { u with active := s.active } := by
  rw [turnOf_engine h] at hi
  obtain ⟨ha, rfl, rfl⟩ | ⟨rest, ha, rfl⟩ := h
  · rw [show step u = stageTurn u.active u by simp only [step, nextMove, ha]]
    exact stageTurn_idle hi
  · simp only [step, nextMove, ha, happen]
    exact stageTurn_idle (s := { s with agenda := rest }) hi

/-! ### Holding -/

/-- Where a stage holds: what R206 asks of its status, its instruction and its input queue, and nothing of its grant. -/
theorem holds_iff {s : State} {k : Nat} : s.holds k = true ↔ ∃ (e : Engine) (m1 m2 m3 : Mode) (p : Word × Word) (ch : Channel),
    s.engines[k]? = some e ∧ e.status = .running ∧ e.decoded = .ok (.input m1 m2 m3) ∧ e.inputPlan m1 = .ok p ∧
      s.channels[inChannelOf s.config k]? = some ch ∧ ch.q = [] ∧ ch.txLive = true := by
  constructor
  · intro h
    unfold State.holds at h
    split at h
    · rename_i e he
      unfold State.holdsAt at h
      split at h
      · rename_i m1 m2 m3 hd
        split at h
        · rename_i p ch hp hc
          simp at h
          exact ⟨e, m1, m2, m3, p, ch, he, h.1, hd, hp, hc, h.2.1, h.2.2⟩
        · simp at h
      · simp at h
    · cases h
  · rintro ⟨e, m1, m2, m3, p, ch, he, hs, hd, hp, hc, hq, ht⟩
    simp [State.holds, State.holdsAt, he, hs, hd, hp, hc, hq, ht]

/-- A stage that holds has no enabled step (R110). -/
theorem holds_not_enabled {s : State} {k : Nat} (h : s.holds k = true) : s.enabled k = false := by
  cases he : s.engines[k]? with
  | none => simp [State.enabled, he]
  | some e =>
    simp only [State.holds, he, Bool.and_eq_true] at h
    simp [State.enabled, he, h.2]

/-- A stage holds alike in two machines with the same parameters and channels, whatever else is said of grants and yielded values
(R206: "not the host's grant"). -/
theorem holds_of_same {s t : State} {k : Nat} {e f : Engine} (hc : t.config = s.config) (hq : t.channels = s.channels)
    (he : s.engines[k]? = some e) (hf : t.engines[k]? = some f) (hs : f.status = e.status) (hp : f.pc = e.pc)
    (hr : f.rb = e.rb) (hm : f.mem = e.mem) : t.holds k = s.holds k := by
  obtain ⟨pc, rb, mem, status, fault, grant, yielded⟩ := e
  cases f
  simp only at hs hp hr hm
  subst hs hp hr hm
  simp only [State.holds, State.holdsAt, he, hf, hc, hq]
  rfl

/-- The step that is the turn of a stage that holds does nothing; without a grant it does not even make it the active one. -/
theorem step_turn_held {s u : State} {k : Nat} (h : TurnOf s k u) (hh : s.holds k = true) :
    step s = .next u ∨ step s = .next { u with active := s.active } := by
  obtain ⟨e, m1, m2, m3, p, ch, he, _, hd, hp, hc, hq, ht⟩ := holds_iff.mp hh
  have hu : u.engine? = some e := (turnOf_engine h).trans he
  cases hr : e.ready with
  | false => exact .inr (step_turn_idle h fun f hf => by rw [hu] at hf; cases hf; exact hr)
  | true =>
    refine .inl ?_
    have hc' : u.channels[u.inChannel]? = some ch := by
      obtain ⟨h1, _, h3, _⟩ := turnOf_same h
      rw [State.inChannel, turnOf_active h, h1, h3]; exact hc
    rw [step_turn_ready h hu hr, attempt_ok hd]
    show execInput m1 u = _
    unfold execInput
    rw [withEngine_some hu, attempt_ok hp, withChannel_some hc']
    simp [Channel.recv, hq, ht]

/-- What a stalled machine is, over its stages (R250). -/
theorem stalled_iff {s : State} : s.stalled = true ↔ s.built = true ∧ (∃ e ∈ s.engines, e.status = .running) ∧
    ∀ k e, s.engines[k]? = some e → e.status = .running → s.holds k = true := by
  simp only [State.stalled, Bool.and_eq_true, List.any_eq_true, List.all_eq_true, List.mem_range, Bool.or_eq_true, beq_iff_eq,
    and_assoc]
  refine and_congr_right fun _ => and_congr_right fun _ => ⟨fun h k e he hs => ?_, fun h k hk => ?_⟩
  · have := h k (List.getElem?_eq_some_iff.mp he).1
    simpa [State.terminatedStage, he, Engine.terminated, hs] using this
  · have he := List.getElem?_eq_getElem hk
    by_cases hs : (s.engines[k]).status = .running
    · exact .inr (h k _ he hs)
    · exact .inl (by simp [State.terminatedStage, he, Engine.terminated, hs])

/-- The interconnect's drop step does nothing, or drops the side of a terminated stage (R208). -/
theorem interconnectDrop_next {ch : Nat} {side : Side} {s t : State} (h : interconnectDrop ch side s = .next t) :
    t = s ∨ ∃ k, holderOf s.config ch side = .stage k ∧ s.terminatedStage k = true ∧ s.config.dropPolicy = .free ∧
      t = s.dropSide ch side := by
  unfold interconnectDrop at h
  split at h
  · split at h
    · cases h; exact .inr ⟨_, by assumption, by assumption, by assumption, rfl⟩
    · cases h; exact .inl rfl
  · cases h; exact .inl rfl

end Sys2Proof.Laws
end

