-- ==== Sys2Proof/Tests/Slice0.lean ====
section
/-! SUPPORT. The model's own tests: ill-formed terms, words written out from the encoding, single steps with the results of
spec/95_test_vectors.md (its vector's name stands before each), and for every statement with hypotheses a machine that meets
them all. -/

namespace Sys2Proof.Tests

open Sys2Proof Sys2Proof.Machine Sys2Proof.Safety

/-! ### Small machines -/

/-- An engine loaded with a program, under the grant `to_halt`. -/
def engineOf (ws : List Int) : Engine := { Engine.fresh (Memory.ofWords 0 (ws.map wordOf)) with grant := .toHalt }

/-- The start state of the spec's vectors: one engine, an input queue, an empty output queue. -/
def machine (ws input : List Int) : State :=
  { State.reset with
    engines := [engineOf ws], channels := [Channel.fresh (input.map wordOf), Channel.fresh []] }

/-- The same with another engine. -/
def machineOf (e : Engine) (input : List Int) : State := { machine [] input with engines := [e] }

/-- A loop of two stages, the second designated, its feedback link holding `q`. -/
def loopOf (e0 e1 : Engine) (q : List Int) : State :=
  { State.reset with
    config := { topology := .feedbackLoop, nStages := 2, haltStage := 1, dropPolicy := .free }
    engines := [e0, e1], channels := [Channel.fresh (q.map wordOf), Channel.fresh []] }

/-- The next state, if there is one. -/
def after (s : State) : Option State :=
  match step s with
  | .next t => some t
  | .fault _ | .refused _ => none

/-- Why a step is refused, if it is. -/
def refusal (s : State) : Option Refusal :=
  match step s with
  | .refused r => some r
  | .next _ | .fault _ => none

/-- The engine after one step of the machine. -/
def engineAfter (s : State) : Option Engine := (after s).bind State.engine?

/-- The fault record after one step. -/
def faultAfter (s : State) : Option FaultRecord := (engineAfter s).bind Engine.fault

/-- `pc` and one word of memory after one step, as integers. -/
def pcAndWord (s : State) (a : Nat) : Option (Int × Int) :=
  (engineAfter s).map fun e => (e.pc.toInt, (e.mem.read a).toInt)

/-- `pc` and `rb` after one step, as integers. -/
def pcAndBase (s : State) : Option (Int × Int) := (engineAfter s).map fun e => (e.pc.toInt, e.rb.toInt)

/-- A queue after one step, as integers. -/
def queueAfter (s : State) (k : Nat) : Option (List Int) :=
  ((after s).bind fun t => t.channels[k]?).map fun ch => ch.q.map fun v => v.toInt

/-! ### Ill-formed terms: a write parameter in immediate mode, for each instruction that has one (R87, R92) -/

theorem test_wellFormed_refuses_add : (Instr.add .position .position .immediate).wellFormed = false := by decide
theorem test_wellFormed_refuses_mul : (Instr.mul .position .position .immediate).wellFormed = false := by decide
theorem test_wellFormed_refuses_lessThan : (Instr.lessThan .relative .relative .immediate).wellFormed = false := by decide
theorem test_wellFormed_refuses_equal : (Instr.equal .immediate .immediate .immediate).wellFormed = false := by decide
theorem test_wellFormed_refuses_input : (Instr.input .immediate .position .position).wellFormed = false := by decide
/-- R94: an unused mode of 1 is no write to immediate. -/
theorem test_wellFormed_allows_unused : (Instr.halt .immediate .immediate .immediate).wellFormed = true ∧
    (Instr.input .relative .immediate .immediate).wellFormed = true ∧
    (Instr.output .immediate .immediate .immediate).wellFormed = true := by decide

/-! ### Decoding: words written out digit by digit as M3 M2 M1 OP OP (R83) -/

theorem test_decode_add : (decode 21001).toOption = some (.add .position .immediate .relative) := by decide
theorem test_decode_mul : (decode 1202).toOption = some (.mul .relative .immediate .position) := by decide
theorem test_decode_input : (decode 203).toOption = some (.input .relative .position .position) := by decide
theorem test_decode_output : (decode 1104).toOption = some (.output .immediate .immediate .position) := by decide
theorem test_decode_jumpIfTrue : (decode 1005).toOption = some (.jumpIfTrue .position .immediate .position) := by decide
theorem test_decode_jumpIfFalse : (decode 1006).toOption = some (.jumpIfFalse .position .immediate .position) := by decide
theorem test_decode_lessThan : (decode 22207).toOption = some (.lessThan .relative .relative .relative) := by decide
theorem test_decode_equal : (decode 1008).toOption = some (.equal .position .immediate .position) := by decide
theorem test_decode_adjust : (decode 109).toOption = some (.adjustRelativeBase .immediate .position .position) := by decide
theorem test_decode_halt : (decode 22299).toOption = some (.halt .relative .relative .relative) := by decide
/-- F2, F4, F18, F19 and the edges of the opcode map: no such opcode. -/
theorem test_decode_unknownOpcode :
    ([0, 10, 55, 98, 100, BitVec.ofInt 64 (-1), BitVec.ofInt 64 (-99), BitVec.ofInt 64 wordMin] : List Word).all (fun v =>
      match decode v with | .error .unknownOpcode => true | _ => false) = true := by decide
/-- F5, F6, F17, F20, F21: a bad mode digit comes before a bad opcode and before a write to immediate. -/
theorem test_decode_unknownMode :
    ([301, 30099, 398, 3103, 40001, 300, 3000, 30000] : List Word).all (fun v =>
      match decode v with | .error .unknownMode => true | _ => false) = true := by decide
/-- F1, F16, F24, I5. -/
theorem test_decode_writeToImmediate :
    ([11101, 10002, 10107, 10108, 103] : List Word).all (fun v =>
      match decode v with | .error .writeToImmediate => true | _ => false) = true := by decide
/-- F7, F8: digits at 10^5 and above are ignored. -/
theorem test_decode_high_digits : (decode 100099).toOption = (decode 99).toOption ∧
    (decode 1001101).toOption = (decode 1101).toOption ∧
    (decode (wordOf (9223372036854700000 + 1101))).toOption = (decode 1101).toOption := by decide
theorem test_encode_writes_digits : encode (.mul .position .immediate .position) = 1002 ∧
    encode (.halt .position .position .position) = 99 := by decide
/-- The decoder as the host calls it: the table's row ADD has four words. -/
theorem test_decodeTableWord : decodeTableWord 256 1101 = some (.add .immediate .immediate .position) ∧
    decodeTableWord 64 0 = none := by decide

/-! ### Single steps -/

/-- M1: the destination is both sources and the instruction word. -/
theorem test_add_overwrites_itself : pcAndWord (machine [1, 0, 0, 0, 99] []) 0 = some (4, 2) := by decide
/-- M5: 2^63-1 + 1. -/
theorem test_add_overflow : faultAfter (machine [1101, 9223372036854775807, 1, 5, 99, 0] []) =
    some { cause := .arithmeticOverflow, fpc := 0, fword := some 1101 } := by decide
/-- S2: the immediate is parameter 2, and the product lands in the program. -/
theorem test_mul_immediate : pcAndWord (machine [1002, 4, 3, 4, 33] []) 4 = some (4, 99) := by decide
/-- M9: -2^62 * 2 fits. -/
theorem test_mul_least : pcAndWord (machine [1102, -4611686018427387904, 2, 5, 99, 0] []) 5 =
    some (4, -9223372036854775808) := by decide
/-- C6: -1 < 0, signed. -/
theorem test_lessThan_signed : pcAndWord (machine [1107, -1, 0, 5, 99, 7] []) 5 = some (4, 1) := by decide
/-- C2: x < x. -/
theorem test_lessThan_irreflexive : pcAndWord (machine [1107, 8, 8, 5, 99, 7] []) 5 = some (4, 0) := by decide
/-- C10. -/
theorem test_equal_position : pcAndWord (machine [8, 5, 6, 7, 99, 3, 3, -1] []) 7 = some (4, 1) := by decide
/-- C9. -/
theorem test_equal_opposite : pcAndWord (machine [1108, 8, -8, 5, 99, 7] []) 5 = some (4, 0) := by decide
/-- J5: condition and target in position mode; a negative condition counts. -/
theorem test_jumpIfTrue_taken : pcAndWord (machine [5, 7, 8, 99, 104, 7, 99, -2, 4] []) 0 = some (4, 5) := by decide
/-- J10: the target is resolved although the jump is not taken. -/
theorem test_jumpIfTrue_resolves_target : faultAfter (machine [105, 0, -3, 99] []) =
    some { cause := .negativeAddress, fpc := 0, fword := some 105 } := by decide
/-- J3. -/
theorem test_jumpIfFalse_taken : pcAndWord (machine [1106, 0, 4, 99, 104, 7, 99] []) 0 = some (4, 1106) := by decide
/-- J4. -/
theorem test_jumpIfFalse_falls_through : pcAndWord (machine [1106, 5, 4, 99, 104, 7, 99] []) 0 = some (3, 1106) := by decide
/-- B4, its second step: the operand is read with the old base. -/
theorem test_adjust_uses_old_base :
    pcAndBase (machineOf { engineOf [109, 5, 209, -1, 99] with pc := 2, rb := 5 } []) = some (4, 104) := by decide
/-- B5, its second step: the new base does not fit. -/
theorem test_adjust_overflow :
    faultAfter (machineOf { engineOf [109, 1, 109, 1, 99] with pc := 2, rb := wordOf wordMax } []) =
      some { cause := .arithmeticOverflow, fpc := 2, fword := some 109 } := by decide
/-- I1, its second step: a relative destination. -/
theorem test_input_relative :
    pcAndWord (machineOf { engineOf [109, 10, 203, 0, 99] with pc := 2, rb := 10 } [77]) 10 = some (4, 77) := by decide
/-- I2: a hold changes nothing at all. -/
theorem test_input_holds : after (machine [3, 0, 99] []) = some (machine [3, 0, 99] []) := by decide
/-- I8: the destination is checked before the receive; the queue is not touched. -/
theorem test_input_checks_first : queueAfter (machine [3, -1, 99] [5]) 0 = some [5] ∧
    faultAfter (machine [3, -1, 99] [5]) = some { cause := .negativeAddress, fpc := 0, fword := some 3 } := by decide
/-- H6: empty, and the sender dropped. -/
theorem test_input_broken :
    faultAfter { machine [3, 0, 99] [] with channels := [{ q := [], txLive := false, rxLive := true }, Channel.fresh []] } =
      some { cause := .brokenChannel, fpc := 0, fword := some 3 } := by decide
/-- S3. -/
theorem test_output_large : queueAfter (machine [104, 1125899906842624, 99] []) 1 = some [1125899906842624] := by decide
/-- Y1, its first step: the value is yielded and the grant given back. -/
theorem test_output_yields :
    (engineAfter (machineOf { engineOf [104, 1, 104, 2, 99] with grant := .yieldAfterOutput } [])).map
      (fun e => (e.yielded, e.grant, e.status, e.pc)) = some (some 1, .none, .running, 2) := by decide
/-- H7, Y5: nothing is enqueued and nothing yielded. -/
theorem test_output_broken :
    (after { machine [104, 5, 99] [] with channels := [Channel.fresh [], { q := [], txLive := true, rxLive := false }] }).map
      (fun t => (t.channels[1]?.map Channel.q, t.engine?.map Engine.yielded, t.engine?.bind Engine.fault)) =
      some (some [], some none, some { cause := .brokenChannel, fpc := 0, fword := some 104 }) := by decide
/-- T1. -/
theorem test_halt_stays : (engineAfter (machine [99] [])).map (fun e => (e.status, e.grant, e.pc)) =
    some (.halted, .none, 0) := by decide
/-- P5, loop B: stage 0 halts under `on_terminate` and drops the receive side of `c[0]` and the send side of `c[1]`. -/
theorem test_halt_drops_on_terminate :
    (after { loopOf (engineOf [99]) (engineOf [99]) [] with
      config := { topology := .feedbackLoop, nStages := 2, haltStage := 1, dropPolicy := .onTerminate } }).map
      (fun t => t.channels.map fun ch => (ch.txLive, ch.rxLive)) = some [(true, false), (false, true)] := by decide
/-- J7, its second step: a negative `pc` has no word to report. -/
theorem test_fetch_negative : faultAfter (machineOf { engineOf [1105, 1, -3] with pc := wordOf (-3) } []) =
    some { cause := .negativeAddress, fpc := wordOf (-3), fword := none } := by decide
/-- F13, its second step: never-written memory reads zero, which is no instruction. -/
theorem test_fetch_past_end : faultAfter (machineOf { engineOf [2, 1, 1, 0] with pc := 4 } []) =
    some { cause := .unknownOpcode, fpc := 4, fword := some 0 } := by decide
/-- R24, U5: parameter 1 of an instruction at the last address is beyond the address range. -/
theorem test_param_past_last_address :
    faultAfter (machineOf { engineOf [] with pc := wordOf wordMax, mem := [(9223372036854775807, 4)] } []) =
      some { cause := .arithmeticOverflow, fpc := wordOf wordMax, fword := some 4 } := by decide
/-- B10, its second step: an address sum that does not fit. -/
theorem test_relative_address_overflow :
    faultAfter (machineOf { engineOf [109, 0, 204, 1, 99] with pc := 2, rb := wordOf wordMax } []) =
      some { cause := .arithmeticOverflow, fpc := 2, fword := some 204 } := by decide
/-- R239: the last stage of the loop sends on the feedback link, and LAST takes the value. -/
theorem test_last_is_written : (after { loopOf (engineOf [99]) (engineOf [104, 43, 99]) [] with active := 1 }).map
    (fun t => (t.last, t.channels.map Channel.q)) = some (some 43, [[43], []]) := by decide

/-! ### Program text (F27, F28, F29) -/

theorem test_text_empty : parseProgram [] = none := by decide
theorem test_text_bad : parseProgram ['1', ',', '2', ',', ',', '3'] = none ∧ parseProgram ['+', '1', ',', '2'] = none ∧
    parseProgram ['1', ' ', '2'] = none ∧ parseProgram ['-'] = none ∧ parseProgram ['9', '9', ','] = none := by decide
theorem test_text_range :
    parseProgram ['9', '2', '2', '3', '3', '7', '2', '0', '3', '6', '8', '5', '4', '7', '7', '5', '8', '0', '8'] = none ∧
    parseProgram ['-', '9', '2', '2', '3', '3', '7', '2', '0', '3', '6', '8', '5', '4', '7', '7', '5', '8', '0', '8'] =
      some [wordOf wordMin] := by decide
theorem test_text_white : parseProgram [' ', '9', '9', ' ', ',', '\n', ' ', '0', ' '] = some [99, 0] := by decide

/-! ### The host -/

/-- H2. -/
theorem test_channel_fifo : useChannel (Channel.fresh []) [.send 1, .send 2, .send 3, .recv, .recv] =
    ([1, 2, 3], [1, 2], Channel.fresh [3]) := by decide
/-- H4, H5: a queue drains after its sender is dropped; nothing is sent to a dropped receiver. -/
theorem test_channel_drops : useChannel (Channel.fresh [4, 5]) [.drop .send, .recv, .recv, .recv] =
      ([], [4, 5], { q := [], txLive := false, rxLive := true }) ∧
    useChannel (Channel.fresh [4]) [.drop .receive, .send 6] = ([], [], { q := [4], txLive := true, rxLive := false }) := by
  decide
/-- R202: the host holds no side of a loop, so it may not send into one. -/
theorem test_host_keeps_out : refusal { loopOf (engineOf [99]) (engineOf [99]) [] with agenda := [.host (.send 0 8)] } =
    some .transaction := by decide
/-- H10: the host's value enables a held input. -/
theorem test_host_sends : queueAfter { machine [3, 0, 99] [] with agenda := [.host (.send 0 8)] } 0 = some [8] := by decide
/-- T5: a run of a halted engine takes no step and gives no grant. -/
theorem test_run_of_halted :
    (engineAfter { machineOf { engineOf [99] with status := .halted, grant := .none, yielded := some 3 } [] with
      agenda := [.host (.runUntilBlocked 0)] }).map (fun e => (e.status, e.grant, e.yielded)) =
      some (.halted, .none, none) := by decide
/-- F27: no engine exists. -/
theorem test_load_refused :
    refusal { State.reset with engines := [], agenda := [.host (.load [])] } = some .programText := by decide
/-- R6, R230: no composition without a stage, and none with its designated stage beyond the last. -/
theorem test_illegal_parameters :
    refusal { State.reset with agenda := [.host (.newComposition { Config.reset with nStages := 0 })] } = some .transaction ∧
    refusal { State.reset with agenda := [.host (.newComposition { Config.reset with haltStage := 1 })] } =
      some .transaction := by decide
/-- R208: under `host_only` the host drops a side on behalf of a stage that has terminated. -/
theorem test_host_only_drop :
    ((after { machineOf { engineOf [99] with status := .halted, grant := .none } [] with
      config := { Config.reset with dropPolicy := .hostOnly }, agenda := [.host (.drop 1 .send)] }).map
        fun t => t.channels.map fun ch => (ch.txLive, ch.rxLive)) = some [(true, true), (false, true)] := by decide
/-- R240: only the feedback link is seeded. -/
theorem test_seed : refusal { State.reset with channels := [], agenda := [.host (.makeChannel (some 1))] } =
    some .transaction := by decide
/-- R207: after the host has dropped its receive side no Recv returns the queue's value. -/
theorem test_recv_after_drop :
    refusal { machine [99] [] with
      channels := [Channel.fresh [], { q := [5], txLive := true, rxLive := false }], agenda := [.host (.recv 1)] } =
      some .transaction ∧
    useChannel (Channel.fresh [4]) [.drop .receive, .recv] = ([], [], { q := [4], txLive := true, rxLive := false }) := by
  decide
/-- P4, its last line: a pipeline whose seed never comes is deadlocked; one whose seed is to come is not. -/
theorem test_deadlock_without_seed : (machine [3, 0, 99] []).deadlocked = true ∧
    ({ machine [3, 0, 99] [] with agenda := [.stage 0, .host (.send 0 8)] } : State).deadlocked = false := by decide
/-- P5, loop A under `on_terminate`: the run is over at the designated halt, and a fatal stage is no good end (D30). -/
theorem test_endedWell_loop :
    (loopOf { engineOf [0] with status := .fatal, grant := .none } { engineOf [99] with status := .halted, grant := .none }
      []).endedWell = false ∧
    (loopOf (engineOf [3, 11]) { engineOf [99] with status := .halted, grant := .none } []).endedWell = true := by decide
/-- P5, the last line: an unseeded loop holds. -/
theorem test_deadlock : (loopOf (engineOf [3, 16]) (engineOf [3, 16]) []).deadlocked = true ∧
    (loopOf (engineOf [3, 16]) (engineOf [3, 16]) [1]).deadlocked = false := by decide
/-- R250, R206: an unseeded loop is deadlocked though a stage at an input has no grant, which would lift nothing; a stage at
another instruction waits for its grant, and the loop is not. -/
theorem test_deadlock_ungranted :
    (loopOf (engineOf [3, 16]) { engineOf [3, 16] with grant := .none } []).deadlocked = true ∧
    (loopOf (engineOf [3, 16]) { engineOf [104, 5] with grant := .none } []).deadlocked = false := by decide
/-- The host's placing: HLT runs as the first instruction after reset. -/
theorem test_withFetchWord : (engineAfter (State.reset.withFetchWord 64 99)).map (fun e => (e.status, e.pc)) =
    some (.halted, 0) := by decide

/-! ### Witnesses: for every statement with hypotheses, a machine and operands that meet all of them -/

theorem witness_DecodeInvertsEncode : (Instr.add .relative .immediate .relative).wellFormed = true ∧
    (Instr.halt .immediate .immediate .immediate).wellFormed = true := by decide

/-- Both sides of the equivalence, at the least and at the greatest word of an instruction. -/
theorem witness_DecodeReadsLowFiveDigits :
    (0 ≤ (1 : Word).toInt ∧ (Instr.add .position .position .position).wellFormed = true ∧
      (1 : Word).toInt % 100000 = (encodeNat (.add .position .position .position) : Int)) ∧
    0 ≤ (wordOf 9223372036854722299).toInt ∧ (Instr.halt .relative .relative .relative).wellFormed = true ∧
      (wordOf 9223372036854722299).toInt % 100000 = (encodeNat (.halt .relative .relative .relative) : Int) := by decide

/-- Every clause at the edges of its range. -/
theorem witness_DecodeErrorsByCause :
    ([300, 3000, 30000, 900, 9000, 90000] : List Word).all (fun v =>
      decide (0 ≤ v.toInt ∧ (3 ≤ v.toInt / 100 % 10 ∨ 3 ≤ v.toInt / 1000 % 10 ∨ 3 ≤ v.toInt / 10000 % 10))) = true ∧
    ([BitVec.ofInt 64 (-1), 0, 10, 98, 22200, 22298] : List Word).all (fun v =>
      decide (v.toInt < 0 ∨ (v.toInt / 100 % 10 < 3 ∧ v.toInt / 1000 % 10 < 3 ∧ v.toInt / 10000 % 10 < 3 ∧
        (v.toInt % 100 = 0 ∨ (10 ≤ v.toInt % 100 ∧ v.toInt % 100 ≤ 98))))) = true ∧
    ([10001, 10002, 10007, 12208, 103, 22103] : List Word).all (fun v =>
      decide (((v.toInt % 100 = 1 ∨ v.toInt % 100 = 2 ∨ v.toInt % 100 = 7 ∨ v.toInt % 100 = 8) ∧
        v.toInt / 10000 % 10 = 1) ∨ (v.toInt % 100 = 3 ∧ v.toInt / 100 % 10 = 1))) = true := by decide

/-- A3, its second step: a relative value and a relative address; and a cause of each kind. -/
theorem witness_ReadOperandResolves :
    (∃ e : Engine, e.val .relative 1 = .ok 20) ∧ (∃ e : Engine, e.val .position 1 = .error .negativeAddress) ∧
      ∃ e : Engine, e.val .immediate 1 = .error .arithmeticOverflow :=
  ⟨⟨{ engineOf [109, 10, 22201, -3, -2, -1, 99, 20, 22, 0] with pc := 2, rb := 10 }, by decide⟩, ⟨engineOf [1, -1, 0, 0, 99], by decide⟩,
    ⟨{ engineOf [] with pc := wordOf wordMax }, by decide⟩⟩

theorem witness_WriteOperandResolves : Mode.relative ≠ .immediate ∧
    (∃ e : Engine, e.addr .relative 3 = .ok 9) ∧ (∃ e : Engine, e.addr .position 3 = .error .negativeAddress) ∧
      ∃ e : Engine, e.addr .relative 1 = .error .arithmeticOverflow :=
  ⟨by decide, ⟨{ engineOf [109, 10, 22201, -3, -2, -1, 99, 20, 22, 0] with pc := 2, rb := 10 }, by decide⟩,
    ⟨engineOf [1101, 1, 1, -1, 99], by decide⟩, ⟨{ engineOf [203, 1] with rb := wordOf wordMax }, by decide⟩⟩

/-- A canonical memory, stores at the least and the greatest address, one of them twice, and a negative address. -/
theorem witness_MemoryKeepsWrites : Memory.wf [(0, 7), (3, 9)] = true ∧ (0 : Int) ≤ (wordOf wordMax).toInt ∧
    (wordOf (-1)).toInt < 0 ∧
    ∀ w ∈ ([(0, 5), (wordOf wordMax, 6), (0, 0)] : List (Word × Word)), 0 ≤ w.1.toInt :=
  ⟨by decide, by decide, by decide, by
    intro w hw
    rcases List.mem_cons.mp hw with rfl | hw
    · decide
    rcases List.mem_cons.mp hw with rfl | hw
    · decide
    rcases List.mem_cons.mp hw with rfl | hw
    · decide
    · cases hw⟩

theorem witness_MemoryFormIsCanonical : (([7, 0, 0, 9] : List Word).length : Int) ≤ wordMax + 1 ∧
    (0 : Int) ≤ (wordOf wordMax).toInt ∧ Memory.wf (Memory.write [(3, 9)] 0 7) = true ∧
    Memory.wf [(0, 7), (3, 9)] = true ∧
    ∀ a, Memory.read (Memory.write [(3, 9)] 0 7) a = Memory.read [(0, 7), (3, 9)] a :=
  ⟨by decide, by decide, by decide, by decide, by
    rw [show Memory.write [(3, 9)] 0 7 = [(0, 7), (3, 9)] from by decide]; exact fun _ => rfl⟩

/-- P3: each clause, the store at 6 read as parameter 2 of the instruction at 4 and not as its parameter 1. -/
theorem witness_StoreSeenByNextFetch : (engineOf [1101, 100, 4, 6, 1101, 0, 0, 8, 0, 8, 99]).mem.wf = true ∧
    (0 : Int) ≤ (6 : Word).toInt ∧ (4 : Word) ≠ 6 ∧ (4 : Word).toInt + (2 : Nat) = (6 : Word).toInt ∧
    (4 : Word).toInt + (1 : Nat) ≠ (6 : Word).toInt ∧ (wordOf wordMax).toInt + (0 : Nat) = (wordOf wordMax).toInt := by
  decide

/-- M1 and M7: all three operands the instruction word itself; the extremes that fit. -/
theorem witness_AddStoresSum :
    (machine [1, 0, 0, 0, 99] []).engine? = some (engineOf [1, 0, 0, 0, 99]) ∧
    (engineOf [1, 0, 0, 0, 99]).mem.wf = true ∧ (engineOf [1, 0, 0, 0, 99]).val .position 1 = .ok 1 ∧
    (engineOf [1, 0, 0, 0, 99]).val .position 2 = .ok 1 ∧ (engineOf [1, 0, 0, 0, 99]).addr .position 3 = .ok 0 ∧
    Fits ((engineOf [1, 0, 0, 0, 99]).pc.toInt + 4) ∧ Fits ((1 : Word).toInt + (1 : Word).toInt) ∧
    Fits ((wordOf wordMax).toInt + (wordOf wordMin).toInt) :=
  ⟨rfl, by decide, rfl, rfl, rfl, by decide, by decide, by decide⟩

/-- S2 and M9. -/
theorem witness_MultiplyStoresProduct :
    (machine [1002, 4, 3, 4, 33] []).engine? = some (engineOf [1002, 4, 3, 4, 33]) ∧
    (engineOf [1002, 4, 3, 4, 33]).mem.wf = true ∧ (engineOf [1002, 4, 3, 4, 33]).val .position 1 = .ok 33 ∧
    (engineOf [1002, 4, 3, 4, 33]).val .immediate 2 = .ok 3 ∧ (engineOf [1002, 4, 3, 4, 33]).addr .position 3 = .ok 4 ∧
    Fits ((engineOf [1002, 4, 3, 4, 33]).pc.toInt + 4) ∧ Fits ((33 : Word).toInt * (3 : Word).toInt) ∧
    Fits ((wordOf (-4611686018427387904)).toInt * (2 : Word).toInt) :=
  ⟨rfl, by decide, rfl, rfl, rfl, by decide, by decide, by decide⟩

/-- C6 and C13 and J10's operand: a result, a write to immediate, and a first cause in a memory mode. -/
theorem witness_LessThanRule :
    ((machine [1107, -1, 0, 5, 99, 7] []).engine? = some (engineOf [1107, -1, 0, 5, 99, 7]) ∧
      (engineOf [1107, -1, 0, 5, 99, 7]).mem.wf = true ∧
      (engineOf [1107, -1, 0, 5, 99, 7]).val .immediate 1 = .ok (wordOf (-1)) ∧
      (engineOf [1107, -1, 0, 5, 99, 7]).val .immediate 2 = .ok 0 ∧
      (engineOf [1107, -1, 0, 5, 99, 7]).addr .position 3 = .ok 5 ∧
      Fits ((engineOf [1107, -1, 0, 5, 99, 7]).pc.toInt + 4)) ∧
    (machine [11107, 1, 2, 3, 99] []).engine? = some (engineOf [11107, 1, 2, 3, 99]) ∧
    FirstRaise (engineOf [1107, 0, 0, -1]) (paramsOf (.lessThan .immediate .immediate .position)) 1 .negativeAddress ∧
    FirstRaise { engineOf [] with pc := wordOf wordMax } (paramsOf (.lessThan .position .position .position)) 1
      .arithmeticOverflow := by
  refine ⟨⟨rfl, by decide, rfl, rfl, rfl, by decide⟩, rfl, ?_, .inl (.inl (.inl ⟨by decide, rfl⟩))⟩
  exact .inr ⟨⟨0, 0, ⟨by decide, by decide, rfl⟩, rfl⟩, .inr ⟨⟨0, 0, ⟨by decide, by decide, rfl⟩, rfl⟩,
    .inl (.inr ⟨wordOf (-1), ⟨by decide, by decide, rfl⟩, .inr ⟨by decide, by decide, rfl⟩⟩)⟩⟩

/-- C10, F24, and an address sum that does not fit. -/
theorem witness_EqualRule :
    ((machine [8, 5, 6, 7, 99, 3, 3, -1] []).engine? = some (engineOf [8, 5, 6, 7, 99, 3, 3, -1]) ∧
      (engineOf [8, 5, 6, 7, 99, 3, 3, -1]).mem.wf = true ∧
      (engineOf [8, 5, 6, 7, 99, 3, 3, -1]).val .position 1 = .ok 3 ∧
      (engineOf [8, 5, 6, 7, 99, 3, 3, -1]).val .position 2 = .ok 3 ∧
      (engineOf [8, 5, 6, 7, 99, 3, 3, -1]).addr .position 3 = .ok 7 ∧
      Fits ((engineOf [8, 5, 6, 7, 99, 3, 3, -1]).pc.toInt + 4)) ∧
    (machine [10108, 1, 2, 3] []).engine? = some (engineOf [10108, 1, 2, 3]) ∧
    FirstRaise { engineOf [208, 1] with rb := wordOf wordMax } (paramsOf (.equal .relative .position .position)) 1
      .arithmeticOverflow :=
  ⟨⟨rfl, by decide, rfl, rfl, rfl, by decide⟩, rfl,
    .inl (.inr ⟨1, ⟨by decide, by decide, rfl⟩, .inl ⟨by decide, rfl⟩⟩)⟩

/-- A1 and the second step of A3: the same operands in position and in relative mode, the second program moved so that both
stand at the same `pc`. -/
theorem witness_AddressingModesAreEquivalent :
    ∃ (s s' : State) (e e' : Engine) (t : State) (f : Engine),
      s.engine? = some e ∧ s'.engine? = some e' ∧ e.mem.wf = true ∧ e'.mem.wf = true ∧ e.pc = e'.pc ∧
      e.val .position 1 = .ok 20 ∧ e'.val .relative 1 = .ok 20 ∧ e.val .position 2 = .ok 22 ∧
      e'.val .relative 2 = .ok 22 ∧ e.addr .position 3 = .ok 9 ∧ e'.addr .relative 3 = .ok 9 ∧
      exec (Op.add.instr .position .position .position) s = .next t ∧ t.engine? = some f ∧ f.status ≠ .fatal :=
  ⟨machine [1, 7, 8, 9, 99, 0, 0, 20, 22, 0] [],
    machineOf { engineOf [22201, -3, -2, -1, 99, 0, 0, 20, 22, 0] with rb := 10 } [],
    engineOf [1, 7, 8, 9, 99, 0, 0, 20, 22, 0], { engineOf [22201, -3, -2, -1, 99, 0, 0, 20, 22, 0] with rb := 10 },
    machineOf { engineOf [1, 7, 8, 9, 99, 0, 0, 20, 22, 42] with pc := 4 } [],
    { engineOf [1, 7, 8, 9, 99, 0, 0, 20, 22, 42] with pc := 4 },
    rfl, rfl, by decide, by decide, rfl, rfl, rfl, rfl, rfl, rfl, rfl, rfl, rfl, by decide⟩

/-- M5, M8 and B5: each clause just beyond the range. -/
theorem witness_ResultOverflowIsFatal :
    ((machine [1101, 9223372036854775807, 1, 5] []).engine? = some (engineOf [1101, 9223372036854775807, 1, 5]) ∧
      (engineOf [1101, 9223372036854775807, 1, 5]).val .immediate 1 = .ok (wordOf wordMax) ∧
      (engineOf [1101, 9223372036854775807, 1, 5]).val .immediate 2 = .ok 1 ∧
      (engineOf [1101, 9223372036854775807, 1, 5]).addr .position 3 = .ok 5 ∧
      Fits ((engineOf [1101, 9223372036854775807, 1, 5]).pc.toInt + 4) ∧
      ¬ Fits ((wordOf wordMax).toInt + (1 : Word).toInt)) ∧
    ((engineOf [1102, 4611686018427387904, 2, 5]).val .immediate 1 = .ok (wordOf 4611686018427387904) ∧
      (engineOf [1102, 4611686018427387904, 2, 5]).val .immediate 2 = .ok 2 ∧
      (engineOf [1102, 4611686018427387904, 2, 5]).addr .position 3 = .ok 5 ∧
      ¬ Fits ((wordOf 4611686018427387904).toInt * (2 : Word).toInt)) ∧
    ((engineOf [109, 1]).val .immediate 1 = .ok 1 ∧ Fits ((engineOf [109, 1]).pc.toInt + 2) ∧
      ¬ Fits ((wordOf wordMax).toInt + (1 : Word).toInt)) :=
  ⟨⟨rfl, rfl, rfl, rfl, by decide, by decide⟩, ⟨rfl, rfl, rfl, by decide⟩, ⟨rfl, by decide, by decide⟩⟩

/-- J5; and a condition of zero. -/
theorem witness_JumpIfTrueSetsPc :
    (machine [5, 7, 8, 99, 104, 7, 99, -2, 4] []).engine? = some (engineOf [5, 7, 8, 99, 104, 7, 99, -2, 4]) ∧
    (engineOf [5, 7, 8, 99, 104, 7, 99, -2, 4]).val .position 1 = .ok (wordOf (-2)) ∧
    (engineOf [5, 7, 8, 99, 104, 7, 99, -2, 4]).val .position 2 = .ok 4 ∧
    Fits ((engineOf [5, 7, 8, 99, 104, 7, 99, -2, 4]).pc.toInt + 3) ∧
    (engineOf [1105, 0, -3, 99]).val .immediate 1 = .ok 0 ∧
    (engineOf [1105, 0, -3, 99]).val .immediate 2 = .ok (wordOf (-3)) := ⟨rfl, rfl, rfl, by decide, rfl, rfl⟩

/-- J3. -/
theorem witness_JumpIfFalseSetsPc :
    (machine [1106, 0, 4, 99, 104, 7, 99] []).engine? = some (engineOf [1106, 0, 4, 99, 104, 7, 99]) ∧
    (engineOf [1106, 0, 4, 99, 104, 7, 99]).val .immediate 1 = .ok 0 ∧
    (engineOf [1106, 0, 4, 99, 104, 7, 99]).val .immediate 2 = .ok 4 ∧
    Fits ((engineOf [1106, 0, 4, 99, 104, 7, 99]).pc.toInt + 3) := ⟨rfl, rfl, rfl, by decide⟩

/-- B2, its first step: a base below zero. -/
theorem witness_AdjustAddsToRelativeBase :
    (machine [109, -7, 109, 10, 99] []).engine? = some (engineOf [109, -7, 109, 10, 99]) ∧
    (engineOf [109, -7, 109, 10, 99]).val .immediate 1 = .ok (wordOf (-7)) ∧
    Fits ((engineOf [109, -7, 109, 10, 99]).pc.toInt + 2) ∧
    Fits ((engineOf [109, -7, 109, 10, 99]).rb.toInt + (wordOf (-7)).toInt) := ⟨rfl, rfl, by decide, by decide⟩

theorem witness_OnlyAdjustWritesRelativeBase :
    ∃ (s t : State) (e e' : Engine), (Instr.add .position .position .position).op ≠ .adjustRelativeBase ∧
      s.engine? = some e ∧ exec (.add .position .position .position) s = .next t ∧ t.engine? = some e' :=
  ⟨machineOf { engineOf [1, 0, 0, 0, 99] with rb := 7 } [], _, _, _, by decide, rfl, rfl, rfl⟩

theorem witness_HaltStopsEngine : (machine [99] []).engine? = some (engineOf [99]) := rfl

/-- I1, its second step, and I7: an input that overwrites its own parameter word. -/
theorem witness_InputStoresHead :
    (machine [3, 1, 99] [99]).engine? = some (engineOf [3, 1, 99]) ∧ (engineOf [3, 1, 99]).mem.wf = true ∧
    (engineOf [3, 1, 99]).addr .position 1 = .ok 1 ∧ Fits ((engineOf [3, 1, 99]).pc.toInt + 2) ∧
    (machine [3, 1, 99] [99]).channels[(machine [3, 1, 99] [99]).active]? = some (Channel.fresh [99]) ∧
    (Channel.fresh [99]).q = 99 :: [] := ⟨rfl, by decide, rfl, by decide, rfl, rfl⟩

/-- I2. -/
theorem witness_InputHoldsWhileEmpty :
    (machine [3, 0, 99] []).engine? = some (engineOf [3, 0, 99]) ∧ (engineOf [3, 0, 99]).addr .position 1 = .ok 0 ∧
    Fits ((engineOf [3, 0, 99]).pc.toInt + 2) ∧
    (machine [3, 0, 99] []).channels[(machine [3, 0, 99] []).active]? = some (Channel.fresh []) ∧
    (Channel.fresh []).q = [] ∧ (Channel.fresh []).txLive = true := ⟨rfl, rfl, by decide, rfl, rfl, rfl⟩

/-- H9, H10: a stage that holds, with its turn on an empty agenda and on one that is not, and with a value to be sent; and one
that holds without a grant. -/
theorem witness_HoldRule :
    ((machineOf { engineOf [3, 0, 99] with grant := .none } []).holds 0 = true ∧
      ({ engineOf [3, 0, 99] with grant := .none } : Engine).grant = .none ∧ (engineOf [3, 0, 99]).grant ≠ .none) ∧
    (machine [3, 0, 99] []).holds 0 = true ∧ (machine [3, 0, 99] []).engines[0]? = some (engineOf [3, 0, 99]) ∧
    (machine [3, 0, 99] []).channels[0]? = some (Channel.fresh []) ∧ (engineOf [3, 0, 99]).mem.wf = true ∧
    TurnOf (machine [3, 0, 99] []) 0 (machine [3, 0, 99] []) ∧
    TurnOf { machine [3, 0, 99] [] with agenda := [.stage 0] } 0 (machine [3, 0, 99] []) ∧
    (∃ t, step { machine [3, 0, 99] [] with agenda := [.host (.send 0 8)] } = .next t) ∧
    KeepsComposition { machine [3, 0, 99] [] with agenda := [.host (.send 0 8)] } :=
  ⟨by decide, by decide, rfl, rfl, by decide, .inl ⟨rfl, rfl, rfl⟩, .inr ⟨[], rfl, rfl⟩, ⟨_, rfl⟩,
    by simp [KeepsComposition]⟩

/-- S3 under `to_halt`, Y1 under `yield_after_output`, and the last stage of a loop. -/
theorem witness_OutputSendsValue :
    ((machine [104, 1125899906842624, 99] []).engine? = some (engineOf [104, 1125899906842624, 99]) ∧
      (engineOf [104, 1125899906842624, 99]).val .immediate 1 = .ok (wordOf 1125899906842624) ∧
      Fits ((engineOf [104, 1125899906842624, 99]).pc.toInt + 2) ∧
      (machine [104, 1125899906842624, 99] []).channels[(machine [104, 1125899906842624, 99] []).outChannel]? =
        some (Channel.fresh []) ∧
      (Channel.fresh []).rxLive = true ∧ (engineOf [104, 1125899906842624, 99]).grant ≠ .yieldAfterOutput) ∧
    ({ engineOf [104, 1, 104, 2, 99] with grant := .yieldAfterOutput } : Engine).grant = .yieldAfterOutput ∧
    ((loopOf (engineOf [99]) (engineOf [104, 43, 99]) []).config.topology = .feedbackLoop ∧
      (1 + 1) % (loopOf (engineOf [99]) (engineOf [104, 43, 99]) []).config.nStages = 0) :=
  ⟨⟨rfl, rfl, by decide, rfl, rfl, by decide⟩, rfl, rfl, rfl⟩

/-- H6 and H7. -/
theorem witness_BrokenChannelIsFatal :
    (∃ (s : State) (e : Engine) (ch : Channel), s.engine? = some e ∧ Fits (e.pc.toInt + 2) ∧ e.addr .position 1 = .ok 0 ∧
      s.channels[s.active]? = some ch ∧ ch.q = [] ∧ ch.txLive = false) ∧
    ∃ (s : State) (e : Engine) (ch : Channel), s.engine? = some e ∧ Fits (e.pc.toInt + 2) ∧ e.val .immediate 1 = .ok 5 ∧
      s.channels[s.outChannel]? = some ch ∧ ch.rxLive = false :=
  ⟨⟨{ machine [3, 0, 99] [] with channels := [{ q := [], txLive := false, rxLive := true }, Channel.fresh []] },
      engineOf [3, 0, 99], { q := [], txLive := false, rxLive := true }, rfl, by decide, rfl, rfl, rfl, rfl⟩,
    { machine [104, 5, 99] [] with channels := [Channel.fresh [], { q := [], txLive := true, rxLive := false }] },
    engineOf [104, 5, 99], { q := [], txLive := true, rxLive := false }, rfl, by decide, rfl, rfl, rfl⟩

/-- An input that takes a value and an output that adds one. -/
theorem witness_QueuesMoveByOneValue :
    (∃ (t : State) (ch' : Channel), exec (.input .position .position .position) (machine [3, 0, 99] [9]) = .next t ∧
      (machine [3, 0, 99] [9]).channels[0]? = some (Channel.fresh [9]) ∧ t.channels[0]? = some ch' ∧ ch'.q = []) ∧
    ∃ (t : State) (ch' : Channel), exec (.output .immediate .position .position) (machine [104, 5, 99] []) = .next t ∧
      (machine [104, 5, 99] []).channels[1]? = some (Channel.fresh []) ∧ t.channels[1]? = some ch' ∧ ch'.q = [5] :=
  ⟨⟨_, _, rfl, rfl, rfl, rfl⟩, ⟨_, _, rfl, rfl, rfl, rfl⟩⟩

theorem witness_LastIsWhatTheFeedbackLinkGot :
    ∃ t : State, exec (.output .immediate .position .position)
        { loopOf (engineOf [99]) (engineOf [104, 43, 99]) [] with active := 1 } = .next t ∧
      t.last ≠ ({ loopOf (engineOf [99]) (engineOf [104, 43, 99]) [] with active := 1 } : State).last :=
  ⟨_, rfl, by decide⟩

/-- F12: the second operand; and a next `pc` beyond the range: `HALT` apart, the shortest instruction at the last address
but one. -/
theorem witness_OperandFaultsInOrder :
    ((machine [2001, 5, -3, 6, 99, 100, 0] []).engine? = some (engineOf [2001, 5, -3, 6, 99, 100, 0]) ∧
      (Instr.add .position .relative .position).wellFormed = true ∧ (Instr.add .position .relative .position).op ≠ .halt ∧
      FirstRaise (engineOf [2001, 5, -3, 6, 99, 100, 0]) (paramsOf (.add .position .relative .position)) 1
        .negativeAddress) ∧
    FirstRaise { engineOf [] with pc := wordOf 9223372036854775806 } (paramsOf (.output .immediate .position .position)) 1
      .arithmeticOverflow := by
  refine ⟨⟨rfl, rfl, by decide, .inr ⟨⟨100, 5, ⟨by decide, by decide, rfl⟩, ⟨by decide, by decide, rfl⟩⟩, .inl ?_⟩⟩,
    .inr ⟨⟨0, 0, ⟨by decide, by decide, rfl⟩, rfl⟩, by decide, rfl⟩⟩
  exact .inr ⟨wordOf (-3), ⟨by decide, by decide, rfl⟩, .inr ⟨by decide, by decide, rfl⟩⟩

theorem witness_WriteToImmediateIsFatal :
    (machine [103, 0, 99] [5]).engine? = some (engineOf [103, 0, 99]) ∧
    (Instr.input .immediate .position .position).wellFormed = false := ⟨rfl, rfl⟩

/-- J7, its second step, and F2, F5, F1: each clause, on an empty agenda and on one that is not. -/
theorem witness_FetchAndDecodeFaults :
    TurnOf (machine [0] []) 0 (machine [0] []) ∧
    TurnOf { machine [0] [] with agenda := [.stage 0, .stage 0] } 0 { machine [0] [] with agenda := [.stage 0] } ∧
    (machine [0] []).engine? = some (engineOf [0]) ∧ (engineOf [0]).status = .running ∧
    (engineOf [0]).grant ≠ .none ∧ (0 : Int) ≤ (engineOf [0]).pc.toInt ∧ (wordOf (-3)).toInt < 0 ∧
    decode ((engineOf [0]).mem.read (engineOf [0]).pc.toNat) = .error .unknownOpcode ∧
    decode ((engineOf [301]).mem.read (engineOf [301]).pc.toNat) = .error .unknownMode ∧
    decode ((engineOf [11101]).mem.read (engineOf [11101]).pc.toNat) = .error .writeToImmediate :=
  ⟨.inl ⟨rfl, rfl, rfl⟩, .inr ⟨[.stage 0], rfl, rfl⟩, rfl, rfl, by decide, by decide, by decide, by decide, by decide,
    by decide⟩

/-- F10: the exception is taken, by the instruction and by the turn, and a turn of the fatal engine follows. -/
theorem witness_FatalErrorsArePrecise :
    ∃ (s t : State) (e e' : Engine), s.engine? = some e ∧ e.status ≠ .fatal ∧ t.engine? = some e' ∧ e'.status = .fatal ∧
      exec (.add .immediate .immediate .position) s = .next t ∧ TurnOf s 0 s ∧ step s = .next t ∧
      t.engines[0]? = some e' ∧ TurnOf { t with agenda := [.stage 0] } 0 t :=
  ⟨machine [1101, 1, 1, -1, 99] [], (machine [1101, 1, 1, -1, 99] []).raise (engineOf [1101, 1, 1, -1, 99]) .negativeAddress,
    engineOf [1101, 1, 1, -1, 99], (engineOf [1101, 1, 1, -1, 99]).fatal .negativeAddress,
    rfl, by decide, rfl, rfl, rfl, .inl ⟨rfl, rfl, rfl⟩, rfl, rfl, .inr ⟨[], rfl, rfl⟩⟩

theorem witness_NoInstructionStopsTheModel :
    (machine [99] []).engine? = some (engineOf [99]) ∧ Wired (machine [99] []) ∧
    Wired (loopOf (engineOf [99]) (engineOf [99]) []) := ⟨rfl, by decide, by decide⟩

/-- The turn of the active stage, and another stage's turn. -/
theorem witness_StepRunsDecodedInstruction :
    TurnOf (machine [1002, 4, 3, 4, 33] []) 0 (machine [1002, 4, 3, 4, 33] []) ∧
    (machine [1002, 4, 3, 4, 33] []).engines[0]? = some (engineOf [1002, 4, 3, 4, 33]) ∧
    (engineOf [1002, 4, 3, 4, 33]).status = .running ∧ (engineOf [1002, 4, 3, 4, 33]).grant ≠ .none ∧
    Fetches (engineOf [1002, 4, 3, 4, 33]) (.mul .position .immediate .position) ∧
    TurnOf { loopOf (engineOf [99]) (engineOf [1002, 4, 3, 4, 33]) [] with agenda := [.stage 1] } 1
      { loopOf (engineOf [99]) (engineOf [1002, 4, 3, 4, 33]) [] with active := 1 } ∧
    (loopOf (engineOf [99]) (engineOf [1002, 4, 3, 4, 33]) []).engines[1]? = some (engineOf [1002, 4, 3, 4, 33]) :=
  ⟨.inl ⟨rfl, rfl, rfl⟩, rfl, rfl, by decide, ⟨by decide, rfl⟩, .inr ⟨[], rfl, rfl⟩, rfl⟩

/-- A stage with no grant, one that is not there, and one that holds, by either kind of turn. -/
theorem witness_DisabledStageTakesNoStep :
    TurnOf State.reset 0 State.reset ∧
    TurnOf { State.reset with agenda := [.stage 5] } 5 { State.reset with active := 5 } ∧
    (∀ e, State.reset.engines[0]? = some e → e.status ≠ .running ∨ e.grant = .none) ∧
    (∀ e, State.reset.engines[5]? = some e → e.status ≠ .running ∨ e.grant = .none) ∧
    (machine [3, 0, 99] []).engines[0]? = some (engineOf [3, 0, 99]) ∧ (engineOf [3, 0, 99]).grant ≠ .none ∧
    (machine [3, 0, 99] []).holds 0 = true ∧ TurnOf (machine [3, 0, 99] []) 0 (machine [3, 0, 99] []) :=
  ⟨.inl ⟨rfl, rfl, rfl⟩, .inr ⟨[], rfl, rfl⟩, fun e h => .inr (by cases h; rfl), fun e h => (by cases h), rfl, by decide,
    by decide, .inl ⟨rfl, rfl, rfl⟩⟩

theorem witness_TerminatedEnginesStay :
    ∃ (s t : State) (e : Engine), step s = .next t ∧ KeepsComposition s ∧ s.engines[0]? = some e ∧ e.status ≠ .running :=
  ⟨{ machineOf { engineOf [99] with status := .halted, grant := .none } [] with agenda := [.host (.runToHalt 0)] },
    _, _, rfl, by simp [KeepsComposition], rfl, by decide⟩

/-- A turn at the head of the agenda and one on an empty agenda. -/
theorem witness_StagesAreIsolated :
    (∃ s u t : State, TurnOf s 1 u ∧ step s = .next t ∧ s.agenda = [.stage 1]) ∧
    (∃ s t : State, TurnOf s 1 s ∧ step s = .next t) ∧ (5 : Nat) ≠ 1 ∧
    5 ≠ inChannelOf (loopOf (engineOf [99]) (engineOf [99]) []).config 1 ∧
    5 ≠ outChannelOf (loopOf (engineOf [99]) (engineOf [99]) []).config 1 :=
  ⟨⟨{ loopOf (engineOf [99]) (engineOf [104, 43, 99]) [] with agenda := [.stage 1] }, _, _, .inr ⟨[], rfl, rfl⟩, rfl, rfl⟩,
    ⟨{ loopOf (engineOf [99]) (engineOf [104, 43, 99]) [] with active := 1 }, _, .inl ⟨rfl, rfl, rfl⟩, rfl⟩,
    by decide, by decide, by decide⟩

/-- An output in two machines: engines that differ in what they have yielded, input queues that differ, the second machine another
topology and another kind of turn. -/
theorem witness_StepDependsOnOwnState :
    ∃ (s s' u u' : State) (e e' : Engine), TurnOf s 0 u ∧ TurnOf s' 0 u' ∧ u.engine? = some e ∧ u'.engine? = some e' ∧
      e ≠ e' ∧ u.channels ≠ u'.channels ∧ e.status = .running ∧ e'.status = .running ∧ e.pc = e'.pc ∧ e.rb = e'.rb ∧
      e.mem = e'.mem ∧ e.grant = e'.grant ∧ Wired u ∧ Wired u' ∧
      (∀ m1 m2 m3, Fetches e (.input m1 m2 m3) → ∀ c c' : Channel, u.channels[u.inChannel]? = some c →
        u'.channels[u'.inChannel]? = some c' → c.q.head? = c'.q.head? ∧ c.txLive = c'.txLive) ∧
      (∀ m1 m2 m3, Fetches e (.output m1 m2 m3) → ∀ c c' : Channel, u.channels[u.outChannel]? = some c →
        u'.channels[u'.outChannel]? = some c' → c.rxLive = c'.rxLive) := by
  refine ⟨machine [104, 5, 99] [7, 8],
    { loopOf { engineOf [104, 5, 99] with yielded := some 1 } (engineOf [99]) [9] with agenda := [.stage 0] },
    machine [104, 5, 99] [7, 8], loopOf { engineOf [104, 5, 99] with yielded := some 1 } (engineOf [99]) [9],
    engineOf [104, 5, 99], { engineOf [104, 5, 99] with yielded := some 1 },
    .inl ⟨rfl, rfl, rfl⟩, .inr ⟨[], rfl, rfl⟩, rfl, rfl, by decide, by decide, rfl, rfl, rfl, rfl, rfl, rfl, by decide,
    by decide, ?_, ?_⟩
  · rintro m1 m2 m3 ⟨_, h⟩
    have hd : decode ((engineOf [104, 5, 99]).mem.read (engineOf [104, 5, 99]).pc.toNat) =
      .ok (.output .immediate .position .position) := by decide
    rw [hd] at h; cases h
  · intro _ _ _ _ c c' h h'
    cases h; cases h'; rfl

/-- The other stage's turn, and the host's run of a stage without a grant. -/
theorem witness_RunningEnginesAreNotDisturbed :
    (∃ (s t : State) (e : Engine), s.engines[0]? = some e ∧ e.status = .running ∧ e.grant ≠ .none ∧ step s = .next t ∧
      (∀ u, ¬ TurnOf s 0 u) ∧ KeepsComposition s) ∧
    ∃ (s t : State) (e : Engine), s.engines[0]? = some e ∧ e.status = .running ∧ step s = .next t ∧
      (∀ u, ¬ TurnOf s 0 u) ∧ KeepsComposition s :=
  ⟨⟨{ loopOf (engineOf [99]) (engineOf [104, 43, 99]) [] with active := 1 }, _, _, rfl, rfl, by decide, rfl,
      by simp [TurnOf, loopOf, State.reset], by simp [KeepsComposition, loopOf, State.reset]⟩,
    ⟨{ State.reset with agenda := [.host (.runToHalt 0)] }, _, _, rfl, rfl, rfl, by simp [TurnOf],
      by simp [KeepsComposition]⟩⟩

/-- A loop in the middle of a run, and its next state. -/
theorem witness_StepKeepsInvariant :
    ∃ t, Inv (loopOf (engineOf [3, 16]) (engineOf [104, 5]) [1]) ∧
      step (loopOf (engineOf [3, 16]) (engineOf [104, 5]) [1]) = .next t := ⟨_, by decide, rfl⟩

/-- A machine one of whose sides has been dropped, and whose active engine halts. -/
theorem witness_StepKeepsDropRule :
    ∃ s t : State, Inv s ∧ DropsInv s ∧ (∃ ch ∈ s.channels, ch.rxLive = false) ∧ step s = .next t :=
  ⟨{ loopOf { engineOf [99] with status := .halted, grant := .none } (engineOf [99]) [] with
      channels := [{ q := [43], txLive := true, rxLive := false }, Channel.fresh []], active := 1 },
    _, by decide, by decide, by decide, rfl⟩

/-- The invariant with a transaction that is refused, and with a stage to move. -/
theorem witness_InvariantStepNeverFaults :
    Inv { machine [99] [] with agenda := [.host (.send 1 5)] } ∧ Inv (machine [99] []) ∧
    step { machine [99] [] with agenda := [.host (.send 1 5)] } = .refused .transaction := ⟨by decide, by decide, rfl⟩

/-- Two stages of a loop, each of which sends to the other. -/
theorem witness_EnabledStagesCommute :
    Inv (loopOf (engineOf [3, 16]) (engineOf [104, 5]) [1]) ∧ DropsInv (loopOf (engineOf [3, 16]) (engineOf [104, 5]) [1]) ∧
    (loopOf (engineOf [3, 16]) (engineOf [104, 5]) [1]).config.dropPolicy ≠ .onTerminate ∧ (0 : Nat) ≠ 1 ∧
    (loopOf (engineOf [3, 16]) (engineOf [104, 5]) [1]).enabled 0 = true ∧
    (loopOf (engineOf [3, 16]) (engineOf [104, 5]) [1]).enabled 1 = true := by decide

/-- P5, an unseeded loop, and one whose second stage has no grant and gets one next; P4, a pipeline whose seed never comes,
and one whose seed comes next. -/
theorem witness_DeadlockIsStuck :
    (∃ s t : State, s.stalled = true ∧ s.deadlocked = true ∧ s.agenda = [.host (.runToHalt 1)] ∧ step s = .next t) ∧
    (loopOf (engineOf [3, 16]) (engineOf [3, 16]) []).deadlocked = true ∧
    TurnOf { loopOf (engineOf [3, 16]) (engineOf [3, 16]) [] with agenda := [.stage 1] } 1
      { loopOf (engineOf [3, 16]) (engineOf [3, 16]) [] with active := 1 } ∧
    (machine [3, 0, 99] []).stalled = true ∧ (machine [3, 0, 99] []).deadlocked = true ∧
    ({ machine [3, 0, 99] [] with agenda := [.host (.send 0 8)] } : State).stalled = true ∧
    (machine [3, 0, 99] []).config.topology = .pipeline ∧ (machine [3, 0, 99] []).holds 0 = true ∧
    (machine [3, 0, 99] []).engines[0]? = some (engineOf [3, 0, 99]) ∧ (engineOf [3, 0, 99]).grant ≠ .none ∧
    (machine [3, 0, 99] []).channels[0]? = some (Channel.fresh []) ∧ (Channel.fresh []).rxLive = true :=
  ⟨⟨{ loopOf (engineOf [3, 16]) { engineOf [3, 16] with grant := .none } [] with agenda := [.host (.runToHalt 1)] }, _,
      by decide, by decide, rfl, rfl⟩,
    by decide, .inr ⟨[], rfl, rfl⟩, by decide, by decide, by decide, rfl, by decide, rfl, by decide, rfl, rfl⟩

/-- The designated stage halts at the first step; nothing is over before it. -/
theorem witness_LoopResultIsLastAtEnd :
    ∃ s t : State, 1 ≤ 3 ∧ core.run 1 s = .next t ∧ t.runOver = true ∧
      ∀ j u, j < 1 → core.run j s = .next u → u.runOver = false :=
  ⟨{ loopOf (engineOf [3, 16]) (engineOf [99]) [] with active := 1, last := some 43 }, _, by decide, rfl, by decide,
    fun j u hj h => by obtain rfl : j = 0 := by omega
                       cases h; decide⟩

/-- A line whose one stage has halted and a loop whose designated stage has, each with a move to come; and a loop whose
designated stage is fatal. -/
theorem witness_RunOverRule :
    (machineOf { engineOf [99] with status := .halted, grant := .none } []).config.topology = .pipeline ∧
    (loopOf (engineOf [104, 5]) { engineOf [99] with status := .halted, grant := .none } []).runOver = true ∧
    (loopOf (engineOf [104, 5]) { engineOf [99] with status := .halted, grant := .none } []).config.topology =
      .feedbackLoop ∧
    (loopOf (engineOf [104, 5]) { engineOf [0] with status := .fatal, grant := .none } []).engines[1]? =
      some { engineOf [0] with status := .fatal, grant := .none } ∧
    (∀ c, Event.host (.newComposition c) ∉
      ({ loopOf (engineOf [104, 5]) { engineOf [0] with status := .fatal, grant := .none } [] with
        agenda := [.stage 0] } : State).agenda) :=
  ⟨rfl, by decide, rfl, rfl, by simp⟩

theorem witness_RunOverIsFinal :
    (∃ s t : State, step s = .next t ∧ KeepsComposition s ∧ s.agenda = [Event.stage 0] ∧ s.runOver = true ∧
      s.config.topology = .pipeline ∧ s.endedWell = true) ∧
    ∃ s t : State, step s = .next t ∧ KeepsComposition s ∧ s.agenda = [Event.stage 0] ∧ s.runOver = true ∧
      s.config.topology = .feedbackLoop ∧ s.endedWell = true ∧ ∀ e ∈ t.engines, e.status ≠ .fatal :=
  ⟨⟨{ machineOf { engineOf [99] with status := .halted, grant := .none } [] with agenda := [.stage 0] }, _, rfl,
      by simp [KeepsComposition], rfl, rfl, rfl, rfl⟩,
    ⟨{ loopOf (engineOf [104, 5]) { engineOf [99] with status := .halted, grant := .none } [] with agenda := [.stage 0] },
      _, rfl, by simp [KeepsComposition], rfl, rfl, rfl, rfl, by decide⟩⟩

/-- T5 and Y1: a fresh engine, a terminated one, one that has a grant, and a composition with a channel still to be made. -/
theorem witness_RunTransactionsGrant :
    ({ State.reset with agenda := [.host (.runUntilBlocked 0)] } : State).built = true ∧
    State.reset.engines[0]? = some (Engine.fresh []) ∧ (Engine.fresh []).grant = .none ∧
    (Engine.fresh []).status = .running ∧ ({ Engine.fresh [] with status := .halted } : Engine).status ≠ .running ∧
    (machine [99] []).engines[0]? = some (engineOf [99]) ∧ (engineOf [99]).grant ≠ .none ∧
    ({ State.reset with channels := [Channel.fresh []] } : State).channels.length < channelCount State.reset.config := by
  decide

/-- F29 and F27, and a composition with every stage loaded. -/
theorem witness_LoadMakesFreshEngine :
    ({ State.reset with engines := [] } : State).engines.length < ({ State.reset with engines := [] } : State).config.nStages ∧
    parseProgram [' ', '9', '9', ' ', ',', '\n', ' ', '0', ' '] = some [99, 0] ∧
    (([99, 0] : List Word).length : Int) ≤ wordMax + 1 ∧ parseProgram [] = none ∧
    State.reset.config.nStages ≤ State.reset.engines.length := by decide

/-- Each clause: a loop of two stages, parameters without a stage and with a designated stage one too high, its feedback link,
the next channel, a second seed, and a channel too many. -/
theorem witness_BuildingTransactions :
    (1 ≤ (loopOf (engineOf []) (engineOf []) []).config.nStages ∧
      (loopOf (engineOf []) (engineOf []) []).config.haltStage < (loopOf (engineOf []) (engineOf []) []).config.nStages) ∧
    (({ Config.reset with nStages := 0 } : Config).nStages = 0 ∧
      ({ Config.reset with haltStage := 1 } : Config).nStages ≤ ({ Config.reset with haltStage := 1 } : Config).haltStage) ∧
    (({ State.reset with channels := [] } : State).channels.length < channelCount State.reset.config) ∧
    ((loopOf (engineOf []) (engineOf []) []).config.topology = .feedbackLoop ∧
      ({ loopOf (engineOf []) (engineOf []) [] with channels := [] } : State).channels = [] ∧
      (loopOf (engineOf []) (engineOf []) []).config.wf) ∧
    (State.reset.config.topology = .pipeline ∨ State.reset.channels ≠ []) ∧
    channelCount State.reset.config ≤ State.reset.channels.length := by decide

/-- H2, H5 and H4 as the host sees them on the two ends of a pipeline of one stage. -/
theorem witness_HostSeedsAndDrainsPipeline :
    State.reset.config.topology = .pipeline ∧ (machine [] [4]).channels[0]? = some (Channel.fresh [4]) ∧
    (Channel.fresh [4]).rxLive = true ∧ ({ q := [4], txLive := true, rxLive := false } : Channel).rxLive = false ∧
    (machine [] []).channels[(machine [] []).config.nStages]? = some (Channel.fresh []) ∧
    (Channel.fresh []).q = [] ∧ (Channel.fresh []).txLive = true ∧ (Channel.fresh [4]).q = 4 :: [] ∧
    ({ q := [], txLive := false, rxLive := true } : Channel).txLive = false ∧
    ({ q := [5], txLive := true, rxLive := false } : Channel).rxLive = false := by decide

/-- A line of five and a loop of one, the stage at the end of each. -/
theorem witness_WiringIsOneToOne :
    ({ topology := .pipeline, nStages := 5, haltStage := 4, dropPolicy := .free } : Config).wf ∧
    ({ topology := .feedbackLoop, nStages := 1, haltStage := 0, dropPolicy := .free } : Config).wf ∧
    outChannelOf { topology := .pipeline, nStages := 5, haltStage := 4, dropPolicy := .free } 4 = 5 ∧
    outChannelOf { topology := .feedbackLoop, nStages := 1, haltStage := 0, dropPolicy := .free } 0 = 0 := by decide

/-- The sides that the one stage of a pipeline holds, and both sides of every channel of a loop. -/
theorem witness_HostUsesOnlyItsOwnSides :
    holderOf State.reset.config 1 .send = .stage 0 ∧ holderOf State.reset.config 0 .receive = .stage 0 ∧
    holderOf (loopOf (engineOf []) (engineOf []) []).config 0 .send = .stage 1 ∧
    (State.reset.config.dropPolicy ≠ .hostOnly ∨ State.reset.terminatedStage 0 = false) := by decide

/-- Each clause: the host's side, a side of a stage that has terminated, under `free` and under `host_only`, and of one that has
not, and another policy. -/
theorem witness_DropsChangeOnlyTheirSide :
    State.reset.channels[1]? = some (Channel.fresh []) ∧ holderOf State.reset.config 1 .receive = .host ∧
    holderOf State.reset.config 1 .send = .stage 0 ∧ State.reset.config.dropPolicy = .free ∧
    (machineOf { engineOf [] with status := .fatal } []).terminatedStage 0 = true ∧
    State.reset.terminatedStage 0 = false ∧ DropPolicy.onTerminate ≠ .free ∧
    ({ machineOf { engineOf [] with status := .halted } [] with
      config := { Config.reset with dropPolicy := .hostOnly } } : State).config.dropPolicy = .hostOnly ∧
    holderOf { Config.reset with dropPolicy := .hostOnly } 1 .send = .stage 0 ∧
    ({ machineOf { engineOf [] with status := .halted } [] with
      config := { Config.reset with dropPolicy := .hostOnly } } : State).terminatedStage 0 = true := by decide

theorem witness_PlacedWordRunsNext : decodeTableWord 256 1101 = some (.add .immediate .immediate .position) ∧
    decodeTableWord 64 99 = some (.halt .position .position .position) := by decide

end Sys2Proof.Tests
end

section
/-! SUPPORT. The state family (spec/10_state.md): what a turn, a drop and a transaction leave of an engine, that each of them
keeps `Safety.Inv`, and the statements of the family. -/

namespace Sys2Proof.Proofs

open Sys2Proof.Machine Sys2Proof.Safety Sys2Proof.Laws

/-! ### What a move leaves of the engines -/

/-- A move of an instruction changes nothing around the active engine (R65, R232). -/
theorem moves_sameAround {s t : State} {e : Engine} {i : Instr} (h : Moves s e i t) : SameAround s t := by
  cases h with
  | raised c => exact sameAround_terminated s _
  | committed e' _ => exact sameAround_setEngine s _
  | received ch v rest d npc => exact sameAround_setEngine (s.setChannel _ _) _
  | held => exact ⟨rfl, rfl, rfl, rfl, rfl, rfl, fun _ _ => rfl⟩
  | sent ch v npc => exact sameAround_setEngine (State.setChannel { s with last := s.lastAfterSend v } _ _) _
  | halted => exact sameAround_terminated s _

/-- The turn of a stage leaves every other engine, and its own where that is not ready (R110, R127). -/
theorem stageTurn_keeps_engine {j k : Nat} {s t : State} {e : Engine} (h : stageTurn j s = .next t)
    (he : s.engines[k]? = some e) (hk : e.ready = false) : t.engines[k]? = some e := by
  obtain rfl | ⟨f, i, hf, hr, hm⟩ := stageTurn_next h
  · exact he
  · have hkj : k ≠ j := by rintro rfl; simp_all
    obtain ⟨_, _, _, _, _, _, hother⟩ := moves_sameAround hm
    exact (hother k hkj).trans he

/-- Short of a fresh composition a transaction of the host leaves an engine as it is, or starts a run of it, which only one
without a grant can be given (R244). -/
theorem hostMoves_engine {s t : State} {r : Transaction} {k : Nat} {e : Engine} (h : HostMoves s r t)
    (hr : ∀ c, r ≠ .newComposition c) (he : s.engines[k]? = some e) :
    t.engines[k]? = some e ∨ (e.grant = .none ∧ ∃ g, t.engines[k]? = some (e.granted g)) := by
  cases h with
  | built c _ => exact absurd rfl (hr c)
  | channel | sent | received | told => exact .inl he
  | loaded text f hl _ => exact .inl (List.getElem?_append_left (List.getElem?_eq_some_iff.mp he).1 |>.trans he)
  | granted _ g j f _ hf _ hg =>
    by_cases hjk : j = k
    · subst hjk
      obtain rfl : f = e := by simpa [hf] using he
      exact .inr ⟨hg, g, by simp [(List.getElem?_eq_some_iff.mp he).1]⟩
    · exact .inl (by simpa [hjk] using he)
  | dropped ch side _ => exact .inl (by simpa using he)

/-- A run transaction on a terminated engine clears `yielded` and does nothing else (R127). -/
theorem granted_of_terminated {e : Engine} (g : Grant) (h : e.status ≠ .running) :
    e.granted g = { e with yielded := none } := by
  simp [Engine.granted, Engine.terminated, h]

/-- Whatever moves, short of a fresh composition, an engine that has terminated stays as it is but for a cleared `yielded`. -/
theorem step_keeps_terminated {s t : State} {k : Nat} {e : Engine} (h : step s = .next t) (hc : KeepsComposition s)
    (he : s.engines[k]? = some e) (hs : e.status ≠ .running) :
    t.engines[k]? = some e ∨ t.engines[k]? = some { e with yielded := none } := by
  have hr : e.ready = false := by simp [Engine.ready, hs]
  obtain ⟨_, h⟩ | ⟨j, rest, _, h⟩ | ⟨ch, side, rest, _, h⟩ | ⟨r, rest, ha, h⟩ := step_next h
  · exact .inl (stageTurn_keeps_engine h he hr)
  · exact .inl (stageTurn_keeps_engine h he hr)
  · obtain rfl | ⟨_, _, _, _, rfl⟩ := interconnectDrop_next h
    · exact .inl he
    · exact .inl (by simpa using he)
  · have hr : ∀ c, r ≠ .newComposition c := by rintro c rfl; exact hc c rest ha
    obtain h | ⟨_, g, h⟩ := hostMoves_engine h hr he
    · exact .inl h
    · exact .inr (granted_of_terminated g hs ▸ h)

/-- Settles O37: from what each move leaves of an engine that is not running. -/
theorem terminatedEnginesStay : Obligations.TerminatedEnginesStay := by
  intro s t k e h hc he hs
  obtain h | h := step_keeps_terminated h hc he hs
  · exact ⟨_, h, rfl, rfl, rfl, rfl, rfl, rfl, .inl rfl⟩
  · exact ⟨_, h, rfl, rfl, rfl, rfl, rfl, rfl, .inr rfl⟩

/-! ### The relative base -/

/-- The engine after a move of an instruction has its old base, unless the instruction is adjust-relative-base (R26). -/
theorem moves_base {s t : State} {e : Engine} {i : Instr} (he : s.engine? = some e) (h : Moves s e i t)
    (hi : i.op ≠ .adjustRelativeBase) : ∃ e', t.engine? = some e' ∧ e'.rb = e.rb := by
  have hlt := engine_lt he
  cases h with
  | raised c => exact ⟨e.fatal c, by simp [State.raise, setEngine_engine _ _ hlt], rfl⟩
  | committed e' hl => exact ⟨e', setEngine_engine s e' hlt, hl.base.resolve_left hi⟩
  | received => exact ⟨_, setEngine_engine (s.setChannel _ _) _ hlt, rfl⟩
  | held => exact ⟨e, he, rfl⟩
  | sent ch v npc =>
    exact ⟨_, setEngine_engine (State.setChannel { s with last := s.lastAfterSend v } _ _) _ hlt, afterOutput_rb _ v⟩
  | halted => exact ⟨_, (terminated_engine _).trans (setEngine_engine s _ hlt), rfl⟩

/-- Settles O20: by the moves an instruction can make. -/
theorem onlyAdjustWritesRelativeBase : Obligations.OnlyAdjustWritesRelativeBase := by
  intro i s t e e' hi he h he'
  obtain ⟨f, hf, hm⟩ := exec_next h
  obtain rfl : e = f := by simpa [he] using hf
  obtain ⟨g, hg, hrb⟩ := moves_base he hm hi
  obtain rfl : e' = g := by simpa [he'] using hg
  exact hrb

/-! ### Turns that do nothing -/

/-- An input whose checks pass, on an empty queue with a live sender, changes nothing (R206). -/
theorem exec_input_hold {s : State} {e : Engine} {m1 m2 m3 : Mode} {p : Word × Word} {ch : Channel}
    (he : s.engine? = some e) (hp : e.inputPlan m1 = .ok p) (hc : s.channels[s.inChannel]? = some ch) (hq : ch.q = [])
    (ht : ch.txLive = true) : exec (.input m1 m2 m3) s = .next s := by
  show execInput m1 s = .next s
  unfold execInput
  rw [withEngine_some he, attempt_ok hp, withChannel_some hc]
  simp [Channel.recv, hq, ht]

/-- As its turn begins a stage is bound to the input queue it is bound to by the wiring (R34). -/
theorem turnOf_inputChannel {s u : State} {k : Nat} (h : TurnOf s k u) :
    u.channels[u.inChannel]? = s.channels[inChannelOf s.config k]? := by
  obtain ⟨hconfig, _, hchannels, _⟩ := turnOf_same h
  rw [State.inChannel, turnOf_active h, hconfig, hchannels]

/-- The turn of a stage that has a grant and holds does nothing but begin. -/
theorem step_turn_held_granted {s u : State} {k : Nat} {e : Engine} (h : TurnOf s k u) (he : s.engines[k]? = some e)
    (hg : e.grant ≠ .none) (hh : s.holds k = true) : step s = .next u := by
  obtain ⟨f, m1, m2, m3, p, ch, hf, hs, hd, hp, hc, hq, ht⟩ := holds_iff.mp hh
  obtain rfl : e = f := by simpa [he] using hf
  have hu : u.engine? = some e := (turnOf_engine h).trans he
  rw [step_turn_ready h hu (ready_iff.mpr ⟨hs, hg⟩), attempt_ok hd]
  exact exec_input_hold hu hp ((turnOf_inputChannel h).trans hc) hq ht

/-- Settles O36: a stage that is not ready idles, and one that is ready and holds runs an input that holds. -/
theorem disabledStageTakesNoStep : Obligations.DisabledStageTakesNoStep := by
  intro s u k h
  refine ⟨fun hidle => step_turn_idle h fun e he => ?_, fun e he hg hh => step_turn_held_granted h he hg hh⟩
  obtain hs | hg := hidle e ((turnOf_engine h).symm.trans he)
  · simp [Engine.ready, hs]
  · simp [Engine.ready, hg]

/-! ### The invariant of an engine -/

/-- A freshly loaded engine meets the invariant where its memory is canonical (R41). -/
theorem engineInv_fresh {m : Memory} (h : m.wf = true) : EngineInv (Engine.fresh m) :=
  ⟨h, by simp [Engine.fresh], fun _ => rfl, fun _ => rfl⟩

/-- An engine loaded from a text meets the invariant (R300). -/
theorem engineInv_loaded {text : List Char} {e : Engine} (h : loadEngine text = some e) :
    EngineInv e ∧ e.grant = .none := by
  unfold loadEngine at h
  split at h
  · rename_i ws _
    split at h
    · rename_i hl; cases h; exact ⟨engineInv_fresh (ofWords_wf ws hl), rfl⟩
    · cases h
  · cases h

/-- Taking an exception writes the fault record and the status together, and takes the grant (R270). -/
theorem engineInv_fatal {e : Engine} (c : Cause) (h : EngineInv e) : EngineInv (e.fatal c) :=
  ⟨h.1, by simp, fun _ => rfl, by simp⟩

/-- A halt is of an engine without a fault record (R190). -/
theorem engineInv_halted {e : Engine} (h : EngineInv e) (hs : e.status = .running) :
    EngineInv { e with status := .halted, grant := .none } := by
  obtain ⟨hmem, hfault, _, _⟩ := h
  refine ⟨hmem, ?_, fun _ => rfl, fun hg => absurd rfl hg⟩
  simpa [hs] using hfault

/-- The invariant looks at memory and the run registers alone; of memory, at its form. -/
theorem engineInv_sameRun {e e' : Engine} (h : EngineInv e) (hm : e'.mem.wf = true) (hr : SameRun e e') :
    EngineInv e' := by
  obtain ⟨hstatus, hfault, hgrant, hyielded⟩ := hr
  obtain ⟨_, hrun⟩ := h
  rw [EngineInv, hstatus, hfault, hgrant, hyielded]
  exact ⟨hm, hrun⟩

/-- A completed memory, jump or base instruction stores at a valid address at most (R53). -/
theorem engineInv_local {P : Prop} {e e' : Engine} (h : EngineInv e) (hl : Local P e e') : EngineInv e' := by
  refine engineInv_sameRun h ?_ hl.run
  obtain hm | ⟨d, v, hd, hm⟩ := hl.store
  · exact hm ▸ h.1
  · exact hm ▸ write_word_wf h.1 hd

/-- After an output the engine yields only as it gives the grant back (R126). -/
theorem engineInv_afterOutput {e : Engine} (v : Word) (h : EngineInv e) : EngineInv (e.afterOutput v) := by
  by_cases hg : e.grant = .yieldAfterOutput
  · obtain ⟨hgrant, _⟩ := afterOutput_yield e v hg
    obtain ⟨hmem, hfault, _, _⟩ := h
    exact ⟨by simpa using hmem, by simpa using hfault, fun _ => hgrant, fun hn => absurd hgrant hn⟩
  · rw [afterOutput_stay e v hg]; exact h

/-- A run transaction clears `yielded`, and grants a running engine alone (R125, R127). -/
theorem engineInv_granted {e : Engine} (g : Grant) (h : EngineInv e) : EngineInv (e.granted g) := by
  obtain ⟨hmem, hfault, hgrant, _⟩ := h
  by_cases hs : e.status = .running
  · have : e.granted g = { e with grant := g, yielded := none } := by simp [Engine.granted, Engine.terminated, hs]
    exact this ▸ ⟨hmem, hfault, fun hn => absurd hs hn, fun _ => rfl⟩
  · exact granted_of_terminated g hs ▸ ⟨hmem, hfault, hgrant, fun _ => rfl⟩

/-! ### The invariant of the machine -/

/-- Whether a composition is built is a matter of its parameters and of how many stages and channels it has. -/
theorem built_congr {s t : State} (hc : t.config = s.config) (he : t.engines.length = s.engines.length)
    (hch : t.channels.length = s.channels.length) : t.built = s.built := by
  simp only [State.built, hc, he, hch]

/-- Every stage of a machine that meets the invariant meets its own. -/
theorem inv_engine {s : State} {k : Nat} {e : Engine} (h : Inv s) (he : s.engines[k]? = some e) : EngineInv e := by
  obtain ⟨_, _, _, heng, _, _⟩ := h
  exact heng e (List.mem_of_getElem? he)

/-- A stage has a grant only in a composition that is built (R303). -/
theorem inv_built {s : State} {k : Nat} {e : Engine} (h : Inv s) (he : s.engines[k]? = some e) (hg : e.grant ≠ .none) :
    s.built = true := by
  obtain ⟨_, _, _, _, hgrant, _⟩ := h
  exact hgrant e (List.mem_of_getElem? he) hg

/-- In a composition not yet built no engine has a grant (R303). -/
theorem inv_ungranted {s : State} {e : Engine} (h : Inv s) (hb : s.built ≠ true) (he : e ∈ s.engines) :
    e.grant = .none := by
  obtain ⟨_, _, _, _, hgrant, _⟩ := h
  by_contra hg
  exact hb (hgrant e he hg)

/-- A move that changes no parameter and no engine, makes no channel, and sets LAST on no pipeline keeps the invariant. -/
theorem inv_of_sameEngines {s t : State} (h : Inv s) (hc : t.config = s.config) (he : t.engines = s.engines)
    (hch : t.channels.length = s.channels.length) (hl : s.config.topology = .pipeline → t.last = s.last) : Inv t := by
  obtain ⟨hwf, hne, hnc, heng, hgrant, hlast⟩ := h
  rw [Safety.Inv, hc, he, hch, built_congr hc (by rw [he]) hch]
  exact ⟨hwf, hne, hnc, heng, hgrant, fun hp => (hl hp).trans (hlast hp)⟩

/-- A move that writes one engine, makes no channel and sets LAST on no pipeline keeps the invariant, if the engine written
meets its own and has a grant only in a composition that is built. -/
theorem inv_of_setEngine {s t : State} {k : Nat} {e' : Engine} (h : Inv s) (hc : t.config = s.config)
    (he : t.engines = s.engines.set k e') (hch : t.channels.length = s.channels.length)
    (hl : s.config.topology = .pipeline → t.last = s.last) (hi : EngineInv e') (hg : e'.grant ≠ .none → s.built = true) :
    Inv t := by
  obtain ⟨hwf, hne, hnc, heng, hgrant, hlast⟩ := h
  rw [Safety.Inv, hc, he, hch, built_congr hc (by simp [he]) hch, List.length_set]
  refine ⟨hwf, hne, hnc, fun f hf => ?_, fun f hf => ?_, fun hp => (hl hp).trans (hlast hp)⟩
  · obtain hf | rfl := List.mem_or_eq_of_mem_set hf
    · exact heng f hf
    · exact hi
  · obtain hf | rfl := List.mem_or_eq_of_mem_set hf
    · exact hgrant f hf
    · exact hg

/-- On a pipeline an output leaves LAST as it was (R239). -/
theorem lastAfterSend_pipeline {s : State} (v : Word) (h : s.config.topology = .pipeline) : s.lastAfterSend v = s.last := by
  simp [State.lastAfterSend, h]

/-- Every move of an instruction of a running engine keeps the invariant. -/
theorem moves_keeps_inv {s t : State} {e : Engine} {i : Instr} (h : Inv s) (he : s.engine? = some e)
    (hs : e.status = .running) (hg : e.grant ≠ .none) (hm : Moves s e i t) : Inv t := by
  have hb : s.built = true := inv_built h he hg
  have hi : EngineInv e := inv_engine h he
  cases hm with
  | raised c =>
    exact inv_of_setEngine (k := s.active) h (by simp [State.raise]) (by simp [State.raise]) (by simp [State.raise])
      (fun _ => by simp [State.raise]) (engineInv_fatal c hi) (fun _ => hb)
  | committed e' hl => exact inv_of_setEngine h rfl rfl rfl (fun _ => rfl) (engineInv_local hi hl) (fun _ => hb)
  | received ch v rest d npc _ _ _ hd =>
    exact inv_of_setEngine h rfl rfl (by simp) (fun _ => rfl)
      (engineInv_sameRun hi (write_word_wf hi.1 hd) ⟨rfl, rfl, rfl, rfl⟩) (fun _ => hb)
  | held => exact h
  | sent ch v npc =>
    have hnpc : EngineInv { e with pc := npc } := engineInv_sameRun hi hi.1 ⟨rfl, rfl, rfl, rfl⟩
    exact inv_of_setEngine h rfl rfl (by simp) (lastAfterSend_pipeline v) (engineInv_afterOutput v hnpc) (fun _ => hb)
  | halted =>
    exact inv_of_setEngine (k := s.active) h (by simp) (by simp) (by simp) (fun _ => by simp) (engineInv_halted hi hs)
      (fun _ => hb)

/-- The turn of any stage keeps the invariant. -/
theorem stageTurn_keeps_inv {k : Nat} {s t : State} (h : Inv s) (ht : stageTurn k s = .next t) : Inv t := by
  obtain rfl | ⟨e, i, he, hr, hm⟩ := stageTurn_next ht
  · exact h
  · obtain ⟨hs, hg⟩ := ready_iff.mp hr
    have hk : Inv { s with active := k } := inv_of_sameEngines h rfl rfl rfl fun _ => rfl
    exact moves_keeps_inv hk he hs hg hm

/-- Every drop keeps the invariant. -/
theorem dropSide_keeps_inv {s : State} (ch : Nat) (side : Side) (h : Inv s) : Inv (s.dropSide ch side) :=
  inv_of_sameEngines h (by simp) (by simp) (by simp) fun _ => by simp

/-- Making a channel keeps the invariant: there was room for one, so nothing had a grant yet (R303). -/
theorem makeChannel_keeps_inv {s t : State} {ch : Channel} (h : Inv s) (hroom : s.channels.length < channelCount s.config)
    (hc : t.config = s.config) (he : t.engines = s.engines) (hch : t.channels = s.channels ++ [ch])
    (hl : t.last = s.last) : Inv t := by
  have hb : s.built ≠ true := by simp [State.built]; omega
  have hnone := fun e => inv_ungranted (e := e) h hb
  obtain ⟨hwf, hne, _, heng, _, hlast⟩ := h
  rw [Safety.Inv, hc, he, hch, hl, List.length_append]
  exact ⟨hwf, hne, hroom, heng, fun e he hg => absurd (hnone e he) hg, hlast⟩

/-- Loading a stage keeps the invariant: there was room for one, so nothing had a grant yet (R303). -/
theorem loadStage_keeps_inv {s t : State} {f : Engine} (h : Inv s) (hroom : s.engines.length < s.config.nStages)
    (hf : EngineInv f) (hg : f.grant = .none) (hc : t.config = s.config) (he : t.engines = s.engines ++ [f])
    (hch : t.channels = s.channels) (hl : t.last = s.last) : Inv t := by
  have hb : s.built ≠ true := by simp [State.built]; omega
  have hnone := fun e => inv_ungranted (e := e) h hb
  obtain ⟨hwf, _, hnc, heng, _, hlast⟩ := h
  rw [Safety.Inv, hc, he, hch, hl, List.length_append]
  refine ⟨hwf, hroom, hnc, fun e he => ?_, fun e he hg' => ?_, hlast⟩
  · obtain he | rfl := List.mem_append.mp he |>.imp_right List.mem_singleton.mp
    · exact heng e he
    · exact hf
  · obtain he | rfl := List.mem_append.mp he |>.imp_right List.mem_singleton.mp
    · exact absurd (hnone e he) hg'
    · exact absurd hg hg'

/-- Every transaction of the host keeps the invariant. -/
theorem hostMoves_keeps_inv {s t : State} {r : Transaction} (h : Inv s) (hm : HostMoves s r t) : Inv t := by
  cases hm with
  | built c hc => exact ⟨hc, Nat.zero_le _, Nat.zero_le _, by simp, by simp, fun _ => rfl⟩
  | channel seed q hl => exact makeChannel_keeps_inv h hl rfl rfl rfl rfl
  | loaded text e hl he =>
    obtain ⟨hi, hg⟩ := engineInv_loaded he
    exact loadStage_keeps_inv h hl hi hg rfl rfl rfl rfl
  | granted _ g k e _ he hb _ =>
    exact inv_of_setEngine h rfl rfl rfl (fun _ => rfl) (engineInv_granted g (inv_engine h he)) (fun _ => hb)
  | sent | received => exact inv_of_sameEngines h rfl rfl (by simp) fun _ => rfl
  | told => exact inv_of_sameEngines h rfl rfl rfl fun _ => rfl
  | dropped ch side _ => exact inv_of_sameEngines (dropSide_keeps_inv ch side h) rfl rfl rfl fun _ => rfl

/-- Settles O43: by the agents a step can be of. -/
theorem stepKeepsInvariant : Obligations.StepKeepsInvariant := by
  intro s t h hstep
  have htaken (rest : List Event) : Inv { s with agenda := rest } := inv_of_sameEngines h rfl rfl rfl fun _ => rfl
  obtain ⟨_, ht⟩ | ⟨k, rest, _, ht⟩ | ⟨ch, side, rest, _, ht⟩ | ⟨r, rest, _, hm⟩ := step_next hstep
  · exact stageTurn_keeps_inv h ht
  · exact stageTurn_keeps_inv (htaken rest) ht
  · obtain rfl | ⟨_, _, _, _, rfl⟩ := interconnectDrop_next ht
    · exact htaken rest
    · exact dropSide_keeps_inv ch side (htaken rest)
  · exact hostMoves_keeps_inv (htaken rest) hm

/-! ### Reset -/

/-- Settles O41: its one engine is as right after a load of nothing, and both sides of its two channels are live. -/
theorem resetMeetsInvariants : Obligations.ResetMeetsInvariants := by
  have hengine : EngineInv (Engine.fresh []) := engineInv_fresh rfl
  refine ⟨⟨by decide, by decide, by decide, ?_, by decide, fun _ => rfl⟩, by decide⟩
  simpa [State.reset] using hengine

/-- Settles O42: reset's engine is fresh with no program, and memory that lists nothing reads zero (R38). -/
theorem resetState : Obligations.ResetState :=
  ⟨Engine.fresh [], Channel.fresh [], Channel.fresh [], rfl, rfl, rfl, rfl, rfl, fun _ => rfl, rfl, rfl, rfl, rfl, rfl, rfl,
    rfl, rfl, rfl, rfl⟩

end Sys2Proof.Proofs
end

section
/-! SUPPORT. The memory family (spec/20_memory.md): what a list of stores leaves at an address, that the canonical form is
determined by what it reads, what a fetch and a parameter read see of a store, what a stage's turn leaves of the channels, and
the statements of the family. -/

namespace Sys2Proof.Proofs

open Sys2Proof.Machine Sys2Proof.Safety Sys2Proof.Laws

/-! ### One store -/

/-- Where a store's address is valid, an address is the one stored to exactly if it has the same value as an integer (R51). -/
theorem eq_toNat_iff {d : Word} {a : Nat} (hd : 0 ≤ d.toInt) : a = d.toNat ↔ (a : Int) = d.toInt := by
  rw [toNat_of_nonneg hd]
  omega

/-- A store at a valid address is read at that address and at no other (R53). -/
theorem read_write_word {m : Memory} {d v : Word} {a : Nat} (hm : m.wf = true) (hd : 0 ≤ d.toInt) :
    (m.write d.toNat v).read a = if (a : Int) = d.toInt then v else m.read a := by
  split
  · next h => rw [(eq_toNat_iff hd).mpr h, read_write_same hm]
  · next h => exact read_write_other fun heq => h ((eq_toNat_iff hd).mp heq)

/-! ### A list of stores -/

/-- Memory after the stores of a list, the first one first; each is an address and the word stored there. -/
def storeAll (m : Memory) (ws : List (Word × Word)) : Memory := ws.foldl (fun m w => m.write w.1.toNat w.2) m

/-- The word that the last store to address `a` stores, if there is one. -/
def lastStored (ws : List (Word × Word)) (a : Nat) : Option Word :=
  (ws.reverse.find? fun w => w.1.toInt == (a : Int)).map (·.2)

@[simp] theorem storeAll_nil (m : Memory) : storeAll m [] = m := rfl

@[simp] theorem storeAll_concat (m : Memory) (ws : List (Word × Word)) (w : Word × Word) :
    storeAll m (ws ++ [w]) = (storeAll m ws).write w.1.toNat w.2 := by simp [storeAll]

@[simp] theorem lastStored_nil (a : Nat) : lastStored [] a = none := rfl

@[simp] theorem lastStored_concat (ws : List (Word × Word)) (w : Word × Word) (a : Nat) :
    lastStored (ws ++ [w]) a = if (a : Int) = w.1.toInt then some w.2 else lastStored ws a := by
  by_cases h : w.1.toInt = (a : Int)
  · simp [lastStored, h]
  · simp [lastStored, h, Ne.symm h]

/-- Stores at valid addresses keep the canonical form. -/
theorem storeAll_wf {m : Memory} {ws : List (Word × Word)} (hm : m.wf = true) (hws : ∀ w ∈ ws, 0 ≤ w.1.toInt) :
    (storeAll m ws).wf = true := by
  induction ws using List.reverseRecOn with
  | nil => exact hm
  | append_singleton ws w ih =>
    rw [storeAll_concat]
    exact write_word_wf (ih fun x hx => hws x (List.mem_append_left _ hx)) (hws w (by simp))

/-- Every address keeps its last written word, or the word it had (R50): by induction on the stores, the last one first. -/
theorem storeAll_read {m : Memory} {ws : List (Word × Word)} (a : Nat) (hm : m.wf = true)
    (hws : ∀ w ∈ ws, 0 ≤ w.1.toInt) : (storeAll m ws).read a = (lastStored ws a).getD (m.read a) := by
  induction ws using List.reverseRecOn with
  | nil => rfl
  | append_singleton ws w ih =>
    have hinit : ∀ x ∈ ws, 0 ≤ x.1.toInt := fun x hx => hws x (List.mem_append_left _ hx)
    rw [storeAll_concat, lastStored_concat, read_write_word (storeAll_wf hm hinit) (hws w (by simp)), ih hinit]
    split <;> rfl

/-- Settles O7: load, destination and single store are as their laws say, and the list of stores is `storeAll`. -/
theorem memoryKeepsWrites : Obligations.MemoryKeepsWrites := by
  refine ⟨fun ws a => ?_, fun _ => rfl, fun m d v a hm hd => read_write_word hm hd, fun m ws a hm hws => ?_⟩
  · simpa using ofWords_read 0 a ws
  · refine (storeAll_read a hm hws).trans ?_
    unfold lastStored
    cases ws.reverse.find? fun w => w.1.toInt == (a : Int) <;> rfl

/-! ### The canonical form -/

/-- A canonical memory that reads as zero everywhere lists nothing. -/
theorem eq_nil_of_read_zero {m : Memory} {lo : Nat} (h : Memory.wfFrom lo m = true) (hz : ∀ a, m.read a = 0) :
    m = [] := by
  cases m with
  | nil => rfl
  | cons p rest =>
    obtain ⟨b, w⟩ := p
    obtain ⟨_, _, hw, _⟩ := wfFrom_cons.mp h
    exact absurd (by simpa [read_cons] using hz b) hw

/-- The least address listed reads as no zero, so a canonical memory that reads alike lists no greater one as its least. -/
theorem least_le_of_read_eq {m m' : Memory} {lo lo' b c : Nat} {w x : Word} (h : Memory.wfFrom lo ((b, w) :: m) = true)
    (h' : Memory.wfFrom lo' ((c, x) :: m') = true)
    (heq : ∀ a, Memory.read ((b, w) :: m) a = Memory.read ((c, x) :: m') a) : c ≤ b := by
  obtain ⟨_, _, hw, _⟩ := wfFrom_cons.mp h
  obtain ⟨_, hc⟩ := wfFrom_cons.mp h'
  by_contra hlt
  have hzero : Memory.read ((c, x) :: m') b = 0 := read_below (wfFrom_cons.mpr ⟨le_refl c, hc⟩) (by omega)
  exact hw (by simpa [read_cons, hzero] using heq b)

/-- Memories that read alike from the same least address on read alike beyond it. -/
theorem read_tail_eq {m m' : Memory} {b : Nat} {w x : Word} (h : Memory.wfFrom (b + 1) m = true)
    (h' : Memory.wfFrom (b + 1) m' = true) (heq : ∀ a, Memory.read ((b, w) :: m) a = Memory.read ((b, x) :: m') a)
    (a : Nat) : m.read a = m'.read a := by
  by_cases ha : a = b
  · rw [read_below h (by omega), read_below h' (by omega)]
  · simpa [read_cons, ha] using heq a

/-- Canonical memories that read alike are equal: their least entries agree, and so do the rests. -/
theorem eq_of_read_eq {m m' : Memory} {lo lo' : Nat} (h : Memory.wfFrom lo m = true) (h' : Memory.wfFrom lo' m' = true)
    (heq : ∀ a, m.read a = m'.read a) : m = m' := by
  induction m generalizing m' lo lo' with
  | nil => exact (eq_nil_of_read_zero h' fun a => (heq a).symm).symm
  | cons p m ih =>
    cases m' with
    | nil => exact eq_nil_of_read_zero h heq
    | cons p' m' =>
      obtain ⟨b, w⟩ := p
      obtain ⟨c, x⟩ := p'
      obtain rfl : b = c :=
        le_antisymm (least_le_of_read_eq h' h fun a => (heq a).symm) (least_le_of_read_eq h h' heq)
      obtain rfl : w = x := by simpa [read_cons] using heq b
      obtain ⟨_, _, _, hm⟩ := wfFrom_cons.mp h
      obtain ⟨_, _, _, hm'⟩ := wfFrom_cons.mp h'
      rw [ih hm hm' (read_tail_eq hm hm' heq)]

/-- Settles O8: load and store by their own laws, and memories that read alike entry by entry. -/
theorem memoryFormIsCanonical : Obligations.MemoryFormIsCanonical :=
  ⟨ofWords_wf, fun _ _ _ => write_word_wf, fun _ _ => eq_of_read_eq⟩

/-! ### Fetch and parameter reads after a store -/

/-- The read of the address stored to gives the word stored. -/
theorem memRead_write_same {m : Memory} {d v : Word} (hm : m.wf = true) (hd : 0 ≤ d.toInt) :
    memRead (m.write d.toNat v) d = .ok v := by
  rw [memRead, if_neg (not_lt.mpr hd), read_write_same hm]

/-- The read of any other address gives what it gave, a negative one's exception included. -/
theorem memRead_write_other {m : Memory} {a d v : Word} (h : a ≠ d) : memRead (m.write d.toNat v) a = memRead m a := by
  have hne : a.toNat ≠ d.toNat := fun heq => h (BitVec.eq_of_toNat_eq heq)
  rw [memRead, memRead, read_write_other hne]

/-- A parameter read depends on `pc`, through the address it forms, and on what memory reads at that address (R113). -/
theorem param_congr {e e' : Engine} {i : Nat} (hpc : e'.pc = e.pc)
    (hmem : ∀ a, chk64 (e.pc.toInt + i) = .ok a → memRead e'.mem a = memRead e.mem a) : e'.param i = e.param i := by
  unfold Engine.param
  rw [hpc]
  cases ha : chk64 (e.pc.toInt + i) with
  | error c => rfl
  | ok a => exact hmem a ha

/-- The read of the parameter stored to gives the word stored. -/
theorem param_store_same {e : Engine} {d v pc : Word} {i : Nat} (hm : e.mem.wf = true) (hd : 0 ≤ d.toInt)
    (hi : pc.toInt + i = d.toInt) : Engine.param { e.store d v with pc := pc } i = .ok v := by
  rw [param_ok_iff, ParamIs, hi]
  refine ⟨hd, (toInt_fits d).2, ?_⟩
  rw [← toNat_of_nonneg hd]
  exact read_write_same hm

/-- The read of any other parameter gives what it gave, its exceptions included. -/
theorem param_store_other {e : Engine} {d v pc : Word} {i : Nat} (hi : pc.toInt + i ≠ d.toInt) :
    Engine.param { e.store d v with pc := pc } i = Engine.param { e with pc := pc } i := by
  refine param_congr rfl fun a ha => memRead_write_other ?_
  rintro rfl
  exact hi (chk64_ok_iff.mp ha).symm

/-- Settles O9: a fetch is the read of memory at `pc`, a parameter read the one at `pc + i`. -/
theorem storeSeenByNextFetch : Obligations.StoreSeenByNextFetch := by
  intro e d v pc' hm hd
  refine ⟨?_, memRead_write_other, fun i hi => param_store_same hm hd hi, fun i hi => param_store_other hi⟩
  rintro rfl
  exact memRead_write_same hm hd

/-! ### What a turn leaves of the channels -/

/-- The end of the active engine touches no channel but the two it is bound to (R208). -/
theorem terminated_otherChannel {s : State} {j : Nat} (hin : j ≠ s.inChannel) (hout : j ≠ s.outChannel) :
    s.terminated.channels[j]? = s.channels[j]? := by
  rw [terminated_channel]
  cases s.channels[j]? with
  | none => rfl
  | some ch => simp [hin, hout]

/-- A move of an instruction makes and removes no channel. -/
theorem moves_channels_length {s t : State} {e : Engine} {i : Instr} (h : Moves s e i t) :
    t.channels.length = s.channels.length := by
  cases h with
  | raised | halted => exact terminated_length _
  | committed | held => rfl
  | received | sent => exact List.length_set

/-- A move of an instruction touches no channel but the two its engine is bound to (R65, R232). -/
theorem moves_otherChannel {s t : State} {e : Engine} {i : Instr} {j : Nat} (h : Moves s e i t) (hin : j ≠ s.inChannel)
    (hout : j ≠ s.outChannel) : t.channels[j]? = s.channels[j]? := by
  cases h with
  | raised | halted => exact terminated_otherChannel (s := s.setEngine _) hin hout
  | committed | held => rfl
  | received => exact List.getElem?_set_ne hin.symm
  | sent => exact List.getElem?_set_ne hout.symm

/-- The step that is a stage's turn does nothing but take the turn, or makes one of the moves of an instruction (R110, R112). -/
theorem step_turn_next {s u t : State} {k : Nat} (h : TurnOf s k u) (hstep : step s = .next t) :
    t = { u with active := s.active } ∨ ∃ e i, Moves u e i t := by
  obtain ⟨ha, rfl, rfl⟩ | ⟨rest, ha, rfl⟩ := h
  · have hturn : stageTurn u.active u = .next t := by simpa only [step, nextMove, ha] using hstep
    obtain rfl | ⟨e, i, _, _, hm⟩ := stageTurn_next hturn
    · exact .inl rfl
    · exact .inr ⟨e, i, hm⟩
  · have hturn : stageTurn k { s with agenda := rest } = .next t := by simpa only [step, nextMove, ha, happen] using hstep
    obtain rfl | ⟨e, i, _, _, hm⟩ := stageTurn_next hturn
    · exact .inl rfl
    · exact .inr ⟨e, i, hm⟩

/-- Settles O38: a turn does nothing, or makes a move of an instruction, which keeps to its engine and its two channels. -/
theorem stagesAreIsolated : Obligations.StagesAreIsolated := by
  intro s u t k h hstep
  obtain rfl := turnOf_active h
  obtain ⟨hconfig, hengines, hchannels, _, hreceived, hreply⟩ := turnOf_same h
  rw [← hconfig, ← hengines, ← hchannels, ← hreceived, ← hreply]
  obtain rfl | ⟨e, i, hm⟩ := step_turn_next h hstep
  · exact ⟨rfl, rfl, rfl, rfl, rfl, fun _ _ => rfl, rfl, fun _ _ _ => rfl⟩
  · obtain ⟨hc, _, ha, hrec, hrep, hlen, hother⟩ := moves_sameAround hm
    exact ⟨hc, ha, hrec, hrep, hlen, hother, moves_channels_length hm, fun _ => moves_otherChannel hm⟩

end Sys2Proof.Proofs
end

section
/-! SUPPORT. The encoding family (spec/30_encoding.md): the decoder's tables read both ways, everything the decoder can answer,
what a term that no word decodes to does, that no move of a stage or of the interconnect stops the model, the grammar of program
text, and the statements of the family. -/

namespace Sys2Proof.Proofs

open Sys2Proof.Machine Sys2Proof.Safety Sys2Proof.Laws

/-! ### The tables of modes and opcodes -/

/-- The digits of modes are read back (R82). -/
theorem modeOfDigit_some_iff {d : Nat} {m : Mode} : modeOfDigit d = some m ↔ d = digitOfMode m := by
  constructor
  · intro h
    unfold modeOfDigit at h
    split at h <;> cases h <;> rfl
  · rintro rfl
    cases m <;> rfl

/-- The mode digits 0, 1 and 2 stand for modes and no other does (R82, R91). -/
theorem exists_digitOfMode_iff {d : Nat} : (∃ m, d = digitOfMode m) ↔ d < 3 := by
  constructor
  · rintro ⟨m, rfl⟩
    cases m <;> decide
  · intro h
    obtain rfl | rfl | rfl : d = 0 ∨ d = 1 ∨ d = 2 := by omega
    · exact ⟨.position, rfl⟩
    · exact ⟨.immediate, rfl⟩
    · exact ⟨.relative, rfl⟩

theorem modeOfDigit_none_iff {d : Nat} : modeOfDigit d = none ↔ 3 ≤ d := by
  rw [Option.eq_none_iff_forall_ne_some, ← not_lt, ← exists_digitOfMode_iff, not_exists]
  exact forall_congr' fun m => not_congr modeOfDigit_some_iff

theorem digitOfMode_lt (m : Mode) : digitOfMode m < 3 := exists_digitOfMode_iff.mp ⟨m, rfl⟩

/-- No operation stands in two rows of the opcode table and no number in two (R86). -/
theorem opOfCode_some_iff {code : Nat} {op : Op} : opOfCode code = some op ↔ code = codeOfOp op := by
  constructor
  · intro h
    obtain ⟨row, hfind, rfl⟩ := Option.map_eq_some_iff.mp h
    have hrow : row.1 = code := by simpa using List.find?_some hfind
    have hrows : ∀ row ∈ opcodeTable, row.1 = codeOfOp row.2 := by decide
    exact hrow ▸ hrows row (List.mem_of_find?_eq_some hfind)
  · rintro rfl
    cases op <;> rfl

/-- The numbers that are no opcode (R86, R90). -/
theorem opOfCode_none_iff {code : Nat} : opOfCode code = none ↔ code = 0 ∨ (10 ≤ code ∧ code ≠ 99) := by
  have hrows : opOfCode code = none ↔ ∀ row ∈ opcodeTable, row.1 ≠ code := by simp [opOfCode]
  rw [hrows]
  simp only [opcodeTable, List.forall_mem_cons, List.not_mem_nil, false_implies, implies_true,
    and_true, ne_eq]
  omega

theorem codeOfOp_range (op : Op) : codeOfOp op ≠ 0 ∧ (codeOfOp op < 10 ∨ codeOfOp op = 99) := by
  cases op <;> decide

/-! ### The words of instructions -/

@[simp] theorem instr_op (op : Op) (m1 m2 m3 : Mode) : (op.instr m1 m2 m3).op = op := by cases op <;> rfl

@[simp] theorem instr_modes (op : Op) (m1 m2 m3 : Mode) : (op.instr m1 m2 m3).modes = (m1, m2, m3) := by cases op <;> rfl

/-- An instruction is its operation and its three modes (R80). -/
@[simp] theorem op_instr (i : Instr) : i.op.instr i.modes.1 i.modes.2.1 i.modes.2.2 = i := by cases i <;> rfl

/-- R83, for every instruction. -/
theorem fields_of_instr (i : Instr) : Fields.Statement i := by
  cases i with
  | add m1 m2 m3 => exact Fields.add m1 m2 m3
  | mul m1 m2 m3 => exact Fields.mul m1 m2 m3
  | input m1 m2 m3 => exact Fields.input m1 m2 m3
  | output m1 m2 m3 => exact Fields.output m1 m2 m3
  | jumpIfTrue m1 m2 m3 => exact Fields.jumpIfTrue m1 m2 m3
  | jumpIfFalse m1 m2 m3 => exact Fields.jumpIfFalse m1 m2 m3
  | lessThan m1 m2 m3 => exact Fields.lessThan m1 m2 m3
  | equal m1 m2 m3 => exact Fields.equal m1 m2 m3
  | adjustRelativeBase m1 m2 m3 => exact Fields.adjustRelativeBase m1 m2 m3
  | halt m1 m2 m3 => exact Fields.halt m1 m2 m3

/-- A number's low five digits are an instruction's exactly when its opcode field and its three mode digits are (R81 to R83). -/
theorem lowDigits_iff {n : Nat} {i : Instr} :
    n % 100000 = encodeNat i ↔ n % opcodeMod = codeOfOp i.op ∧ digit n 2 = digitOfMode i.modes.1 ∧
      digit n 3 = digitOfMode i.modes.2.1 ∧ digit n 4 = digitOfMode i.modes.2.2 := by
  obtain ⟨hop, h1, h2, h3, hlt⟩ := fields_of_instr i
  rw [← hop, ← h1, ← h2, ← h3]
  simp only [digit, opcodeMod]
  omega

/-- The value of a word that is not negative, as a natural number (R7). -/
theorem toInt_eq_toNat {w : Word} (h : 0 ≤ w.toInt) : w.toInt = w.toNat := by
  rw [toNat_of_nonneg h]
  omega

/-- The value of an instruction's word is the number of its digits (R83). -/
theorem encode_toInt (i : Instr) : (encode i).toInt = encodeNat i := by
  obtain ⟨_, _, _, _, hlt⟩ := fields_of_instr i
  rw [encode, BitVec.toInt_ofNat', Int.bmod_eq_of_le] <;> omega

/-! ### Everything the decoder can answer -/

/-- The checks of R112 phase 2 in order, and the answer each leads to. -/
inductive Decodes (v : Word) : Except DecodeError Instr → Prop where
  | negative (hneg : v.toInt < 0) : Decodes v (.error .unknownOpcode)
  | badMode (hv : 0 ≤ v.toInt) (hmode : 3 ≤ digit v.toNat 2 ∨ 3 ≤ digit v.toNat 3 ∨ 3 ≤ digit v.toNat 4) :
      Decodes v (.error .unknownMode)
  | badOpcode (hv : 0 ≤ v.toInt) (h1 : digit v.toNat 2 < 3) (h2 : digit v.toNat 3 < 3) (h3 : digit v.toNat 4 < 3)
      (hop : opOfCode (v.toNat % opcodeMod) = none) : Decodes v (.error .unknownOpcode)
  | illegal (i : Instr) (hv : 0 ≤ v.toInt) (hi : v.toNat % 100000 = encodeNat i) (hw : i.wellFormed = false) :
      Decodes v (.error .writeToImmediate)
  | legal (i : Instr) (hv : 0 ≤ v.toInt) (hi : v.toNat % 100000 = encodeNat i) (hw : i.wellFormed = true) :
      Decodes v (.ok i)

/-- The decoder on a word with an instruction's low five digits: the check of R92 is the last one. -/
theorem decode_of_lowDigits {v : Word} {i : Instr} (hv : 0 ≤ v.toInt) (hi : v.toNat % 100000 = encodeNat i) :
    decode v = if i.wellFormed then .ok i else .error .writeToImmediate := by
  obtain ⟨hop, h1, h2, h3⟩ := lowDigits_iff.mp hi
  simp [decode, not_lt.mpr hv, modeOfDigit_some_iff.mpr h1, modeOfDigit_some_iff.mpr h2, modeOfDigit_some_iff.mpr h3,
    opOfCode_some_iff.mpr hop]

theorem decode_of_badMode {v : Word} (hv : 0 ≤ v.toInt)
    (hmode : 3 ≤ digit v.toNat 2 ∨ 3 ≤ digit v.toNat 3 ∨ 3 ≤ digit v.toNat 4) : decode v = .error .unknownMode := by
  simp only [← modeOfDigit_none_iff] at hmode
  unfold decode
  rw [if_neg (not_lt.mpr hv)]
  split
  · next h1 h2 h3 => simp [h1, h2, h3] at hmode
  · rfl

theorem decode_of_badOpcode {v : Word} (hv : 0 ≤ v.toInt) (h1 : digit v.toNat 2 < 3) (h2 : digit v.toNat 3 < 3)
    (h3 : digit v.toNat 4 < 3) (hop : opOfCode (v.toNat % opcodeMod) = none) : decode v = .error .unknownOpcode := by
  obtain ⟨m1, h1⟩ := exists_digitOfMode_iff.mpr h1
  obtain ⟨m2, h2⟩ := exists_digitOfMode_iff.mpr h2
  obtain ⟨m3, h3⟩ := exists_digitOfMode_iff.mpr h3
  simp [decode, not_lt.mpr hv, modeOfDigit_some_iff.mpr h1, modeOfDigit_some_iff.mpr h2, modeOfDigit_some_iff.mpr h3, hop]

/-- Every word meets one of the checks, or has an instruction's low five digits (R87). -/
theorem decode_decodes (v : Word) : Decodes v (decode v) := by
  by_cases hneg : v.toInt < 0
  · rw [show decode v = .error .unknownOpcode by simp [decode, hneg]]
    exact .negative hneg
  have hv : 0 ≤ v.toInt := not_lt.mp hneg
  by_cases hmode : 3 ≤ digit v.toNat 2 ∨ 3 ≤ digit v.toNat 3 ∨ 3 ≤ digit v.toNat 4
  · rw [decode_of_badMode hv hmode]
    exact .badMode hv hmode
  obtain ⟨h1, h2, h3⟩ : digit v.toNat 2 < 3 ∧ digit v.toNat 3 < 3 ∧ digit v.toNat 4 < 3 := by omega
  cases hop : opOfCode (v.toNat % opcodeMod) with
  | none =>
    rw [decode_of_badOpcode hv h1 h2 h3 hop]
    exact .badOpcode hv h1 h2 h3 hop
  | some op =>
    obtain ⟨m1, h1⟩ := exists_digitOfMode_iff.mpr h1
    obtain ⟨m2, h2⟩ := exists_digitOfMode_iff.mpr h2
    obtain ⟨m3, h3⟩ := exists_digitOfMode_iff.mpr h3
    have hi : v.toNat % 100000 = encodeNat (op.instr m1 m2 m3) := by
      rw [lowDigits_iff, instr_op, instr_modes]
      exact ⟨opOfCode_some_iff.mp hop, h1, h2, h3⟩
    rw [decode_of_lowDigits hv hi]
    split
    · next hw => exact .legal _ hv hi hw
    · next hw => exact .illegal _ hv hi (by simpa using hw)

/-- Settles O2: the decoder answers an instruction only by the check that reads the five digits. -/
theorem decodeReadsLowFiveDigits : Obligations.DecodeReadsLowFiveDigits := by
  intro v i
  constructor
  · intro h
    have hd := decode_decodes v
    rw [h] at hd
    cases hd with
    | legal _ hv hi hw => exact ⟨hv, hw, by rw [toInt_eq_toNat hv]; exact_mod_cast hi⟩
  · rintro ⟨hv, hw, hi⟩
    rw [toInt_eq_toNat hv] at hi
    rw [decode_of_lowDigits hv (by exact_mod_cast hi), if_pos hw]

/-- Settles O1: an instruction's word has the instruction's digits. -/
theorem decodeInvertsEncode : Obligations.DecodeInvertsEncode := by
  intro i hw
  obtain ⟨_, _, _, _, hlt⟩ := fields_of_instr i
  rw [decodeReadsLowFiveDigits, encode_toInt]
  exact ⟨by omega, hw, by omega⟩

/-- Settles O4: the decoder evaluated on each word. -/
theorem specWordsDecode : Obligations.SpecWordsDecode := ⟨rfl, rfl, rfl, rfl, rfl, rfl, rfl, rfl, rfl, rfl⟩

/-! ### Instructions with a write parameter in immediate mode -/

/-- The terms that R92 rejects, by operation. -/
theorem illFormed_iff {i : Instr} : i.wellFormed = false ↔
    ((i.op = .add ∨ i.op = .mul ∨ i.op = .lessThan ∨ i.op = .equal) ∧ i.modes.2.2 = .immediate) ∨
      (i.op = .input ∧ i.modes.1 = .immediate) := by
  cases i <;> simp [Instr.wellFormed, Instr.op, Instr.modes, Op.roles, Role.allows]

/-- The terms that R92 rejects, by the digits of their words. -/
theorem illFormed_iff_lowDigits {n : Nat} {i : Instr} (hi : n % 100000 = encodeNat i) : i.wellFormed = false ↔
    ((n % 100 = 1 ∨ n % 100 = 2 ∨ n % 100 = 7 ∨ n % 100 = 8) ∧ digit n 4 = 1) ∨ (n % 100 = 3 ∧ digit n 2 = 1) := by
  obtain ⟨hop, h1, _, h3⟩ := lowDigits_iff.mp hi
  have hmode : ∀ m, digitOfMode m = 1 ↔ m = .immediate := by intro m; cases m <;> decide
  rw [illFormed_iff, hop, h1, h3, hmode, hmode]
  cases i.op <;> simp [codeOfOp, opcodeTable]

/-- An instruction's mode digits are 0 to 2, and its opcode field is 1 to 9 or 99 (R82, R86). -/
theorem lowDigits_range {n : Nat} {i : Instr} (hi : n % 100000 = encodeNat i) :
    digit n 2 < 3 ∧ digit n 3 < 3 ∧ digit n 4 < 3 ∧ n % 100 ≠ 0 ∧ (n % 100 < 10 ∨ n % 100 = 99) := by
  obtain ⟨hop, h1, h2, h3⟩ := lowDigits_iff.mp hi
  rw [hop, h1, h2, h3]
  exact ⟨digitOfMode_lt _, digitOfMode_lt _, digitOfMode_lt _, codeOfOp_range _⟩

/-- Settles O3: in each of the cases of the decoder, by the digits that the case fixes. -/
theorem decodeErrorsByCause : Obligations.DecodeErrorsByCause := by
  intro v
  have hd := decode_decodes v
  generalize decode v = answer at hd ⊢
  cases hd with
  | negative hneg =>
    simp only [Except.error.injEq, reduceCtorEq, false_iff, true_iff]
    omega
  | badMode hv hmode =>
    simp only [digit, Nat.reducePow] at hmode
    simp only [Except.error.injEq, reduceCtorEq, false_iff, true_iff, toInt_eq_toNat hv]
    omega
  | badOpcode hv h1 h2 h3 hop =>
    rw [opOfCode_none_iff] at hop
    simp only [digit, opcodeMod, Nat.reducePow] at h1 h2 h3 hop
    simp only [Except.error.injEq, reduceCtorEq, false_iff, true_iff, toInt_eq_toNat hv]
    omega
  | illegal i hv hi hw =>
    have hrange := lowDigits_range hi
    rw [illFormed_iff_lowDigits hi] at hw
    simp only [digit, Nat.reducePow] at hrange hw
    simp only [Except.error.injEq, reduceCtorEq, false_iff, true_iff, toInt_eq_toNat hv]
    omega
  | legal i hv hi hw =>
    have hrange := lowDigits_range hi
    rw [← Bool.not_eq_false, illFormed_iff_lowDigits hi] at hw
    simp only [digit, Nat.reducePow] at hrange hw
    simp only [reduceCtorEq, false_iff, toInt_eq_toNat hv]
    omega

/-- Where the write parameter is in immediate mode the four-word shape raises before any operand is looked at. -/
theorem binary_immediate (e : Engine) (op : Op) (f : Word → Word → Except Cause Word) (m1 m2 : Mode) :
    e.binary op f m1 m2 .immediate = .error .writeToImmediate := rfl

theorem inputPlan_immediate (e : Engine) : e.inputPlan .immediate = .error .writeToImmediate := rfl

/-- A term that R92 rejects raises WriteToImmediate, whatever else there is. -/
theorem exec_illFormed {i : Instr} {s : State} {e : Engine} (he : s.engine? = some e) (hw : i.wellFormed = false) :
    exec i s = .next (s.raise e .writeToImmediate) := by
  obtain ⟨hop, hm⟩ | ⟨hop, hm⟩ := illFormed_iff.mp hw
  · cases i with
    | add m1 m2 m3 | mul m1 m2 m3 | lessThan m1 m2 m3 | equal m1 m2 m3 =>
      obtain rfl : m3 = .immediate := hm
      exact (withEngine_some he _).trans (attempt_error (binary_immediate ..) _)
    | _ => simp [Instr.op] at hop
  · cases i with
    | input m1 m2 m3 =>
      obtain rfl : m1 = .immediate := hm
      exact (withEngine_some he _).trans (attempt_error (inputPlan_immediate e) _)
    | _ => cases hop

/-- Settles O31: the term raises, and a raise is what R270 says. -/
theorem writeToImmediateIsFatal : Obligations.WriteToImmediateIsFatal :=
  fun _ _ _ he hw => ⟨_, exec_illFormed he hw, raise_takesFatal he⟩

/-! ### What stops the model -/

/-- Settles O34: that is `exec_total`. -/
theorem noInstructionStopsTheModel : Obligations.NoInstructionStopsTheModel :=
  fun i _ _ he hwired => exec_total i he hwired

/-- In a composition that is built every stage has both its endpoints (R34, R303). -/
theorem wired_of_built {s : State} {k : Nat} (hb : s.built = true) (hk : k < s.engines.length) :
    Wired { s with active := k } := by
  obtain ⟨hengines, hchannels⟩ : s.engines.length = s.config.nStages ∧ s.channels.length = channelCount s.config := by
    simpa [State.built] using hb
  rw [hengines] at hk
  simp only [Safety.Wired, State.inChannel, State.outChannel, inChannelOf, outChannelOf, hchannels, channelCount]
  cases s.config.topology with
  | pipeline => exact ⟨Nat.lt_succ_of_lt hk, Nat.succ_lt_succ hk⟩
  | feedbackLoop => exact ⟨hk, Nat.mod_lt _ (Nat.zero_lt_of_lt hk)⟩

/-- Where the invariant holds the turn of any stage, there or not, answers a next state. -/
theorem stageTurn_total {s : State} (k : Nat) (h : Inv s) : ∃ t, stageTurn k s = .next t := by
  by_cases hidle : ∀ e, s.engines[k]? = some e → e.ready = false
  · exact ⟨s, stageTurn_idle hidle⟩
  · push Not at hidle
    obtain ⟨e, he, hready⟩ := hidle
    rw [Bool.ne_false_iff] at hready
    have hb : s.built = true := inv_built h he (ready_iff.mp hready).2
    rw [stageTurn_ready he hready]
    cases hd : e.decoded with
    | error c => exact ⟨_, attempt_error rfl _⟩
    | ok i => exact exec_total i he (wired_of_built hb (List.getElem?_eq_some_iff.mp he).1)

theorem interconnectDrop_total (ch : Nat) (side : Side) (s : State) : ∃ t, interconnectDrop ch side s = .next t := by
  unfold interconnectDrop
  split
  · split <;> exact ⟨_, rfl⟩
  · exact ⟨_, rfl⟩

theorem runStage_not_fault (g : Grant) (k : Nat) (s : State) (r : Fault) : runStage g k s ≠ .fault r := by
  unfold runStage
  split
  · split <;> exact nofun
  · exact nofun

/-- A transaction of the host is done or refused; the machine does not fault on it. -/
theorem transact_not_fault (t : Transaction) (s : State) (r : Fault) : transact t s ≠ .fault r := by
  intro h
  cases t with
  | newComposition c =>
    simp only [transact, newComposition] at h
    split at h <;> cases h
  | makeChannel seed =>
    simp only [transact, makeChannel] at h
    (repeat' split at h) <;> cases h
  | load text =>
    simp only [transact, loadStage] at h
    (repeat' split at h) <;> cases h
  | runToHalt k => exact runStage_not_fault .toHalt k s r h
  | runUntilBlocked k => exact runStage_not_fault .yieldAfterOutput k s r h
  | send ch v =>
    simp only [transact, hostSend] at h
    (repeat' split at h) <;> cases h
  | recv ch =>
    simp only [transact, hostRecv] at h
    (repeat' split at h) <;> cases h
  | drop ch side =>
    simp only [transact, hostDrop] at h
    (repeat' split at h) <;> cases h

/-- Where the invariant holds a step answers a next state, or is a transaction of the host. -/
theorem step_total_or_host {s : State} (h : Inv s) :
    (∃ t, step s = .next t) ∨ ∃ t rest, s.agenda = .host t :: rest ∧ step s = transact t { s with agenda := rest } := by
  have htaken (rest : List Event) : Inv { s with agenda := rest } := inv_of_sameEngines h rfl rfl rfl fun _ => rfl
  cases ha : s.agenda with
  | nil =>
    rw [step, nextMove, ha]
    exact .inl (stageTurn_total s.active h)
  | cons ev rest =>
    rw [step, nextMove, ha]
    cases ev with
    | stage k => exact .inl (stageTurn_total k (htaken rest))
    | interconnectDrop ch side => exact .inl (interconnectDrop_total ch side _)
    | host t => exact .inr ⟨t, rest, rfl, rfl⟩

/-- Settles O45: a step that answers no next state is a transaction of the host, and that does not fault. -/
theorem invariantStepNeverFaults : Obligations.InvariantStepNeverFaults := by
  intro s h
  obtain ⟨t, ht⟩ | ⟨t, rest, ha, ht⟩ := step_total_or_host h
  · rw [ht]
    exact ⟨nofun, nofun⟩
  · rw [ht]
    exact ⟨transact_not_fault t _, fun _ _ => ⟨t, rest, ha⟩⟩

/-! ### Program text -/

theorem isWs_iff {c : Char} : isWs c = true ↔ c = ' ' ∨ c = '\t' ∨ c = '\r' ∨ c = '\n' := by
  simp [isWs, or_assoc]

/-- The decoder of a digit and the grammar's range of characters. -/
theorem digitValue_some_iff {c : Char} {d : Nat} :
    digitValue c = some d ↔ ('0' ≤ c ∧ c ≤ '9') ∧ d = c.toNat - '0'.toNat := by
  have hrange : ('0' ≤ c ∧ c ≤ '9') ↔ 48 ≤ c.toNat ∧ c.toNat ≤ 57 := Iff.rfl
  rw [digitValue, hrange, Option.ite_none_right_eq_some, Option.some.injEq]
  exact and_congr_right fun _ => eq_comm

/-- The number that digits stand for, read on from `acc`. -/
theorem digitsFrom_some_iff {cs : List Char} {acc n : Nat} :
    digitsFrom acc cs = some n ↔ (∀ c ∈ cs, '0' ≤ c ∧ c ≤ '9') ∧
      n = cs.foldl (fun acc c => 10 * acc + (c.toNat - '0'.toNat)) acc := by
  induction cs generalizing acc with
  | nil => simp [digitsFrom, eq_comm]
  | cons c cs ih =>
    rw [digitsFrom, List.forall_mem_cons, List.foldl_cons]
    cases hd : digitValue c with
    | none =>
      have hc : ¬ ('0' ≤ c ∧ c ≤ '9') := fun hc => by simp [digitValue_some_iff.mpr ⟨hc, rfl⟩] at hd
      simp [hc]
    | some d =>
      obtain ⟨hc, rfl⟩ := digitValue_some_iff.mp hd
      simp [ih, hc]

theorem parseDigits_some_iff {cs : List Char} {n : Nat} : parseDigits cs = some n ↔ IsDigits cs n := by
  cases cs with
  | nil => simp [parseDigits, IsDigits]
  | cons c cs => simp [parseDigits, IsDigits, digitsFrom_some_iff]

theorem parseInt_some_iff {cs : List Char} {n : Int} : parseInt cs = some n ↔ IsInt cs n := by
  cases cs with
  | nil => simp [parseInt, IsInt, IsDigits]
  | cons c cs =>
    rw [parseInt]
    split
    · next hc =>
      obtain rfl : c = '-' := by simpa using hc
      have hminus : ∀ k, ¬ IsDigits ('-' :: cs) k := fun k ⟨_, hdigits, _⟩ => absurd (hdigits '-' (by simp)) (by decide)
      simp [IsInt, hminus, ← parseDigits_some_iff, Option.bind_eq_some_iff, eq_comm (a := n)]
    · next hc =>
      have hc : c ≠ '-' := by simpa using hc
      simp [IsInt, hc, ← parseDigits_some_iff, Option.bind_eq_some_iff, eq_comm (a := n)]

/-- No character of an integer is white space or a comma (R101). -/
theorem isInt_chars {cs : List Char} {n : Int} (h : IsInt cs n) : ∀ c ∈ cs, isWs c = false ∧ c ≠ ',' := by
  have hdigit : ∀ c : Char, '0' ≤ c ∧ c ≤ '9' → isWs c = false ∧ c ≠ ',' := by
    intro c hc
    refine ⟨Bool.eq_false_iff.mpr fun hws => ?_, ?_⟩
    · obtain rfl | rfl | rfl | rfl := isWs_iff.mp hws <;> exact absurd hc (by decide)
    · rintro rfl
      exact absurd hc (by decide)
  obtain ⟨_, ⟨_, hdigits, _⟩, _⟩ | ⟨ds, _, rfl, ⟨_, hdigits, _⟩, _⟩ := h
  · exact fun c hc => hdigit c (hdigits c hc)
  · exact List.forall_mem_cons.mpr ⟨by decide, fun c hc => hdigit c (hdigits c hc)⟩

/-- Trimming takes off white space at both ends. -/
theorem trimWs_spec (cs : List Char) : ∃ w1 w2, IsWs w1 ∧ IsWs w2 ∧ cs = w1 ++ trimWs cs ++ w2 := by
  refine ⟨cs.takeWhile isWs, (cs.dropWhile isWs).rtakeWhile isWs, ?_, ?_, ?_⟩
  · exact fun c hc => isWs_iff.mp (List.mem_takeWhile_imp hc)
  · exact fun c hc => isWs_iff.mp (List.mem_rtakeWhile_imp hc)
  · have hright := List.rdropWhile_append_rtakeWhile (p := isWs) (l := cs.dropWhile isWs)
    rw [trimWs, List.append_assoc, ← List.rdropWhile, hright, List.takeWhile_append_dropWhile]

/-- Leading white space and no more is dropped in front of characters that are none. -/
theorem dropWhile_isWs {w d : List Char} (hw : IsWs w) (hd : ∀ c ∈ d, isWs c = false) : (w ++ d).dropWhile isWs = d := by
  rw [List.dropWhile_append_of_pos fun c hc => isWs_iff.mpr (hw c hc), List.dropWhile_eq_self_iff]
  exact fun hl => by simp [hd _ (List.getElem_mem hl)]

/-- Trimming gives back what stands between the white space, where that holds none. -/
theorem trimWs_append {w1 d w2 : List Char} (h1 : IsWs w1) (hd : ∀ c ∈ d, isWs c = false) (h2 : IsWs w2) :
    trimWs (w1 ++ d ++ w2) = d := by
  have hleft : (w1 ++ d ++ w2).dropWhile isWs = (d ++ w2).dropWhile isWs := by
    rw [List.append_assoc, List.dropWhile_append_of_pos fun c hc => isWs_iff.mpr (h1 c hc)]
  rw [trimWs, hleft]
  cases d with
  | nil =>
    have hright : w2.dropWhile isWs = [] := List.dropWhile_eq_nil_iff.mpr fun c hc => isWs_iff.mpr (h2 c hc)
    simp [hright]
  | cons c d =>
    have hkeep : ((c :: d) ++ w2).dropWhile isWs = (c :: d) ++ w2 := List.dropWhile_cons_of_neg (by simp [hd c])
    rw [hkeep, List.reverse_append, dropWhile_isWs (fun c hc => h2 c (List.mem_reverse.mp hc)), List.reverse_reverse]
    exact fun c hc => hd c (List.mem_reverse.mp hc)

theorem parseField_some_iff {cs : List Char} {w : Word} : parseField cs = some w ↔ IsField cs w.toInt := by
  constructor
  · intro h
    rw [parseField] at h
    split at h
    · next n hn =>
      obtain ⟨hfits, rfl⟩ : Fits n ∧ wordOf n = w := by simpa [Option.ite_none_right_eq_some] using h
      obtain ⟨w1, w2, h1, h2, hcs⟩ := trimWs_spec cs
      rw [wordOf_toInt hfits]
      exact ⟨w1, trimWs cs, w2, h1, parseInt_some_iff.mp hn, h2, hcs⟩
    · cases h
  · rintro ⟨w1, d, w2, h1, hint, h2, rfl⟩
    have hd : ∀ c ∈ d, isWs c = false := fun c hc => (isInt_chars hint c hc).1
    rw [parseField, trimWs_append h1 hd h2, parseInt_some_iff.mpr hint]
    exact (if_pos (toInt_fits w)).trans (congrArg some ((wordOf_eq_iff (toInt_fits w) w).mpr rfl))

/-- Every field is parsed, in order. -/
theorem parseFields_some_iff {fs : List (List Char)} {ws : List Word} :
    parseFields fs = some ws ↔ List.Forall₂ (fun f w => parseField f = some w) fs ws := by
  induction fs generalizing ws with
  | nil => simp [parseFields, eq_comm]
  | cons f fs ih =>
    rw [parseFields, List.forall₂_cons_left_iff]
    simp only [← ih]
    cases parseField f with
    | none => simp
    | some w => cases parseFields fs <;> simp [eq_comm]

/-- A field holds no comma (R101). -/
theorem comma_not_mem_field {cs : List Char} {n : Int} (h : IsField cs n) : ',' ∉ cs := by
  obtain ⟨w1, d, w2, h1, hint, h2, rfl⟩ := h
  have hws : ∀ {w : List Char}, IsWs w → ',' ∉ w := fun hw hc => absurd (hw ',' hc) (by decide)
  simp only [List.mem_append, not_or]
  exact ⟨⟨hws h1, fun hc => (isInt_chars hint ',' hc).2 rfl⟩, hws h2⟩

/-- The model's fields are those of the library's split. -/
theorem splitCommas_eq_splitOn (cs : List Char) : splitCommas cs = cs.splitOn ',' := by
  induction cs with
  | nil => rfl
  | cons c cs ih =>
    rw [splitCommas, ih, List.splitOn_cons_eq_if_modifyHead]
    cases hfields : cs.splitOn ',' with
    | nil => exact absurd hfields (List.splitOn_ne_nil ',' cs)
    | cons f fs => by_cases hc : c = ',' <;> simp [hc]

/-- Fields with a comma between each two are a text. -/
theorem isText_intercalate {fs : List (List Char)} {ns : List Int} (h : List.Forall₂ IsField fs ns) (hne : fs ≠ []) :
    IsText ([','].intercalate fs) ns := by
  induction h with
  | nil => exact absurd rfl hne
  | @cons f n fs ns hf hfs ih =>
    cases hfs with
    | nil =>
      rw [List.intercalate_singleton]
      exact .one hf
    | cons =>
      rw [List.intercalate_cons_cons, List.append_assoc]
      exact .more hf (ih (List.cons_ne_nil _ _))

/-- A text is its fields: what stands between its commas (R101). -/
theorem isText_iff {text : List Char} {ns : List Int} :
    IsText text ns ↔ List.Forall₂ IsField (splitCommas text) ns := by
  rw [splitCommas_eq_splitOn]
  constructor
  · intro h
    induction h with
    | one hf =>
      rw [List.splitOn_eq_singleton (comma_not_mem_field hf)]
      exact .cons hf .nil
    | more hf _ ih =>
      rw [List.splitOn_append_cons_self_of_not_mem (comma_not_mem_field hf)]
      exact .cons hf ih
  · intro h
    have := isText_intercalate h (List.splitOn_ne_nil ',' text)
    rwa [List.intercalate_splitOn] at this

/-- Settles O53: a text is its fields, and each is parsed as the grammar has it. -/
theorem programTextGrammar : Obligations.ProgramTextGrammar := by
  intro text ws
  rw [parseProgram, parseFields_some_iff, isText_iff, List.forall₂_map_right_iff]
  simp only [parseField_some_iff]

end Sys2Proof.Proofs
end

section
/-! SUPPORT. The engine-step family (spec/40_engine_step.md): what resolving an operand gives and raises, what a turn's fetch and
decode do, how a move of an instruction moves the queues, what a run transaction does, that a step depends on its engine's own
state alone, and the statements of the family. -/

namespace Sys2Proof.Proofs

open Sys2Proof.Machine Sys2Proof.Safety Sys2Proof.Laws

/-! ### Addresses -/

/-- A read of memory gives what the rules say is held at the address: a word is never above the greatest address (R51). -/
theorem memRead_ok_iff_holdsAt {e : Engine} {a v : Word} : memRead e.mem a = .ok v ↔ HoldsAt e a.toInt v := by
  have hle : a.toInt ≤ wordMax := (toInt_fits a).2
  rw [memRead_ok_iff, HoldsAt]
  simp only [hle, true_and]

/-- An address that is a word's value can only be too small. -/
theorem addressRaises_toInt_iff {a : Word} {c : Cause} : AddressRaises a.toInt c ↔ a.toInt < 0 ∧ c = .negativeAddress := by
  have hfits : Fits a.toInt ↔ True := iff_true_intro (toInt_fits a)
  rw [AddressRaises, hfits, not_true, false_and, false_or, true_and]

/-- Forming an address `n` and reading there gives the word held at `n`. -/
theorem formedRead_ok_iff {e : Engine} {n : Int} {v : Word} :
    (chk64 n >>= memRead e.mem) = .ok v ↔ HoldsAt e n v := by
  simp only [bind_ok_iff, memRead_ok_iff_holdsAt, chk64_ok_iff]
  constructor
  · rintro ⟨a, ha, h⟩
    exact ha ▸ h
  · rintro ⟨hnonneg, hle, hread⟩
    have hn : (wordOf n).toInt = n := wordOf_toInt ⟨le_trans (by decide) hnonneg, hle⟩
    exact ⟨wordOf n, hn, hn.symm ▸ ⟨hnonneg, hle, hread⟩⟩

/-- Forming an address `n` as a destination gives `n`, where that is a valid address (R115, D8). -/
theorem formedDestination_ok_iff {n : Int} {d : Word} :
    (chk64 n >>= destination) = .ok d ↔ d.toInt = n ∧ 0 ≤ d.toInt ∧ d.toInt ≤ wordMax := by
  simp only [bind_ok_iff, destination_ok_iff, chk64_ok_iff]
  constructor
  · rintro ⟨a, ha, hnonneg, rfl⟩
    exact ⟨ha, hnonneg, (toInt_fits d).2⟩
  · rintro ⟨hd, hnonneg, _⟩
    exact ⟨d, hd, hnonneg, rfl⟩

/-! ### Operands -/

/-- The value of a read parameter in each mode (R114). -/
theorem val_ok_iff {e : Engine} {m : Mode} {i : Nat} {v : Word} : e.val m i = .ok v ↔ ValueIs e m i v := by
  unfold Engine.val ValueIs
  simp only [bind_ok_iff, param_ok_iff]
  refine exists_congr fun p => and_congr_right fun _ => ?_
  cases m with
  | immediate => simp only [Except.ok.injEq, eq_comm]
  | position => exact memRead_ok_iff_holdsAt
  | relative => exact formedRead_ok_iff

/-- What resolving a read parameter raises in each mode (R113, R114; D3, D7). -/
theorem val_error_iff {e : Engine} {m : Mode} {i : Nat} {c : Cause} : e.val m i = .error c ↔ OperandRaises e m i c := by
  unfold Engine.val OperandRaises
  simp only [bind_error_iff, param_error_iff, param_ok_iff]
  refine or_congr_right (exists_congr fun p => and_congr_right fun _ => ?_)
  cases m with
  | immediate => exact iff_of_false nofun id
  | position => exact memRead_error_iff.trans addressRaises_toInt_iff.symm
  | relative => exact formed_error_iff fun _ _ => memRead_error_iff

/-- The address of a write parameter in each mode (R115). -/
theorem addr_ok_iff {e : Engine} {m : Mode} {i : Nat} {d : Word} : e.addr m i = .ok d ↔ AddressIs e m i d.toInt := by
  unfold Engine.addr AddressIs
  simp only [bind_ok_iff, param_ok_iff]
  refine exists_congr fun p => and_congr_right fun _ => ?_
  cases m with
  | immediate => exact iff_of_false nofun id
  | position =>
    rw [destination_ok_iff, BitVec.toInt_inj, and_comm]
    exact and_congr_right fun hd => hd ▸ Iff.rfl
  | relative => exact formedDestination_ok_iff

/-- What resolving a write parameter raises in either of its modes (R115; D3, D8). -/
theorem addr_error_iff {e : Engine} {m : Mode} {i : Nat} {c : Cause} (hm : m ≠ .immediate) :
    e.addr m i = .error c ↔ OperandRaises e m i c := by
  unfold Engine.addr OperandRaises
  simp only [bind_error_iff, param_error_iff, param_ok_iff]
  refine or_congr_right (exists_congr fun p => and_congr_right fun _ => ?_)
  cases m with
  | immediate => exact absurd rfl hm
  | position => exact destination_error_iff.trans addressRaises_toInt_iff.symm
  | relative => exact formed_error_iff fun _ _ => destination_error_iff

/-- Settles O5: the parameter word is read first, then the mode's own read. -/
theorem readOperandResolves : Obligations.ReadOperandResolves :=
  fun _ _ _ => ⟨fun _ => val_ok_iff, fun _ => val_error_iff⟩

/-- Settles O6: the parameter word is read first, then the destination is formed and its sign checked. -/
theorem writeOperandResolves : Obligations.WriteOperandResolves :=
  fun _ _ _ hm => ⟨fun _ => addr_ok_iff, fun _ => addr_error_iff hm⟩

/-! ### Fetch and decode -/

/-- A turn whose fetch or decode raises takes that exception (R111, R112). -/
theorem step_turn_raises {s u : State} {k : Nat} {e : Engine} {c : Cause} (h : TurnOf s k u) (he : u.engine? = some e)
    (hr : e.ready = true) (hd : e.decoded = .error c) : ∃ t, step s = .next t ∧ TakesFatal u e c t := by
  rw [step_turn_ready h he hr, attempt_error hd]
  exact ⟨_, rfl, raise_takesFatal he⟩

/-- Settles O32: the two ways a fetch and decode raise. -/
theorem fetchAndDecodeFaults : Obligations.FetchAndDecodeFaults := by
  intro s u k e h he hs hg
  have hr : e.ready = true := ready_iff.mpr ⟨hs, hg⟩
  refine ⟨fun hneg => step_turn_raises h he hr (decoded_negative hneg), fun d hpc hd => ?_⟩
  have hraise := step_turn_raises h he hr (decoded_error hpc hd)
  cases d <;> exact hraise

/-- Settles O35: a turn that fetches an instruction is its `exec`. -/
theorem stepRunsDecodedInstruction : Obligations.StepRunsDecodedInstruction := by
  intro s u k e i h he hs hg hi
  obtain ⟨hpc, hd⟩ := hi
  rw [step_turn_ready h ((turnOf_engine h).trans he) (ready_iff.mpr ⟨hs, hg⟩), attempt_ok (decoded_ok hpc hd)]

/-! ### Run transactions -/

/-- The step whose agenda begins with a run transaction is that transaction, under the contract's grant (R125, R126). -/
theorem step_runStage {s : State} {k : Nat} {rest : List Event} {r : Transaction} {g : Grant}
    (hr : (r = .runToHalt k ∧ g = .toHalt) ∨ (r = .runUntilBlocked k ∧ g = .yieldAfterOutput))
    (ha : s.agenda = .host r :: rest) : step s = runStage g k { s with agenda := rest } := by
  obtain ⟨rfl, rfl⟩ | ⟨rfl, rfl⟩ := hr <;> simp only [step, nextMove, ha, happen, transact]

/-- A run transaction starts the run of an engine without a grant in a composition that is built. -/
theorem runStage_starts {s : State} {k : Nat} {e : Engine} (g : Grant) (he : s.engines[k]? = some e) (hb : s.built = true)
    (hg : e.grant = .none) :
    runStage g k s = .next { s with engines := s.engines.set k (e.granted g), reply := .done } := by
  simp [runStage, he, hb, hg]

/-- Any other run transaction is refused (notes/assumptions/8.md). -/
theorem runStage_refused {s : State} {k : Nat} {e : Engine} (g : Grant) (he : s.engines[k]? = some e)
    (h : s.built = true → e.grant ≠ .none) : runStage g k s = .refused .transaction := by
  have hno : ¬ (s.built = true ∧ e.grant = .none) := fun ⟨hb, hg⟩ => h hb hg
  simp only [runStage, he, if_neg hno]

/-- A run transaction gives a running engine its grant and clears `yielded` (R125, R126). -/
theorem granted_of_running {e : Engine} (g : Grant) (h : e.status = .running) :
    e.granted g = { e with grant := g, yielded := none } := by
  simp [Engine.granted, Engine.terminated, h]

/-- A composition with too few stages or channels is not built (R303). -/
theorem not_built_of_lt {s : State}
    (h : s.engines.length < s.config.nStages ∨ s.channels.length < channelCount s.config) : s.built ≠ true := by
  simp only [State.built, ne_eq, Bool.and_eq_true, beq_iff_eq]
  omega

/-- Settles O51: a run transaction starts a run, of a running engine or of a terminated one, or is refused. -/
theorem runTransactionsGrant : Obligations.RunTransactionsGrant := by
  intro s k rest e r g hr ha he
  rw [step_runStage hr ha]
  have starts := runStage_starts (s := { s with agenda := rest }) g he
  refine ⟨fun hb hg hs => ?_, fun hb hg hs => ?_, fun hg => ?_, fun hlt => ?_⟩
  · exact granted_of_running g hs ▸ starts hb hg
  · exact granted_of_terminated g hs ▸ starts hb hg
  · exact runStage_refused g he fun _ => hg
  · exact runStage_refused g he fun hb => absurd hb (not_built_of_lt hlt)

/-! ### Queues -/

theorem queuesMove_of_sameChannels {s t : State} (h : t.channels = s.channels) : QueuesMove s t 0 [] :=
  fun k ch hk => ⟨ch, h ▸ hk, by simp⟩

/-- The end of the active engine moves no queue (R208). -/
theorem queuesMove_of_sidesAfterEnd {s t : State} (h : SidesAfterEnd s t) : QueuesMove s t 0 [] := by
  intro k ch hk
  obtain ⟨ch', hk', hq, _, _⟩ := h.2 k ch hk
  exact ⟨ch', hk', by simp [hq]⟩

/-- The move of one queue, where one channel is written. -/
theorem queuesMove_of_set {s t : State} {n taken : Nat} {sent : List Word} {ch ch' : Channel}
    (hc : s.channels[n]? = some ch) (ht : t.channels = s.channels.set n ch')
    (hq : ch'.q = ch.q.drop (if n = s.inChannel then taken else 0) ++ (if n = s.outChannel then sent else []))
    (hother : ∀ k, k ≠ n → (k = s.inChannel → taken = 0) ∧ (k = s.outChannel → sent = [])) :
    QueuesMove s t taken sent := by
  intro k d hk
  rw [ht]
  by_cases hkn : k = n
  · subst hkn
    obtain rfl : ch = d := by simpa [hc] using hk
    exact ⟨ch', by simp [(List.getElem?_eq_some_iff.mp hc).1], hq⟩
  · obtain ⟨hin, hout⟩ := hother k hkn
    refine ⟨d, (List.getElem?_set_ne (Ne.symm hkn)).trans hk, ?_⟩
    split_ifs <;> simp_all

/-- An input that receives takes the head of its own queue (R150). -/
theorem queuesMove_received {s t : State} {ch : Channel} {v : Word} {rest : List Word}
    (hc : s.channels[s.inChannel]? = some ch) (hq : ch.q = v :: rest)
    (ht : t.channels = s.channels.set s.inChannel { ch with q := rest }) : QueuesMove s t 1 [] :=
  queuesMove_of_set hc ht (by simp [hq]) fun _ hk => ⟨fun h => absurd h hk, fun _ => rfl⟩

/-- An output that sends adds its value at the tail of its own queue (R151). -/
theorem queuesMove_sent {s t : State} {ch : Channel} {v : Word} (hc : s.channels[s.outChannel]? = some ch)
    (ht : t.channels = s.channels.set s.outChannel { ch with q := ch.q ++ [v] }) : QueuesMove s t 0 [v] :=
  queuesMove_of_set hc ht (by simp) fun _ hk => ⟨fun _ => rfl, fun h => absurd h hk⟩

/-- Everything a move of an instruction does to the queues (R110, D16). -/
theorem moves_queues {s t : State} {e : Engine} {i : Instr} (h : Moves s e i t) :
    QueuesMove s t 0 [] ∨ (i.op = .input ∧ QueuesMove s t 1 []) ∨ (i.op = .output ∧ ∃ v, QueuesMove s t 0 [v]) := by
  cases h with
  | raised | halted => exact .inl (queuesMove_of_sidesAfterEnd (terminated_sides s _))
  | committed | held => exact .inl (queuesMove_of_sameChannels rfl)
  | received ch v rest d npc hi hc hq => exact .inr (.inl ⟨hi, queuesMove_received hc hq rfl⟩)
  | sent ch v npc hi hc => exact .inr (.inr ⟨hi, v, queuesMove_sent hc rfl⟩)

/-- Settles O27: by what a move of an instruction does to the queues. -/
theorem queuesMoveByOneValue : Obligations.QueuesMoveByOneValue := by
  intro i s t h
  obtain ⟨e, _, hm⟩ := exec_next h
  refine ⟨moves_channels_length hm, fun k ch ch' hk hk' => ?_⟩
  have queue {taken : Nat} {sent : List Word} (hq : QueuesMove s t taken sent) :
      ch'.q = ch.q.drop (if k = s.inChannel then taken else 0) ++ (if k = s.outChannel then sent else []) := by
    obtain ⟨d, hd, hq⟩ := hq k ch hk
    obtain rfl : ch' = d := by simpa [hk'] using hd
    exact hq
  obtain hq | ⟨hi, hq⟩ | ⟨hi, v, hq⟩ := moves_queues hm
  · exact .inl (by simpa using queue hq)
  · by_cases hin : k = s.inChannel
    · cases hch : ch.q with
      | nil => exact .inl (by simpa [hch] using queue hq)
      | cons w rest => exact .inr (.inl ⟨hi, hin, w, by simpa [hin, hch] using (queue hq).symm⟩)
    · exact .inl (by simpa [hin] using queue hq)
  · by_cases hout : k = s.outChannel
    · exact .inr (.inr ⟨hi, hout, v, by simpa [hout] using queue hq⟩)
    · exact .inl (by simpa [hout] using queue hq)

/-! ### Two engines that differ in the fault record and the yielded value alone -/

/-- An engine with another fault record and yielded value: the two registers that no step reads (R118). -/
def withRecord (φ : Option FaultRecord) (y : Option Word) (e : Engine) : Engine := { e with fault := φ, yielded := y }

theorem eq_withRecord {e e' : Engine} (hpc : e.pc = e'.pc) (hrb : e.rb = e'.rb) (hmem : e.mem = e'.mem)
    (hstatus : e.status = e'.status) (hgrant : e.grant = e'.grant) : e' = withRecord e'.fault e'.yielded e := by
  rw [withRecord, hpc, hrb, hmem, hstatus, hgrant]

section WithRecord
variable (φ : Option FaultRecord) (y : Option Word) (e : Engine)

@[simp] theorem withRecord_decoded : (withRecord φ y e).decoded = e.decoded := rfl
@[simp] theorem withRecord_ready : (withRecord φ y e).ready = e.ready := rfl
@[simp] theorem withRecord_val (m : Mode) (i : Nat) : (withRecord φ y e).val m i = e.val m i := rfl
@[simp] theorem withRecord_addr (m : Mode) (i : Nat) : (withRecord φ y e).addr m i = e.addr m i := rfl
@[simp] theorem withRecord_advance (op : Op) : (withRecord φ y e).advance op = e.advance op := rfl
@[simp] theorem withRecord_inputPlan (m : Mode) : (withRecord φ y e).inputPlan m = e.inputPlan m := rfl
@[simp] theorem withRecord_outputPlan (m : Mode) : (withRecord φ y e).outputPlan m = e.outputPlan m := rfl

theorem withRecord_binary (op : Op) (f : Word → Word → Except Cause Word) (m1 m2 m3 : Mode) :
    (withRecord φ y e).binary op f m1 m2 m3 = withRecord φ y <$> e.binary op f m1 m2 m3 := by
  simp only [Engine.binary, map_bind, withRecord_val, withRecord_addr, withRecord_advance]
  rfl

theorem withRecord_jump (op : Op) (taken : Word → Bool) (m1 m2 : Mode) :
    (withRecord φ y e).jump op taken m1 m2 = withRecord φ y <$> e.jump op taken m1 m2 := by
  simp only [Engine.jump, map_bind, withRecord_val, withRecord_advance]
  rfl

theorem withRecord_rebase (m1 : Mode) : (withRecord φ y e).rebase m1 = withRecord φ y <$> e.rebase m1 := by
  simp only [Engine.rebase, map_bind, withRecord_val, withRecord_advance]
  rfl

end WithRecord

/-- The engines `f` and `f'` that `e` and `e'` have become are alike: the fault record and the yielded value have been set alike or
left (R118). -/
structure EnginesAlike (e e' f f' : Engine) : Prop where
  pc : f.pc = f'.pc
  rb : f.rb = f'.rb
  mem : f.mem = f'.mem
  status : f.status = f'.status
  grant : f.grant = f'.grant
  fault : f.fault = f'.fault ∨ (f.fault = e.fault ∧ f'.fault = e'.fault)
  yielded : f.yielded = f'.yielded ∨ (f.yielded = e.yielded ∧ f'.yielded = e'.yielded)

section EnginesAlike
variable {φ : Option FaultRecord} {y : Option Word} {e f : Engine}

/-- An engine that keeps its run registers. -/
theorem enginesAlike_of_sameRun (h : SameRun e f) : EnginesAlike e (withRecord φ y e) f (withRecord φ y f) := by
  obtain ⟨_, hfault, _, hyielded⟩ := h
  exact ⟨rfl, rfl, rfl, rfl, rfl, .inr ⟨hfault, rfl⟩, .inr ⟨hyielded, rfl⟩⟩

theorem enginesAlike_fatal (c : Cause) :
    EnginesAlike e (withRecord φ y e) (e.fatal c) ((withRecord φ y e).fatal c) :=
  ⟨rfl, rfl, rfl, rfl, rfl, .inl rfl, .inr ⟨rfl, rfl⟩⟩

theorem enginesAlike_halted :
    EnginesAlike e (withRecord φ y e) { e with status := .halted, grant := .none }
      { withRecord φ y e with status := .halted, grant := .none } :=
  ⟨rfl, rfl, rfl, rfl, rfl, .inr ⟨rfl, rfl⟩, .inr ⟨rfl, rfl⟩⟩

/-- After an output an engine yields the value sent or keeps its run registers, by its grant (R126). -/
theorem enginesAlike_afterOutput (v : Word) (h : SameRun e f) :
    EnginesAlike e (withRecord φ y e) (f.afterOutput v) ((withRecord φ y f).afterOutput v) := by
  by_cases hg : f.grant = .yieldAfterOutput
  · obtain ⟨_, hfault, _, _⟩ := h
    simp only [Engine.afterOutput, withRecord, hg]
    exact ⟨rfl, rfl, rfl, rfl, rfl, .inr ⟨hfault, rfl⟩, .inl rfl⟩
  · rw [afterOutput_stay f v hg, afterOutput_stay (withRecord φ y f) v hg]
    exact enginesAlike_of_sameRun h

end EnginesAlike

/-! ### Two machines that step alike -/

/-- Recv finds alike in two queues with the same head and sender bit (R205). -/
theorem recv_alike {c c' : Channel} (hhead : c.q.head? = c'.q.head?) (htx : c.txLive = c'.txLive) :
    (∃ v rest rest', c.q = v :: rest ∧ c'.q = v :: rest' ∧ c.recv = .got v { c with q := rest } ∧
      c'.recv = .got v { c' with q := rest' }) ∨ (c.recv = .hold ∧ c'.recv = .hold) ∨
      (c.recv = .broken ∧ c'.recv = .broken) := by
  obtain ⟨v, rest, hq, hr⟩ | ⟨hq, ht, hr⟩ | ⟨hq, ht, hr⟩ := recv_cases c
  · have hhead' : c'.q.head? = some v := by rw [← hhead, hq]; rfl
    obtain ⟨rest', hq'⟩ := List.head?_eq_some_iff.mp hhead'
    exact .inl ⟨v, rest, rest', hq, hq', hr, recv_got_iff.mpr ⟨rest', hq', rfl⟩⟩
  · have hq' : c'.q = [] := by simpa [hq, eq_comm] using hhead
    exact .inr (.inl ⟨hr, by simp [Channel.recv, hq', ← htx, ht]⟩)
  · have hq' : c'.q = [] := by simpa [hq, eq_comm] using hhead
    exact .inr (.inr ⟨hr, by simp [Channel.recv, hq', ← htx, ht]⟩)

/-- The answers `r` and `r'` of the turns of `u`'s and `u'`'s active engines `e` and `e'` are alike (R118). -/
def AnswersAlike (u u' : State) (e e' : Engine) (r r' : Result) : Prop :=
  ∃ (t t' : State) (f f' : Engine) (taken : Nat) (sent : List Word),
    r = .next t ∧ r' = .next t' ∧ t.engines[u.active]? = some f ∧ t'.engines[u'.active]? = some f' ∧
      EnginesAlike e e' f f' ∧ QueuesMove u t taken sent ∧ QueuesMove u' t' taken sent

section AnswersAlike
variable {u u' t t' : State} {φ : Option FaultRecord} {y : Option Word} {e : Engine}
  (he : u.engine? = some e) (he' : u'.engine? = some (withRecord φ y e))
include he he'

theorem answersAlike_set {f f' : Engine} {taken : Nat} {sent : List Word} (ht : t.engines = u.engines.set u.active f)
    (ht' : t'.engines = u'.engines.set u'.active f') (hf : EnginesAlike e (withRecord φ y e) f f')
    (hq : QueuesMove u t taken sent) (hq' : QueuesMove u' t' taken sent) :
    AnswersAlike u u' e (withRecord φ y e) (.next t) (.next t') :=
  ⟨t, t', f, f', taken, sent, rfl, rfl, by simp [ht, engine_lt he], by simp [ht', engine_lt he'], hf, hq, hq'⟩

theorem answersAlike_stay (ht : t.engines = u.engines) (htc : t.channels = u.channels) (ht' : t'.engines = u'.engines)
    (htc' : t'.channels = u'.channels) : AnswersAlike u u' e (withRecord φ y e) (.next t) (.next t') :=
  ⟨t, t', e, withRecord φ y e, 0, [], rfl, rfl, ht ▸ he, ht' ▸ he', enginesAlike_of_sameRun ⟨rfl, rfl, rfl, rfl⟩,
    queuesMove_of_sameChannels htc, queuesMove_of_sameChannels htc'⟩

theorem answersAlike_terminated {f f' : Engine} (hf : EnginesAlike e (withRecord φ y e) f f') :
    AnswersAlike u u' e (withRecord φ y e) (.next (u.setEngine f).terminated) (.next (u'.setEngine f').terminated) :=
  answersAlike_set he he' (by simp) (by simp) hf (queuesMove_of_sidesAfterEnd (terminated_sides u f))
    (queuesMove_of_sidesAfterEnd (terminated_sides u' f'))

/-- What is resolved alike raises alike, or goes on. -/
theorem answersAlike_attempt {α : Type} {r : Except Cause α} {k k' : α → Result}
    (h : ∀ a, r = .ok a → AnswersAlike u u' e (withRecord φ y e) (k a) (k' a)) :
    AnswersAlike u u' e (withRecord φ y e) (u.attempt e r k) (u'.attempt (withRecord φ y e) r k') := by
  cases r with
  | ok a => exact h a rfl
  | error c => exact answersAlike_terminated he he' (enginesAlike_fatal c)

/-- The shape the four-word, jump and base instructions share. -/
theorem answersAlike_commit {r : Engine → Except Cause Engine} (hr : r (withRecord φ y e) = withRecord φ y <$> r e)
    (hrun : ∀ f, r e = .ok f → SameRun e f) :
    AnswersAlike u u' e (withRecord φ y e) (u.withEngine fun e => u.attempt e (r e) fun f => .next (u.setEngine f))
      (u'.withEngine fun e => u'.attempt e (r e) fun f => .next (u'.setEngine f)) := by
  rw [withEngine_some he, withEngine_some he', hr]
  cases h : r e with
  | ok f =>
    exact answersAlike_set he he' rfl rfl (enginesAlike_of_sameRun (hrun f h)) (queuesMove_of_sameChannels rfl)
      (queuesMove_of_sameChannels rfl)
  | error c => exact answersAlike_terminated he he' (enginesAlike_fatal c)

theorem answersAlike_input {c c' : Channel} (m1 : Mode) (hc : u.channels[u.inChannel]? = some c)
    (hc' : u'.channels[u'.inChannel]? = some c') (hhead : c.q.head? = c'.q.head?) (htx : c.txLive = c'.txLive) :
    AnswersAlike u u' e (withRecord φ y e) (execInput m1 u) (execInput m1 u') := by
  rw [execInput, execInput, withEngine_some he, withEngine_some he', withRecord_inputPlan]
  refine answersAlike_attempt he he' fun p _ => ?_
  rw [withChannel_some hc, withChannel_some hc']
  obtain ⟨v, rest, rest', hq, hq', hr, hr'⟩ | ⟨hr, hr'⟩ | ⟨hr, hr'⟩ := recv_alike hhead htx <;> rw [hr, hr']
  · exact answersAlike_set he he' rfl rfl (enginesAlike_of_sameRun ⟨rfl, rfl, rfl, rfl⟩) (queuesMove_received hc hq rfl)
      (queuesMove_received hc' hq' rfl)
  · exact answersAlike_stay he he' rfl rfl rfl rfl
  · exact answersAlike_terminated he he' (enginesAlike_fatal .brokenChannel)

theorem answersAlike_output {c c' : Channel} (m1 : Mode) (hc : u.channels[u.outChannel]? = some c)
    (hc' : u'.channels[u'.outChannel]? = some c') (hrx : c.rxLive = c'.rxLive) :
    AnswersAlike u u' e (withRecord φ y e) (execOutput m1 u) (execOutput m1 u') := by
  rw [execOutput, execOutput, withEngine_some he, withEngine_some he', withRecord_outputPlan]
  refine answersAlike_attempt he he' fun p _ => ?_
  rw [withChannel_some hc, withChannel_some hc']
  cases hl : c.rxLive with
  | true =>
    rw [send_some_iff.mpr ⟨hl, rfl⟩, send_some_iff.mpr ⟨hrx ▸ hl, rfl⟩]
    exact answersAlike_set he he' rfl rfl (enginesAlike_afterOutput p.1 (f := { e with pc := p.2 }) ⟨rfl, rfl, rfl, rfl⟩)
      (queuesMove_sent hc rfl) (queuesMove_sent hc' rfl)
  | false =>
    rw [send_none_iff.mpr hl, send_none_iff.mpr (hrx ▸ hl)]
    exact answersAlike_terminated he he' (enginesAlike_fatal .brokenChannel)

/-- An instruction answers alike in two machines whose active engines differ in the fault record and the yielded value alone, if
it finds alike in the channel it looks at (R118). -/
theorem answersAlike_exec (i : Instr) (hw : Wired u) (hw' : Wired u')
    (hin : ∀ m1 m2 m3, i = .input m1 m2 m3 → ∀ c c' : Channel, u.channels[u.inChannel]? = some c →
      u'.channels[u'.inChannel]? = some c' → c.q.head? = c'.q.head? ∧ c.txLive = c'.txLive)
    (hout : ∀ m1 m2 m3, i = .output m1 m2 m3 → ∀ c c' : Channel, u.channels[u.outChannel]? = some c →
      u'.channels[u'.outChannel]? = some c' → c.rxLive = c'.rxLive) :
    AnswersAlike u u' e (withRecord φ y e) (exec i u) (exec i u') := by
  obtain ⟨hwin, hwout⟩ := hw
  obtain ⟨hwin', hwout'⟩ := hw'
  cases i with
  | add | mul | lessThan | equal =>
    exact answersAlike_commit he he' (withRecord_binary φ y e _ _ _ _ _) fun _ hf => (binary_local (P := False) hf).run
  | jumpIfTrue | jumpIfFalse =>
    exact answersAlike_commit he he' (withRecord_jump φ y e _ _ _ _) fun _ hf => (jump_local (P := False) hf).run
  | adjustRelativeBase m1 =>
    exact answersAlike_commit he he' (withRecord_rebase φ y e m1) fun _ hf => (rebase_local hf).run
  | input m1 m2 m3 =>
    have hc := List.getElem?_eq_getElem hwin
    have hc' := List.getElem?_eq_getElem hwin'
    obtain ⟨hhead, htx⟩ := hin m1 m2 m3 rfl _ _ hc hc'
    exact answersAlike_input he he' m1 hc hc' hhead htx
  | output m1 m2 m3 =>
    have hc := List.getElem?_eq_getElem hwout
    have hc' := List.getElem?_eq_getElem hwout'
    exact answersAlike_output he he' m1 hc hc' (hout m1 m2 m3 rfl _ _ hc hc')
  | halt =>
    rw [exec, exec, execHalt, execHalt, withEngine_some he, withEngine_some he']
    exact answersAlike_terminated he he' enginesAlike_halted

/-- A turn answers alike in two machines whose active engines differ in the fault record and the yielded value alone, if the
instruction it fetches does. -/
theorem answersAlike_step {s s' : State} {k k' : Nat} (h : TurnOf s k u) (h' : TurnOf s' k' u')
    (hexec : ∀ i, e.decoded = .ok i → AnswersAlike u u' e (withRecord φ y e) (exec i u) (exec i u')) :
    AnswersAlike u u' e (withRecord φ y e) (step s) (step s') := by
  cases hr : e.ready with
  | true =>
    rw [step_turn_ready h he hr, step_turn_ready h' he' hr, withRecord_decoded]
    exact answersAlike_attempt he he' hexec
  | false =>
    rw [step_turn_idle h fun f hf => by simp_all, step_turn_idle h' fun f hf => by simp_all]
    exact answersAlike_stay he he' rfl rfl rfl rfl

end AnswersAlike

/-- What an engine decodes is the instruction it fetches. -/
theorem fetches_of_decoded {e : Engine} {i : Instr} (h : e.decoded = .ok i) : Fetches e i := by
  by_cases hpc : 0 ≤ e.pc.toInt
  · refine ⟨hpc, ?_⟩
    cases hd : decode (e.mem.read e.pc.toNat) with
    | ok j => rw [decoded_ok hpc hd] at h; cases h; rfl
    | error d => rw [decoded_error hpc hd] at h; cases h
  · rw [decoded_negative (not_le.mp hpc)] at h
    cases h

/-- Settles O39: the two engines differ in the fault record and the yielded value alone, which no step reads. -/
theorem stepDependsOnOwnState : Obligations.StepDependsOnOwnState := by
  intro s s' u u' k k' e e' h h' he he' hs hs' hpc hrb hmem hgrant hw hw' hin hout
  have hrecord := eq_withRecord hpc hrb hmem (hs.trans hs'.symm) hgrant
  generalize e'.fault = φ, e'.yielded = y at hrecord
  subst hrecord
  have halike := answersAlike_step he he' h h' fun i hi =>
    answersAlike_exec he he' i hw hw' (fun m1 m2 m3 hinput => hin m1 m2 m3 (hinput ▸ fetches_of_decoded hi))
      fun m1 m2 m3 houtput => hout m1 m2 m3 (houtput ▸ fetches_of_decoded hi)
  obtain ⟨t, t', f, f', taken, sent, ht, ht', hf, hf', ha, hq, hq'⟩ := halike
  rw [turnOf_active h] at hf
  rw [turnOf_active h'] at hf'
  exact ⟨t, t', f, f', taken, sent, ht, ht', hf, hf', ha.pc, ha.rb, ha.mem, ha.status, ha.grant, ha.fault, ha.yielded, hq, hq'⟩

end Sys2Proof.Proofs
end

section
/-! SUPPORT. The arithmetic family (spec/41_arithmetic.md): the meaning add, multiply, less-than and equal share, what completing
it stores and what a result that does not fit raises, and the statements of the family. -/

namespace Sys2Proof.Proofs

open Sys2Proof.Machine Sys2Proof.Safety Sys2Proof.Laws

/-! ### Committing -/

section Commit
variable {s : State} {e e' : Engine} {c : Cause} {r : Engine → Except Cause Engine}

/-- What the shape the four-word, jump and base instructions share answers where it resolves. -/
theorem commit_ok (he : s.engine? = some e) (hr : r e = .ok e') :
    (s.withEngine fun e => s.attempt e (r e) fun e' => .next (s.setEngine e')) = .next (s.setEngine e') :=
  (withEngine_some he _).trans (attempt_ok hr _)

/-- What that shape answers where it raises. -/
theorem commit_error (he : s.engine? = some e) (hr : r e = .error c) :
    (s.withEngine fun e => s.attempt e (r e) fun e' => .next (s.setEngine e')) = .next (s.raise e c) :=
  (withEngine_some he _).trans (attempt_error hr _)

end Commit

/-! ### The four-word operations -/

/-- `op` has the four-word shape, whatever its modes: two operands are read and `f` of their values is stored (R140, R141, R170,
R171). -/
structure FourWord (op : Op) (f : Word → Word → Except Cause Word) : Prop where
  length : op.length = 4
  meaning : ∀ (m1 m2 m3 : Mode) (s : State), exec (op.instr m1 m2 m3) s =
    s.withEngine fun e => s.attempt e (e.binary op f m1 m2 m3) fun e' => .next (s.setEngine e')

theorem fourWord_add : FourWord .add sum := ⟨rfl, fun _ _ _ _ => rfl⟩
theorem fourWord_mul : FourWord .mul product := ⟨rfl, fun _ _ _ _ => rfl⟩
theorem fourWord_lessThan : FourWord .lessThan lessThan := ⟨rfl, fun _ _ _ _ => rfl⟩
theorem fourWord_equal : FourWord .equal equal := ⟨rfl, fun _ _ _ _ => rfl⟩

/-- The four operations of R143 have the four-word shape. -/
theorem exists_fourWord {op : Op} (h : op = .add ∨ op = .mul ∨ op = .lessThan ∨ op = .equal) : ∃ f, FourWord op f := by
  obtain rfl | rfl | rfl | rfl := h
  · exact ⟨_, fourWord_add⟩
  · exact ⟨_, fourWord_mul⟩
  · exact ⟨_, fourWord_lessThan⟩
  · exact ⟨_, fourWord_equal⟩

/-- The next pc of an operation of length `n`, where it fits (R112 phase 4). -/
theorem advance_of_fits {e : Engine} {op : Op} {n : Nat} (hlen : op.length = n) (hpc : Fits (e.pc.toInt + n)) :
    e.advance op = .ok (wordOf (e.pc.toInt + n)) := by
  rw [Engine.advance, hlen, chk64_fits hpc]

section FourWord
variable {s : State} {e : Engine} {op : Op} {f : Word → Word → Except Cause Word} {m1 m2 m3 : Mode} {va vb dest : Word}
  (hop : FourWord op f) (he : s.engine? = some e) (ha : e.val m1 1 = .ok va) (hb : e.val m2 2 = .ok vb)
  (hd : e.addr m3 3 = .ok dest) (hpc : Fits (e.pc.toInt + 4))
include hop he ha hb hd hpc

/-- Where the operands resolve and the next pc and the result `r` fit, `r` is stored, `pc` moves by 4 and nothing else changes. -/
theorem fourWord_completes {r : Word} {n : Int} (hm : e.mem.wf = true) (hr : f va vb = .ok r) (hn : r.toInt = n) :
    ∃ t e', exec (op.instr m1 m2 m3) s = .next t ∧ t.engine? = some e' ∧ SameAround s t ∧ SameChannels s t ∧
      SameRun e e' ∧ e'.rb = e.rb ∧ e'.pc.toInt = e.pc.toInt + 4 ∧ (e'.mem.read dest.toNat).toInt = n ∧
      SameMemoryBut e e' dest.toNat := by
  have hnext : e.advance op = .ok (wordOf (e.pc.toInt + 4)) := advance_of_fits hop.length hpc
  have hresolve := binary_ok_iff.mpr ⟨va, vb, dest, _, r, ha, hb, hd, hnext, hr, rfl⟩
  have hread : ((e.mem.write dest.toNat r).read dest.toNat).toInt = n := by rw [read_write_same hm, hn]
  exact ⟨_, _, (hop.meaning ..).trans (commit_ok he hresolve), setEngine_engine _ _ (engine_lt he), sameAround_setEngine _ _,
    ⟨rfl, rfl⟩, ⟨rfl, rfl, rfl, rfl⟩, rfl, wordOf_toInt hpc, hread, fun _ hne => read_write_other hne⟩

/-- Where the operands resolve and the next pc fits, what `f` raises is taken. -/
theorem fourWord_takesFatal {c : Cause} (hr : f va vb = .error c) :
    ∃ t, exec (op.instr m1 m2 m3) s = .next t ∧ TakesFatal s e c t := by
  have hnext : e.advance op = .ok (wordOf (e.pc.toInt + 4)) := advance_of_fits hop.length hpc
  have hraise : e.binary op f m1 m2 m3 = .error c := by
    simp only [Engine.binary, addr_ok_writable hd, ha, hb, hd, hnext, hr, bind, Except.bind]
  exact ⟨_, (hop.meaning ..).trans (commit_error he hraise), raise_takesFatal he⟩

end FourWord

/-- Where a four-word operation with these operands does not end in the exception, `f` of their values is what it has stored, at
their destination, and `pc` has moved by 4. -/
theorem fourWord_completed {s t : State} {e g : Engine} {op : Op} {f : Word → Word → Except Cause Word} {m1 m2 m3 : Mode}
    {va vb dest : Word} (hop : FourWord op f) (he : s.engine? = some e) (hm : e.mem.wf = true) (ha : e.val m1 1 = .ok va)
    (hb : e.val m2 2 = .ok vb) (hd : e.addr m3 3 = .ok dest) (ht : exec (op.instr m1 m2 m3) s = .next t)
    (hg : t.engine? = some g) (hstatus : g.status ≠ .fatal) :
    f va vb = .ok (g.mem.read dest.toNat) ∧ g.pc.toInt = e.pc.toInt + 4 := by
  obtain ⟨e₀, he₀, ⟨c, _, rfl⟩ | ⟨e₁, hbinary, rfl⟩⟩ := commit_next ((hop.meaning ..).symm.trans ht)
  · obtain ⟨_, hfatal, _⟩ := raise_takesFatal (c := c) he₀
    cases hfatal.symm.trans hg
    exact absurd rfl hstatus
  · cases he.symm.trans he₀
    cases (setEngine_engine s e₁ (engine_lt he)).symm.trans hg
    obtain ⟨va', vb', dest', npc, r, ha', hb', hd', hnext, hr, rfl⟩ := binary_ok_iff.mp hbinary
    cases ha.symm.trans ha'
    cases hb.symm.trans hb'
    cases hd.symm.trans hd'
    rw [advance_ok_iff, hop.length] at hnext
    exact ⟨hr.trans (congrArg Except.ok (read_write_same hm).symm), hnext⟩

/-- Where the operand resolves and the next pc fits, a new base that does not fit is what an adjustment raises (R180). -/
theorem rebase_overflow {e : Engine} {m1 : Mode} {va : Word} (ha : e.val m1 1 = .ok va) (hpc : Fits (e.pc.toInt + 2))
    (hrb : ¬ Fits (e.rb.toInt + va.toInt)) : e.rebase m1 = .error .arithmeticOverflow := by
  have hnext : e.advance .adjustRelativeBase = .ok (wordOf (e.pc.toInt + 2)) := advance_of_fits rfl hpc
  simp only [Engine.rebase, ha, hnext, chk64_error_iff.mpr ⟨hrb, rfl⟩, bind, Except.bind]

/-! ### The statements -/

/-- Settles O10: add is the four-word operation of the exact sum. -/
theorem addStoresSum : Obligations.AddStoresSum := fun _ _ _ _ _ _ _ _ he hm ha hb hd hpc hsum =>
  fourWord_completes fourWord_add he ha hb hd hpc hm (chk64_fits hsum) (wordOf_toInt hsum)

/-- Settles O11: multiply is the four-word operation of the exact product. -/
theorem multiplyStoresProduct : Obligations.MultiplyStoresProduct := fun _ _ _ _ _ _ _ _ he hm ha hb hd hpc hproduct =>
  fourWord_completes fourWord_mul he ha hb hd hpc hm (chk64_fits hproduct) (wordOf_toInt hproduct)

/-- Settles O15: the first form shows that the result and the next pc fit, which do not depend on the modes; so the second form
completes with the same result. -/
theorem addressingModesAreEquivalent : Obligations.AddressingModesAreEquivalent := by
  intro op s s' e e' m1 m2 m3 n1 n2 n3 va vb dest hop he he' hm hm' hpc ha ha' hb hb' hd hd' t g ht hg hstatus
  obtain ⟨f, hf⟩ := exists_fourWord hop
  obtain ⟨hresult, hgpc⟩ := fourWord_completed hf he hm ha hb hd ht hg hstatus
  have hnext : g.pc.toInt = e'.pc.toInt + 4 := hpc ▸ hgpc
  have hfits : Fits (e'.pc.toInt + 4) := hnext ▸ toInt_fits g.pc
  obtain ⟨t', g', ht', hg', _, _, _, _, hgpc', hread, _⟩ := fourWord_completes hf he' ha' hb' hd' hfits hm' hresult rfl
  exact ⟨t', g', ht', hg', BitVec.toInt_inj.mp hread, BitVec.toInt_inj.mp (hgpc'.trans hnext.symm), hgpc⟩

/-- Settles O16: the operands and the next pc resolve, so chk64 of the result is what raises. -/
theorem resultOverflowIsFatal : Obligations.ResultOverflowIsFatal := by
  intro s e m1 m2 m3 va he ha
  refine ⟨fun vb dest hb hd hpc => ⟨fun hsum => ?_, fun hproduct => ?_⟩, fun hpc hrb => ?_⟩
  · exact fourWord_takesFatal fourWord_add he ha hb hd hpc (chk64_error_iff.mpr ⟨hsum, rfl⟩)
  · exact fourWord_takesFatal fourWord_mul he ha hb hd hpc (chk64_error_iff.mpr ⟨hproduct, rfl⟩)
  · exact ⟨_, commit_error he (rebase_overflow ha hpc hrb), raise_takesFatal he⟩

end Sys2Proof.Proofs
end

section
/-! SUPPORT. The input and output family (spec/42_io.md): what an input and an output that pass their checks answer, for each
thing that their channel can hold, and the statements of the family. -/

namespace Sys2Proof.Proofs

open Sys2Proof.Machine Sys2Proof.Safety Sys2Proof.Laws

/-! ### Input -/

section Input
variable {s : State} {e : Engine} {m1 m2 m3 : Mode} {dest : Word} {ch : Channel}
  (he : s.engine? = some e) (hd : e.addr m1 1 = .ok dest) (hpc : Fits (e.pc.toInt + 2))
  (hc : s.channels[s.inChannel]? = some ch)

include hd hpc in
/-- An input passes its checks where its destination resolves and the next pc fits (R150, D8). -/
theorem inputPlan_of_fits : e.inputPlan m1 = .ok (dest, wordOf (e.pc.toInt + 2)) :=
  inputPlan_ok_iff.mpr ⟨hd, advance_of_fits rfl hpc⟩

include he hd hpc hc

/-- Where a value is queued, an input that passes its checks takes the head and stores it, its sender live or not (R150, R205). -/
theorem exec_input_of_cons {v : Word} {rest : List Word} (hq : ch.q = v :: rest) : exec (.input m1 m2 m3) s =
    .next ((s.setChannel s.inChannel { ch with q := rest }).setEngine
      { e.store dest v with pc := wordOf (e.pc.toInt + 2) }) := by
  have hrecv : ch.recv = .got v { ch with q := rest } := recv_got_iff.mpr ⟨rest, hq, rfl⟩
  rw [exec, execInput, withEngine_some he, attempt_ok (inputPlan_of_fits hd hpc), withChannel_some hc, hrecv]

/-- Where nothing is queued, an input that passes its checks holds if its sender is live and otherwise raises
BrokenChannel (R205, R206, D28). -/
theorem exec_input_of_nil (hq : ch.q = []) :
    exec (.input m1 m2 m3) s = .next (if ch.txLive then s else s.raise e .brokenChannel) := by
  rw [exec, execInput, withEngine_some he, attempt_ok (inputPlan_of_fits hd hpc), withChannel_some hc]
  obtain ⟨_, _, hcons, _⟩ | ⟨_, hlive, hrecv⟩ | ⟨_, hdropped, hrecv⟩ := recv_cases ch
  · cases hq.symm.trans hcons
  · rw [hrecv, if_pos hlive]
  · rw [hrecv, hdropped, if_neg Bool.false_ne_true]

end Input

/-! ### Output -/

/-- LAST after a Send, over the number of the stage whose turn it is: in a loop only the last stage sends to
`c[0]` (R239, D23). -/
theorem lastAfterSend_eq (s : State) (v : Word) : s.lastAfterSend v =
    if s.config.topology = .feedbackLoop ∧ (s.active + 1) % s.config.nStages = 0 then some v else s.last := by
  cases h : s.config.topology with
  | pipeline => simp [State.lastAfterSend, h]
  | feedbackLoop => simp [State.lastAfterSend, State.outChannel, outChannelOf, h]

section Output
variable {s : State} {e : Engine} {m1 m2 m3 : Mode} {v : Word} {ch : Channel}
  (he : s.engine? = some e) (hv : e.val m1 1 = .ok v) (hpc : Fits (e.pc.toInt + 2))
  (hc : s.channels[s.outChannel]? = some ch)

include hv hpc in
/-- An output passes its checks where its operand resolves and the next pc fits (R151, D8). -/
theorem outputPlan_of_fits : e.outputPlan m1 = .ok (v, wordOf (e.pc.toInt + 2)) :=
  outputPlan_ok_iff.mpr ⟨hv, advance_of_fits rfl hpc⟩

include he hv hpc hc

/-- To a live receiver, an output that passes its checks appends its value (R151, R204). -/
theorem exec_output_of_live (hr : ch.rxLive = true) : exec (.output m1 m2 m3) s =
    .next (({ s with last := s.lastAfterSend v }.setChannel s.outChannel { ch with q := ch.q ++ [v] }).setEngine
      ({ e with pc := wordOf (e.pc.toInt + 2) }.afterOutput v)) := by
  have hsend : ch.send v = some { ch with q := ch.q ++ [v] } := send_some_iff.mpr ⟨hr, rfl⟩
  rw [exec, execOutput, withEngine_some he, attempt_ok (outputPlan_of_fits hv hpc), withChannel_some hc, hsend]

/-- To a dropped receiver, an output that passes its checks raises BrokenChannel (R151, R204, D29). -/
theorem exec_output_of_dropped (hr : ch.rxLive = false) :
    exec (.output m1 m2 m3) s = .next (s.raise e .brokenChannel) := by
  rw [exec, execOutput, withEngine_some he, attempt_ok (outputPlan_of_fits hv hpc), withChannel_some hc,
    send_none_iff.mpr hr]

end Output

/-! ### The statements -/

/-- Settles O22: the one channel written is the input's own, and the engine is written with one store and its next pc. -/
theorem inputStoresHead : Obligations.InputStoresHead := by
  intro s e m1 m2 m3 dest v ch rest he hm hd hpc hc hq
  have hread : (e.mem.write dest.toNat v).read dest.toNat = v := read_write_same hm
  exact ⟨_, _, exec_input_of_cons he hd hpc hc hq, setEngine_engine _ _ (engine_lt he), sameAround_setEngine _ _, rfl, rfl,
    ⟨rfl, rfl, rfl, rfl⟩, rfl, wordOf_toInt hpc, hread, fun _ hne => read_write_other hne⟩

/-- Settles O23: the hold is the live case of the empty queue. -/
theorem inputHoldsWhileEmpty : Obligations.InputHoldsWhileEmpty := by
  intro s e m1 m2 m3 dest ch he hd hpc hc hq hlive
  rw [exec_input_of_nil he hd hpc hc hq, if_pos hlive]

/-- Settles O25: what the output writes of its engine beside the pc is what the run contract does after it. -/
theorem outputSendsValue : Obligations.OutputSendsValue := by
  intro s e m1 m2 m3 v ch he hv hpc hc hr
  refine ⟨_, _, exec_output_of_live he hv hpc hc hr, setEngine_engine _ _ (engine_lt he), sameAround_setEngine _ _, rfl,
    lastAfterSend_eq s v, ?_, afterOutput_rb _ _, fun _ => by rw [afterOutput_mem], afterOutput_status _ _,
    afterOutput_fault _ _, fun hyield => afterOutput_yield _ v hyield, fun hstay => ?_⟩
  · rw [afterOutput_pc]
    exact wordOf_toInt hpc
  · rw [afterOutput_stay { e with pc := wordOf (e.pc.toInt + 2) } v hstay]
    exact ⟨rfl, rfl⟩

/-- Settles O26: the dropped case of the empty queue for the input and of the receive side for the output; both raise. -/
theorem brokenChannelIsFatal : Obligations.BrokenChannelIsFatal := by
  refine fun s e m1 m2 m3 ch he hpc => ⟨fun dest hd hc hq hdropped => ?_, fun v hv hc hdropped => ?_⟩
  · refine ⟨_, exec_input_of_nil he hd hpc hc hq, ?_⟩
    rw [hdropped, if_neg Bool.false_ne_true]
    exact raise_takesFatal he
  · exact ⟨_, exec_output_of_dropped he hv hpc hc hdropped, raise_takesFatal he⟩

end Sys2Proof.Proofs
end

section
/-! SUPPORT. The jumps family (spec/43_jumps.md): the meaning the two conditional jumps share, what completing it does to the
machine, and the statements of the family. -/

namespace Sys2Proof.Proofs

open Sys2Proof.Machine Sys2Proof.Safety Sys2Proof.Laws

/-! ### The conditional jumps -/

/-- `op` has the shape of a jump, whatever its modes: the first operand is the condition, on which `taken` decides, and the second
the target (R160, R161). -/
structure ConditionalJump (op : Op) (taken : Word → Bool) : Prop where
  length : op.length = 3
  meaning : ∀ (m1 m2 m3 : Mode) (s : State), exec (op.instr m1 m2 m3) s =
    s.withEngine fun e => s.attempt e (e.jump op taken m1 m2) fun e' => .next (s.setEngine e')

theorem conditionalJump_ifTrue : ConditionalJump .jumpIfTrue fun va => decide (va.toInt ≠ 0) := ⟨rfl, fun _ _ _ _ => rfl⟩
theorem conditionalJump_ifFalse : ConditionalJump .jumpIfFalse fun va => decide (va.toInt = 0) := ⟨rfl, fun _ _ _ _ => rfl⟩

/-- Where both operands resolve and `pc + 3` fits, `pc` becomes the target or `pc + 3` as `taken` decides on the condition, and
nothing else changes (D8); the target is any word (R162). -/
theorem conditionalJump_completes {s : State} {e : Engine} {op : Op} {taken : Word → Bool} {m1 m2 m3 : Mode} {va vb : Word}
    {n : Int} (hop : ConditionalJump op taken) (he : s.engine? = some e) (ha : e.val m1 1 = .ok va) (hb : e.val m2 2 = .ok vb)
    (hpc : Fits (e.pc.toInt + 3)) (hn : (if taken va then vb.toInt else e.pc.toInt + 3) = n) :
    ∃ t e', exec (op.instr m1 m2 m3) s = .next t ∧ t.engine? = some e' ∧ SameAround s t ∧ SameChannels s t ∧
      SameRun e e' ∧ e'.rb = e.rb ∧ SameMemory e e' ∧ e'.pc.toInt = n := by
  have hnext : e.advance op = .ok (wordOf (e.pc.toInt + 3)) := advance_of_fits hop.length hpc
  have hresolve := (jump_ok_iff (taken := taken)).mpr ⟨va, vb, _, ha, hb, hnext, rfl⟩
  have htarget : (if taken va then vb else wordOf (e.pc.toInt + 3)).toInt = n := by
    rw [apply_ite BitVec.toInt, wordOf_toInt hpc, hn]
  exact ⟨_, _, (hop.meaning ..).trans (commit_ok he hresolve), setEngine_engine _ _ (engine_lt he), sameAround_setEngine _ _,
    ⟨rfl, rfl⟩, ⟨rfl, rfl, rfl, rfl⟩, rfl, fun _ => rfl, htarget⟩

/-! ### The statements -/

/-- Settles O17: jump-if-true is the conditional jump taken on any word but zero. -/
theorem jumpIfTrueSetsPc : Obligations.JumpIfTrueSetsPc := fun _ _ _ _ _ _ _ he ha hb hpc =>
  conditionalJump_completes conditionalJump_ifTrue he ha hb hpc (by simp only [decide_eq_true_eq, ite_not])

/-- Settles O18: jump-if-false is the conditional jump taken on zero. -/
theorem jumpIfFalseSetsPc : Obligations.JumpIfFalseSetsPc := fun _ _ _ _ _ _ _ he ha hb hpc =>
  conditionalJump_completes conditionalJump_ifFalse he ha hb hpc (by simp only [decide_eq_true_eq])

end Sys2Proof.Proofs
end

section
/-! SUPPORT. The comparison family (spec/44_compare.md): the first cause met while parameters are resolved in order as what the
machine's own resolving raises, the word of a comparison's result, and the statements of the family. -/

namespace Sys2Proof.Proofs

open Sys2Proof.Machine Sys2Proof.Safety Sys2Proof.Laws

/-! ### The first cause -/

section FirstRaise
variable {e : Engine} {m : Mode} {rest : List (Role × Mode)} {n : Nat} {c : Cause}

/-- A write parameter has an address exactly where the machine resolves one: an address is the value of a word (R51, R115). -/
theorem resolvable_write_iff : Resolvable e .write m n ↔ ∃ d, e.addr m n = .ok d := by
  simp only [Resolvable, addr_ok_iff]
  refine ⟨fun ⟨a, ha⟩ => ?_, fun ⟨d, hd⟩ => ⟨d.toInt, hd⟩⟩
  have hfits : Fits a := by
    obtain ⟨p, _, hmode⟩ := ha
    cases m with
    | immediate => exact hmode.elim
    | position => exact hmode.1 ▸ toInt_fits p
    | relative => exact ⟨le_trans (by decide) hmode.2.1, hmode.2.2⟩
  exact ⟨wordOf a, (wordOf_toInt hfits).symm ▸ ha⟩

/-- After the last parameter only the next pc can raise (R112 phase 4). -/
theorem firstRaise_nil_iff {op : Op} (hlen : op.length = n) : FirstRaise e [] n c ↔ e.advance op = .error c := by
  rw [Engine.advance, hlen, chk64_error_iff, FirstRaise]

/-- A read parameter raises, or has a value and what follows raises (R112 phase 3). -/
theorem firstRaise_read_iff : FirstRaise e ((.read, m) :: rest) n c ↔
    e.val m n = .error c ∨ ∃ v, e.val m n = .ok v ∧ FirstRaise e rest (n + 1) c := by
  simp only [FirstRaise, Resolvable, val_error_iff, val_ok_iff, exists_and_right]

/-- A legal write parameter raises, or has an address and what follows raises (R112 phase 3, D8). -/
theorem firstRaise_write_iff (hm : m ≠ .immediate) : FirstRaise e ((.write, m) :: rest) n c ↔
    e.addr m n = .error c ∨ ∃ d, e.addr m n = .ok d ∧ FirstRaise e rest (n + 1) c := by
  simp only [FirstRaise, resolvable_write_iff, addr_error_iff hm, exists_and_right]

end FirstRaise

/-- What the four-word shape raises before it comes to its result: the first cause of its two operands, its destination and its
next pc, in that order (R266 items 6 and 7). -/
theorem binary_error_of_firstRaise {e : Engine} {op : Op} {f : Word → Word → Except Cause Word} {m1 m2 m3 : Mode} {c : Cause}
    (hlen : op.length = 4) (hm : m3 ≠ .immediate)
    (hc : FirstRaise e [(.read, m1), (.read, m2), (.write, m3)] 1 c) : e.binary op f m1 m2 m3 = .error c := by
  rw [firstRaise_read_iff, firstRaise_read_iff, firstRaise_write_iff hm, firstRaise_nil_iff hlen] at hc
  simp only [Engine.binary, bind_error_iff]
  refine .inr ⟨(), writable_ok_iff.mpr hm, ?_⟩
  obtain ha | ⟨va, ha, hb | ⟨vb, hb, hd | ⟨dest, hd, hnext⟩⟩⟩ := hc
  · exact .inl ha
  · exact .inr ⟨va, ha, .inl hb⟩
  · exact .inr ⟨va, ha, .inr ⟨vb, hb, .inl hd⟩⟩
  · exact .inr ⟨va, ha, .inr ⟨vb, hb, .inr ⟨dest, hd, .inl hnext⟩⟩⟩

/-- The first cause that a four-word operation meets before its result is the exception it takes. -/
theorem fourWord_raises {s : State} {e : Engine} {op : Op} {f : Word → Word → Except Cause Word} {m1 m2 m3 : Mode} {c : Cause}
    (hop : FourWord op f) (he : s.engine? = some e) (hm : m3 ≠ .immediate)
    (hc : FirstRaise e [(.read, m1), (.read, m2), (.write, m3)] 1 c) :
    ∃ t, exec (op.instr m1 m2 m3) s = .next t ∧ TakesFatal s e c t :=
  ⟨_, (hop.meaning ..).trans (commit_error he (binary_error_of_firstRaise hop.length hm hc)), raise_takesFatal he⟩

/-- A four-word operation whose write parameter is in immediate mode takes WriteToImmediate (R92). -/
theorem fourWord_immediate {s : State} {e : Engine} {op : Op} {f : Word → Word → Except Cause Word} {m1 m2 m3 : Mode}
    (hop : FourWord op f) (he : s.engine? = some e) (hm : m3 = .immediate) :
    ∃ t, exec (op.instr m1 m2 m3) s = .next t ∧ TakesFatal s e .writeToImmediate t := by
  subst hm
  exact ⟨_, (hop.meaning ..).trans (commit_error he (binary_immediate ..)), raise_takesFatal he⟩

/-! ### Encoding -/

/-- R83, from the highest digit down. -/
theorem encodeNat_instr (op : Op) (m1 m2 m3 : Mode) : encodeNat (op.instr m1 m2 m3) =
    10000 * digitOfMode m3 + 1000 * digitOfMode m2 + 100 * digitOfMode m1 + codeOfOp op := by
  simp only [encodeNat, instr_op, instr_modes]
  omega

/-! ### Results of comparisons -/

/-- The value of a comparison's result (R25, R170). -/
theorem truth_toInt (p : Prop) [Decidable p] : (truth (decide p)).toInt = if p then 1 else 0 := by
  simp only [truth, decide_eq_true_eq, apply_ite BitVec.toInt]
  rfl

/-- The result of equal is as equality of the two words: a word is determined by its value (R7). -/
theorem truth_toInt_eq (a b : Word) : (truth (decide (a.toInt = b.toInt))).toInt = if a = b then 1 else 0 := by
  simp only [truth_toInt, BitVec.toInt_inj]

/-- A comparison's result is 0 or 1 (R25, R172). -/
theorem truth_zero_or_one (b : Bool) : (truth b).toInt = 0 ∨ (truth b).toInt = 1 := by
  cases b with
  | false => exact .inl rfl
  | true => exact .inr rfl

/-- Of less, greater and equal one holds: the three cases of the order on integers (R172). -/
theorem comparisons_add_up (m n : Int) : (truth (decide (m < n))).toInt + (truth (decide (n < m))).toInt +
    (truth (decide (m = n))).toInt = 1 := by
  simp only [truth_toInt]
  obtain hlt | rfl | hgt := lt_trichotomy m n
  · simp only [hlt, hlt.ne, hlt.not_gt, if_true, if_false, add_zero]
  · simp only [lt_irrefl, if_true, if_false, zero_add]
  · simp only [hgt, hgt.ne', hgt.not_gt, if_true, if_false, zero_add, add_zero]

theorem lessThan_self (x : Word) : lessThan x x = .ok 0 := by simp [lessThan, truth]

theorem equal_self (x : Word) : equal x x = .ok 1 := by simp [equal, truth]

/-! ### The statements -/

/-- Settles O12: less-than is the four-word operation of the signed comparison, which itself raises nothing. -/
theorem lessThanRule : Obligations.LessThanRule := fun _ _ m1 m2 m3 he =>
  ⟨⟨encodeNat_instr .lessThan m1 m2 m3, fourWord_lessThan.length⟩,
    fun _ _ _ hm ha hb hd hpc => fourWord_completes fourWord_lessThan he ha hb hd hpc hm rfl (truth_toInt _),
    fourWord_immediate fourWord_lessThan he, fun hm3 _ => fourWord_raises fourWord_lessThan he hm3⟩

/-- Settles O13: equal is the four-word operation of equality, which itself raises nothing. -/
theorem equalRule : Obligations.EqualRule := fun _ _ m1 m2 m3 he =>
  ⟨⟨encodeNat_instr .equal m1 m2 m3, fourWord_equal.length⟩,
    fun _ _ _ hm ha hb hd hpc => fourWord_completes fourWord_equal he ha hb hd hpc hm rfl (truth_toInt_eq ..),
    fourWord_immediate fourWord_equal he, fun hm3 _ => fourWord_raises fourWord_equal he hm3⟩

/-- Settles O14: both comparisons are of the values of the words, and the order on integers is total. -/
theorem comparisonsAreTrichotomous : Obligations.ComparisonsAreTrichotomous := fun x y =>
  ⟨_, _, _, rfl, rfl, rfl, truth_zero_or_one _, truth_zero_or_one _, truth_zero_or_one _,
    comparisons_add_up x.toInt y.toInt, lessThan_self x, equal_self x⟩

end Sys2Proof.Proofs
end

section
/-! SUPPORT. The relative-base family (spec/45_relative_base.md): what an adjustment whose new base fits resolves to, and the
statement of the family. -/

namespace Sys2Proof.Proofs

open Sys2Proof.Machine Sys2Proof.Safety Sys2Proof.Laws

/-- An adjustment resolves where its operand does and the next pc and the new base fit; only `rb` and `pc` are written (R180). -/
theorem rebase_of_fits {e : Engine} {m1 : Mode} {va : Word} (ha : e.val m1 1 = .ok va) (hpc : Fits (e.pc.toInt + 2))
    (hrb : Fits (e.rb.toInt + va.toInt)) :
    e.rebase m1 = .ok { e with rb := wordOf (e.rb.toInt + va.toInt), pc := wordOf (e.pc.toInt + 2) } :=
  rebase_ok_iff.mpr ⟨va, _, _, ha, advance_of_fits rfl hpc, wordOf_toInt hrb, rfl⟩

/-- Settles O19: the adjustment resolves and commits, and a base and a pc that fit are the exact sums. -/
theorem adjustAddsToRelativeBase : Obligations.AdjustAddsToRelativeBase := by
  intro s e m1 m2 m3 va he ha hpc hrb
  have hexec := commit_ok he (r := (·.rebase m1)) (rebase_of_fits ha hpc hrb)
  exact ⟨_, _, hexec, setEngine_engine _ _ (engine_lt he), sameAround_setEngine _ _, ⟨rfl, rfl⟩, ⟨rfl, rfl, rfl, rfl⟩,
    fun _ => rfl, wordOf_toInt hpc, wordOf_toInt hrb⟩

end Sys2Proof.Proofs
end

section
/-! SUPPORT. The halt family (spec/46_halt.md): the state a halt answers with, and the statement of the family. -/

namespace Sys2Proof.Proofs

open Sys2Proof.Machine Sys2Proof.Safety Sys2Proof.Laws

/-- A halt of any form checks nothing: it ends the engine at its own `pc` (R190, D12). -/
theorem exec_halt {s : State} {e : Engine} (m1 m2 m3 : Mode) (he : s.engine? = some e) :
    exec (.halt m1 m2 m3) s = .next (s.setEngine { e with status := .halted, grant := .none }).terminated :=
  withEngine_some he _

/-- The end of the active engine leaves that engine as it was set: DROP_POLICY is about channel sides alone (R208). -/
theorem terminated_setEngine_engine {s : State} {e : Engine} (e' : Engine) (he : s.engine? = some e) :
    (s.setEngine e').terminated.engine? = some e' :=
  (terminated_engine _).trans (setEngine_engine s e' (engine_lt he))

/-- Settles O21: a halt sets its engine and ends it, and the end of an engine drops sides and does nothing else. -/
theorem haltStopsEngine : Obligations.HaltStopsEngine := by
  intro s e m1 m2 m3 he
  exact ⟨_, exec_halt m1 m2 m3 he, terminated_setEngine_engine _ he, sameAround_terminated s _, terminated_last _,
    terminated_length _, terminated_sides s _⟩

end Sys2Proof.Proofs
end

section
/-! SUPPORT. The channel family, drops (spec/47_channel_endpoint.md R202, R208): what every move short of a fresh composition
keeps, who holds the sides that the end of an engine drops, what drops a side at all, and the statement. -/

namespace Sys2Proof.Proofs

open Sys2Proof.Machine Sys2Proof.Safety Sys2Proof.Laws

/-! ### What every move keeps of a composition -/

/-- The step whose agenda begins with a transaction of the host is that transaction (R244). -/
theorem step_host {s : State} {r : Transaction} {rest : List Event} (ha : s.agenda = .host r :: rest) :
    step s = transact r { s with agenda := rest } := by
  simp only [step, nextMove, ha, happen]

/-- The step whose agenda begins with a drop of the interconnect is that drop (R208). -/
theorem step_interconnectDrop {s : State} {n : Nat} {side : Side} {rest : List Event}
    (ha : s.agenda = .interconnectDrop n side :: rest) : step s = interconnectDrop n side { s with agenda := rest } := by
  simp only [step, nextMove, ha, happen]

/-- A step is a turn of some stage, a drop of the interconnect or a transaction of the host (R11). -/
theorem step_agent {s t : State} (h : step s = .next t) :
    (∃ k u, TurnOf s k u) ∨
      (∃ n side rest, s.agenda = .interconnectDrop n side :: rest ∧
        interconnectDrop n side { s with agenda := rest } = .next t) ∨
      ∃ r rest, s.agenda = .host r :: rest ∧ HostMoves { s with agenda := rest } r t := by
  obtain ⟨ha, _⟩ | ⟨k, rest, ha, _⟩ | hdrop | hhost := step_next h
  · exact .inl ⟨s.active, s, .inl ⟨ha, rfl, rfl⟩⟩
  · exact .inl ⟨k, _, .inr ⟨rest, ha, rfl⟩⟩
  · exact .inr (.inl hdrop)
  · exact .inr (.inr hhost)

/-- Short of a fresh composition a transaction of the host keeps the parameters and takes no channel away (R244). -/
theorem hostMoves_keeps_wiring {s t : State} {r : Transaction} (h : HostMoves s r t) (hr : ∀ c, r ≠ .newComposition c) :
    t.config = s.config ∧ s.channels.length ≤ t.channels.length := by
  cases h with
  | built c _ => exact absurd rfl (hr c)
  | channel => exact ⟨rfl, by simp⟩
  | loaded | granted | told => exact ⟨rfl, le_rfl⟩
  | sent | received => exact ⟨rfl, by simp⟩
  | dropped => exact ⟨by simp, by simp⟩

/-- Whatever moves, short of a fresh composition, the parameters stay and no channel goes. -/
theorem step_keeps_wiring {s t : State} (h : step s = .next t) (hkeep : KeepsComposition s) :
    t.config = s.config ∧ s.channels.length ≤ t.channels.length := by
  obtain ⟨k, u, hu⟩ | ⟨n, side, rest, _, hdrop⟩ | ⟨r, rest, ha, hhost⟩ := step_agent h
  · obtain ⟨hconfig, _, _, _, _, _, hlength, _⟩ := stagesAreIsolated s u t k hu h
    exact ⟨hconfig, hlength.ge⟩
  · obtain rfl | ⟨_, _, _, _, rfl⟩ := interconnectDrop_next hdrop
    · exact ⟨rfl, le_rfl⟩
    · exact ⟨by simp, by simp⟩
  · exact hostMoves_keeps_wiring (s := { s with agenda := rest }) hhost fun c hr => hkeep c rest (hr ▸ ha)

/-! ### Which sides may have been dropped -/

theorem terminatedStage_iff {s : State} {k : Nat} :
    s.terminatedStage k = true ↔ ∃ e, s.engines[k]? = some e ∧ e.status ≠ .running := by
  unfold State.terminatedStage
  split <;> simp_all [Engine.terminated]

/-- A stage that has terminated stays so short of a fresh composition (R28). -/
theorem step_keeps_terminatedStage {s t : State} {k : Nat} (h : step s = .next t) (hkeep : KeepsComposition s)
    (hk : s.terminatedStage k = true) : t.terminatedStage k = true := by
  obtain ⟨e, he, hs⟩ := terminatedStage_iff.mp hk
  obtain he' | he' := step_keeps_terminated h hkeep he hs <;> exact terminatedStage_iff.mpr ⟨_, he', hs⟩

/-- A side may have been dropped unless its holder is a stage that has not terminated (R208). -/
theorem dropAllowed_iff {s : State} {n : Nat} {side : Side} :
    dropAllowed s n side = true ↔ ∀ k, holderOf s.config n side = .stage k → s.terminatedStage k = true := by
  unfold dropAllowed
  split <;> simp_all

/-- A side that may have been dropped is such a side after every move short of a fresh composition. -/
theorem step_keeps_dropAllowed {s t : State} {n : Nat} {side : Side} (h : step s = .next t) (hkeep : KeepsComposition s)
    (ha : dropAllowed s n side = true) : dropAllowed t n side = true := by
  rw [dropAllowed_iff, (step_keeps_wiring h hkeep).1]
  exact fun k hk => step_keeps_terminatedStage h hkeep (dropAllowed_iff.mp ha k hk)

/-- What the host may drop may have been dropped, under `hostOnly` too (D19). -/
theorem dropAllowed_of_hostMayDrop {s : State} {n : Nat} {side : Side} (h : s.hostMayDrop n side = true) :
    dropAllowed s n side = true := by
  refine dropAllowed_iff.mpr fun k hk => ?_
  simp only [State.hostMayDrop, hk, Bool.and_eq_true] at h
  exact h.2

/-! ### Who holds the endpoints of a stage -/

/-- A stage holds the receive side of its input channel (R202, R235, R239). -/
theorem holderOf_inChannelOf {c : Config} {k : Nat} (hk : k < c.nStages) :
    holderOf c (inChannelOf c k) .receive = .stage k := by
  cases h : c.topology with
  | pipeline => simp [holderOf, inChannelOf, h, hk.ne]
  | feedbackLoop => simp [holderOf, inChannelOf, h]

/-- A stage holds the send side of its output channel (R202, R235, R239). -/
theorem holderOf_outChannelOf {c : Config} {k : Nat} (hk : k < c.nStages) :
    holderOf c (outChannelOf c k) .send = .stage k := by
  cases h : c.topology with
  | pipeline => simp [holderOf, outChannelOf, h]
  | feedbackLoop =>
    have hback : ((k + 1) % c.nStages + (c.nStages - 1)) % c.nStages = k := by
      rw [Nat.mod_add_mod, show k + 1 + (c.nStages - 1) = k + c.nStages by omega, Nat.add_mod_right, Nat.mod_eq_of_lt hk]
    simp [holderOf, outChannelOf, h, hback]

/-! ### Dropped sides -/

/-- Channel `n` is there and the side is dropped. -/
def Dropped (channels : List Channel) (n : Nat) (side : Side) : Prop :=
  ∃ ch, channels[n]? = some ch ∧ ch.live side = false

theorem dropsInv_iff {s : State} :
    DropsInv s ↔ ∀ n side, Dropped s.channels n side → dropAllowed s n side = true := by
  constructor
  · rintro h n side ⟨ch, hc, hl⟩
    obtain ⟨hn, rfl⟩ := List.getElem?_eq_some_iff.mp hc
    obtain ⟨hsend, hreceive⟩ := h ⟨n, hn⟩
    cases side with
    | send => exact hsend hl
    | receive => exact hreceive hl
  · exact fun h n => ⟨fun hl => h n .send ⟨_, List.getElem?_eq_getElem n.2, hl⟩,
      fun hl => h n .receive ⟨_, List.getElem?_eq_getElem n.2, hl⟩⟩

section Dropped
variable {channels : List Channel} {s : State} {n k : Nat} {side side' : Side}

/-- Writing a queue drops no side. -/
theorem dropped_of_set_queue {ch : Channel} {q : List Word} (hc : channels[k]? = some ch)
    (h : Dropped (channels.set k { ch with q := q }) n side) : Dropped channels n side := by
  obtain ⟨d, hd, hl⟩ := h
  by_cases hnk : n = k
  · subst hnk
    obtain rfl : { ch with q := q } = d := by simpa [(List.getElem?_eq_some_iff.mp hc).1] using hd
    exact ⟨ch, hc, by cases side <;> exact hl⟩
  · exact ⟨d, (List.getElem?_set_ne (Ne.symm hnk)).symm.trans hd, hl⟩

/-- Both sides of a channel just made are live (R201). -/
theorem dropped_of_append_fresh {q : List Word} (h : Dropped (channels ++ [Channel.fresh q]) n side) :
    Dropped channels n side := by
  obtain ⟨d, hd, hl⟩ := h
  by_cases hn : n < channels.length
  · exact ⟨d, (List.getElem?_append_left hn).symm.trans hd, hl⟩
  · rw [List.getElem?_append_right (not_lt.mp hn)] at hd
    obtain rfl := List.mem_singleton.mp (List.mem_of_getElem? hd)
    cases side <;> cases hl

theorem live_or_side_of_drop {ch : Channel} (h : (ch.drop side').live side = false) :
    ch.live side = false ∨ side = side' :=
  match side, side', h with
  | .send, .send, _ | .receive, .receive, _ => .inr rfl
  | .send, .receive, hl | .receive, .send, hl => .inl hl

/-- A drop drops the side it names and no other (R208). -/
theorem dropped_of_dropSide (h : Dropped (s.dropSide k side').channels n side) :
    Dropped s.channels n side ∨ (n = k ∧ side = side') := by
  obtain ⟨d, hd, hl⟩ := h
  rw [dropSide_channel] at hd
  obtain ⟨ch, hc, rfl⟩ := Option.map_eq_some_iff.mp hd
  split_ifs at hl with hnk
  · exact (live_or_side_of_drop hl).imp (fun hl => ⟨ch, hc, hl⟩) fun hside => ⟨hnk, hside⟩
  · exact .inl ⟨ch, hc, hl⟩

/-- The end of the active engine drops the two sides it is bound to at most (R208). -/
theorem dropped_of_terminated (h : Dropped s.terminated.channels n side) :
    Dropped s.channels n side ∨ (n = s.inChannel ∧ side = .receive) ∨ (n = s.outChannel ∧ side = .send) := by
  unfold State.terminated at h
  split at h
  · obtain h | hout := dropped_of_dropSide h
    · exact (dropped_of_dropSide h).imp_right .inl
    · exact .inr (.inr hout)
  · exact .inl h
  · exact .inl h

end Dropped

/-! ### What drops a side -/

section Drops
variable {s t : State} {n : Nat} {side : Side}

/-- The two sides that end with an engine are its own, and it has terminated (R208). -/
theorem dropped_or_allowed_of_end {e : Engine} (hk : s.active < s.engines.length)
    (hn : s.engines.length ≤ s.config.nStages) (he : e.status ≠ .running)
    (h : Dropped (s.setEngine e).terminated.channels n side) :
    Dropped s.channels n side ∨ dropAllowed (s.setEngine e).terminated n side = true := by
  have hstage : (s.setEngine e).terminated.terminatedStage s.active = true :=
    terminatedStage_iff.mpr ⟨e, by simp [hk], he⟩
  have allowed (hh : holderOf s.config n side = .stage s.active) :
      dropAllowed (s.setEngine e).terminated n side = true := by
    refine dropAllowed_iff.mpr fun k hk => ?_
    rw [terminated_config, setEngine_config, hh] at hk
    cases hk
    exact hstage
  obtain h | ⟨rfl, rfl⟩ | ⟨rfl, rfl⟩ := dropped_of_terminated h
  · exact .inl h
  · exact .inr (allowed (holderOf_inChannelOf (hk.trans_le hn)))
  · exact .inr (allowed (holderOf_outChannelOf (hk.trans_le hn)))

/-- A move of an instruction drops a side only as it ends the engine that holds it (R208). -/
theorem dropped_or_allowed_of_moves {e : Engine} {i : Instr} (hm : Moves s e i t) (he : s.engine? = some e)
    (hn : s.engines.length ≤ s.config.nStages) (h : Dropped t.channels n side) :
    Dropped s.channels n side ∨ dropAllowed t n side = true := by
  cases hm with
  | raised c => exact dropped_or_allowed_of_end (engine_lt he) hn (by simp) h
  | halted => exact dropped_or_allowed_of_end (engine_lt he) hn (by simp) h
  | committed | held => exact .inl h
  | received ch v rest d npc _ hc => exact .inl (dropped_of_set_queue hc h)
  | sent ch v npc _ hc => exact .inl (dropped_of_set_queue hc h)

/-- The turn of a stage drops a side only as it ends the engine that holds it. -/
theorem dropped_or_allowed_of_stageTurn {k : Nat} (ht : stageTurn k s = .next t) (hi : Inv s)
    (h : Dropped t.channels n side) : Dropped s.channels n side ∨ dropAllowed t n side = true := by
  obtain ⟨_, hn, _⟩ := hi
  obtain rfl | ⟨e, i, he, _, hm⟩ := stageTurn_next ht
  · exact .inl h
  · exact dropped_or_allowed_of_moves (s := { s with active := k }) hm he hn h

/-- The interconnect drops a side only of a terminated stage (R208). -/
theorem dropped_or_allowed_of_interconnectDrop {m : Nat} {side' : Side} (ht : interconnectDrop m side' s = .next t)
    (h : Dropped t.channels n side) : Dropped s.channels n side ∨ dropAllowed s n side = true := by
  obtain rfl | ⟨k, hh, hk, _, rfl⟩ := interconnectDrop_next ht
  · exact .inl h
  · refine (dropped_of_dropSide h).imp_right ?_
    rintro ⟨rfl, rfl⟩
    refine dropAllowed_iff.mpr fun j hj => ?_
    obtain rfl : k = j := by simpa [hh] using hj
    exact hk

/-- The host drops a side only that it holds, or on behalf of a terminated stage (R208, D19). -/
theorem dropped_or_allowed_of_hostMoves {r : Transaction} (hm : HostMoves s r t) (h : Dropped t.channels n side) :
    Dropped s.channels n side ∨ dropAllowed s n side = true := by
  cases hm with
  | built =>
    obtain ⟨ch, hc, _⟩ := h
    cases hc
  | channel => exact .inl (dropped_of_append_fresh h)
  | loaded | granted | told => exact .inl h
  | sent k v ch hc => exact .inl (dropped_of_set_queue hc h)
  | received k v rest ch hc => exact .inl (dropped_of_set_queue hc h)
  | dropped m side' hmay =>
    refine (dropped_of_dropSide h).imp_right ?_
    rintro ⟨rfl, rfl⟩
    exact dropAllowed_of_hostMayDrop hmay

/-- Whatever moves, short of a fresh composition, a dropped side was dropped before or is one that may be. -/
theorem dropped_or_allowed_of_step (hi : Inv s) (hstep : step s = .next t) (hkeep : KeepsComposition s)
    (h : Dropped t.channels n side) : Dropped s.channels n side ∨ dropAllowed t n side = true := by
  have htaken (rest : List Event) : Inv { s with agenda := rest } := inv_of_sameEngines hi rfl rfl rfl fun _ => rfl
  obtain ⟨_, ht⟩ | ⟨k, rest, _, ht⟩ | ⟨m, side', rest, _, ht⟩ | ⟨r, rest, _, hm⟩ := step_next hstep
  · exact dropped_or_allowed_of_stageTurn ht hi h
  · exact dropped_or_allowed_of_stageTurn (s := { s with agenda := rest }) ht (htaken rest) h
  · exact (dropped_or_allowed_of_interconnectDrop ht h).imp_right (step_keeps_dropAllowed hstep hkeep)
  · exact (dropped_or_allowed_of_hostMoves hm h).imp_right (step_keeps_dropAllowed hstep hkeep)

end Drops

/-- A fresh composition has no channel (R244). -/
theorem step_newComposition_channels {s t : State} (h : step s = .next t) (hnew : ¬ KeepsComposition s) :
    t.channels = [] := by
  obtain ⟨c, rest, ha⟩ : ∃ c rest, s.agenda = .host (.newComposition c) :: rest := by
    simpa [KeepsComposition] using hnew
  rw [step_host ha, transact, newComposition] at h
  split at h <;> cases h
  rfl

/-- Settles O44: a dropped side was dropped before, and stays one that may be, or the move that drops it may. -/
theorem stepKeepsDropRule : Obligations.StepKeepsDropRule := by
  intro s t hi hdrops hstep
  refine dropsInv_iff.mpr fun n side h => ?_
  by_cases hkeep : KeepsComposition s
  · obtain hbefore | hallowed := dropped_or_allowed_of_step hi hstep hkeep h
    · exact step_keeps_dropAllowed hstep hkeep (dropsInv_iff.mp hdrops n side hbefore)
    · exact hallowed
  · obtain ⟨ch, hc, _⟩ := h
    rw [step_newComposition_channels hstep hkeep] at hc
    cases hc

end Sys2Proof.Proofs
end

section
/-! SUPPORT. The channel family, holds (spec/47_channel_endpoint.md R206): what an input that holds has passed, what lifts it and
what no move does to it, and the statement. -/

namespace Sys2Proof.Proofs

open Sys2Proof.Machine Sys2Proof.Safety Sys2Proof.Laws

/-! ### No hold where there is a value or no sender -/

section Lifted
variable {s : State} {k : Nat} {ch : Channel} (hc : s.channels[k]? = some ch) (h : ch.q ≠ [] ∨ ch.txLive = false)
include hc h

theorem not_holdsAt_of_lifted (e : Engine) : s.holdsAt k e = false := by
  unfold State.holdsAt
  split
  · split
    · rename_i hc'
      obtain rfl := Option.some.inj (hc.symm.trans hc')
      obtain hq | ht := h
      · simp [hq]
      · simp [ht]
    · rfl
  · rfl

theorem not_holds_of_lifted : s.holds k = false := by
  cases he : s.engines[k]? with
  | none => simp [State.holds, he]
  | some e => simp [State.holds, he, not_holdsAt_of_lifted hc h e]

/-- Once its hold is lifted a ready stage has an enabled step (R110). -/
theorem enabled_of_lifted {e : Engine} (he : s.engines[k]? = some e) (hr : e.ready = true) : s.enabled k = true := by
  simp [State.enabled, he, hr, not_holdsAt_of_lifted hc h e]

end Lifted

/-! ### The step of a stage whose hold is lifted -/

/-- A stage that holds is running, at an input whose checks pass, on an empty queue with a live sender (R206). -/
theorem held_input {s : State} {k : Nat} {e : Engine} {ch : Channel} (hh : s.holds k = true)
    (he : s.engines[k]? = some e) (hc : s.channels[k]? = some ch) :
    e.status = .running ∧ ch.q = [] ∧ ch.txLive = true ∧ ∃ (m1 m2 m3 : Mode) (dest : Word),
      e.decoded = .ok (.input m1 m2 m3) ∧ e.addr m1 1 = .ok dest ∧ Fits (e.pc.toInt + 2) := by
  obtain ⟨f, m1, m2, m3, ⟨dest, npc⟩, d, hf, hs, hdec, hp, hd, hq, ht⟩ := holds_iff.mp hh
  obtain rfl := Option.some.inj (he.symm.trans hf)
  obtain rfl := Option.some.inj (hc.symm.trans hd)
  obtain ⟨haddr, hadvance⟩ := inputPlan_ok_iff.mp hp
  have hnext : npc.toInt = e.pc.toInt + 2 := advance_ok_iff.mp hadvance
  exact ⟨hs, hq, ht, m1, m2, m3, dest, hdec, haddr, hnext ▸ toInt_fits npc⟩

/-- The machine as stage `k` has its turn with `ch` for its input channel. -/
def turnWith (s : State) (k : Nat) (ch : Channel) : State := { s.setChannel k ch with agenda := [], active := k }

section TurnWith
variable {s : State} {k : Nat} {e : Engine} {ch : Channel} {m1 m2 m3 : Mode} {dest : Word}
  (he : s.engines[k]? = some e) (hk : k < s.channels.length) (hr : e.ready = true)
  (hdec : e.decoded = .ok (.input m1 m2 m3)) (hd : e.addr m1 1 = .ok dest) (hpc : Fits (e.pc.toInt + 2))

include he in
theorem turnWith_engine : (turnWith s k ch).engine? = some e := he

include hk in
theorem turnWith_channel : (turnWith s k ch).channels[k]? = some ch := by simp [turnWith, hk]

include he hr in
theorem step_turnWith {i : Instr} (hi : e.decoded = .ok i) : step (turnWith s k ch) = exec i (turnWith s k ch) := by
  have hturn : TurnOf (turnWith s k ch) k (turnWith s k ch) := .inl ⟨rfl, rfl, rfl⟩
  rw [step_turn_ready hturn (turnWith_engine he) hr, attempt_ok hi]

include he hk hr hdec hd hpc

/-- A value sent to a stage that was at its input is taken, and stored at the destination (R150, R206). -/
theorem step_turnWith_value {v : Word} : ∃ (t : State) (e' : Engine), step (turnWith s k { ch with q := [v] }) = .next t ∧
    t.channels[k]? = some { ch with q := [] } ∧ t.engine? = some e' ∧ e'.pc.toInt = e.pc.toInt + 2 ∧
    (e.mem.wf = true → e'.mem.read dest.toNat = v) ∧ SameMemoryBut e e' dest.toNat := by
  have hc := turnWith_channel (s := s) (ch := { ch with q := [v] }) hk
  rw [step_turnWith he hr hdec, exec_input_of_cons (turnWith_engine he) hd hpc hc rfl]
  exact ⟨_, _, rfl, List.getElem?_set_self (List.getElem?_eq_some_iff.mp hc).1,
    setEngine_engine _ _ (engine_lt (turnWith_engine he)), wordOf_toInt hpc, read_write_same,
    fun _ hne => read_write_other hne⟩

/-- A drop of the sender makes the input of a stage on an empty queue a BrokenChannel (R205, R206). -/
theorem step_turnWith_dropped (hq : ch.q = []) : ∃ t, step (turnWith s k { ch with txLive := false }) = .next t ∧
    TakesFatal (turnWith s k { ch with txLive := false }) e .brokenChannel t := by
  have hc := turnWith_channel (s := s) (ch := { ch with txLive := false }) hk
  rw [step_turnWith he hr hdec, exec_input_of_nil (turnWith_engine he) hd hpc hc hq, if_neg Bool.false_ne_true]
  exact ⟨_, rfl, raise_takesFatal (turnWith_engine he)⟩

end TurnWith

/-! ### Nothing else lifts a hold -/

section Held
variable {s t : State} {k : Nat} {e : Engine} (hstep : step s = .next t) (hkeep : KeepsComposition s)
  (hh : s.holds k = true) (he : s.engines[k]? = some e)
include hstep hkeep hh he

/-- No move short of a fresh composition changes what decides the hold of an engine that holds: a run transaction writes its
grant and `yielded` alone (R125, R126). -/
theorem step_keeps_held_engine :
    ∃ f, t.engines[k]? = some f ∧ f.status = e.status ∧ f.pc = e.pc ∧ f.rb = e.rb ∧ f.mem = e.mem := by
  obtain ⟨j, u, hu⟩ | ⟨n, side, rest, _, hdrop⟩ | ⟨r, rest, ha, hhost⟩ := step_agent hstep
  · refine ⟨e, ?_, rfl, rfl, rfl, rfl⟩
    by_cases hkj : k = j
    · subst hkj
      obtain ⟨_, hengines, _⟩ := turnOf_same hu
      obtain h | h := step_turn_held hu hh <;> cases hstep.symm.trans h <;> exact hengines ▸ he
    · obtain ⟨_, _, _, _, _, hother, _⟩ := stagesAreIsolated s u t j hu hstep
      exact (hother k hkj).trans he
  · refine ⟨e, ?_, rfl, rfl, rfl, rfl⟩
    obtain rfl | ⟨_, _, _, _, rfl⟩ := interconnectDrop_next hdrop
    · exact he
    · simpa using he
  · obtain h | ⟨_, g, h⟩ := hostMoves_engine hhost (fun c hr => hkeep c rest (hr ▸ ha)) he
    · exact ⟨e, h, rfl, rfl, rfl, rfl⟩
    · exact ⟨_, h, granted_status e g, granted_pc e g, granted_rb e g, granted_mem e g⟩

/-- After any such move the stage still holds, or its queue has a value or its sender is dropped (R206). -/
theorem step_keeps_hold_or_lifts (hk : k < s.channels.length) :
    t.holds k = true ∨ ∃ ch, t.channels[k]? = some ch ∧ (ch.q ≠ [] ∨ ch.txLive = false) := by
  obtain ⟨f, hf, hstatus, hpc, hrb, hmem⟩ := step_keeps_held_engine hstep hkeep hh he
  obtain ⟨hconfig, hlength⟩ := step_keeps_wiring hstep hkeep
  have hsame : ({ t with channels := s.channels } : State).holds k = true :=
    (holds_of_same (t := { t with channels := s.channels }) hconfig rfl he hf hstatus hpc hrb hmem).trans hh
  obtain ⟨g, m1, m2, m3, p, _, hg, hs, hdec, hp, _⟩ := holds_iff.mp hsame
  have hc : t.channels[k]? = some t.channels[k] := List.getElem?_eq_getElem (hk.trans_le hlength)
  by_cases hlifted : t.channels[k].q ≠ [] ∨ t.channels[k].txLive = false
  · exact .inr ⟨_, hc, hlifted⟩
  · obtain ⟨hq, ht⟩ : t.channels[k].q = [] ∧ t.channels[k].txLive = true := by simpa using hlifted
    exact .inl (holds_iff.mpr ⟨g, m1, m2, m3, p, _, hg, hs, hdec, hp, hc, hq, ht⟩)

end Held

/-- Settles O24: the input a held stage is at completes on a value and raises on a dropped sender, and no other move reaches
what it waits for. -/
theorem holdRule : Obligations.HoldRule := by
  intro s k e ch hh he hc
  obtain ⟨hrunning, hq, ht, m1, m2, m3, dest, hdec, hd, hpc⟩ := held_input hh he hc
  have hk : k < s.channels.length := (List.getElem?_eq_some_iff.mp hc).1
  have ready (hg : e.grant ≠ .none) : e.ready = true := ready_iff.mpr ⟨hrunning, hg⟩
  refine ⟨hrunning, hq, ht, holds_not_enabled hh, fun u hu => ⟨fun hg => step_turn_held_granted hu he hg hh, fun hg => ?_⟩,
    ?_, ?_, fun t hstep hkeep => step_keeps_hold_or_lifts hstep hkeep hh he hk⟩
  · refine step_turn_idle hu fun f hf => ?_
    obtain rfl := Option.some.inj (((turnOf_engine hu).trans he).symm.trans hf)
    simp [Engine.ready, hg]
  · rintro v u rfl
    have hchannel := turnWith_channel (ch := { ch with q := [v] }) hk
    have hlifted : [v] ≠ [] ∨ ch.txLive = false := .inl (List.cons_ne_nil v [])
    refine ⟨not_holds_of_lifted hchannel hlifted, fun hg => ⟨enabled_of_lifted hchannel hlifted he (ready hg), ?_⟩⟩
    obtain ⟨t, e', hstep, hafter⟩ := step_turnWith_value (v := v) he hk (ready hg) hdec hd hpc
    exact ⟨t, e', m1, m2, m3, dest, fetches_of_decoded hdec, hd, hstep, hafter⟩
  · rintro u rfl
    have hchannel := turnWith_channel (ch := { ch with txLive := false }) hk
    refine ⟨not_holds_of_lifted hchannel (.inr rfl), fun hg => ⟨enabled_of_lifted hchannel (.inr rfl) he (ready hg), ?_⟩⟩
    exact step_turnWith_dropped he hk (ready hg) hdec hd hpc hq

end Sys2Proof.Proofs
end

section
/-! SUPPORT. The channel family, transactions (spec/47_channel_endpoint.md R201 to R208): that a channel is a FIFO over any
sequence of them, what building, using and dropping answer to the host, and the statements. -/

namespace Sys2Proof.Proofs

open Sys2Proof.Machine Sys2Proof.Safety Sys2Proof.Laws

/-! ### The order of values on a channel -/

/-- What is received and what is still queued is what was queued and what is sent, in order (R207). -/
theorem useChannel_order (ch : Channel) (uses : List ChannelUse) :
    (useChannel ch uses).2.1 ++ (useChannel ch uses).2.2.q = ch.q ++ (useChannel ch uses).1 := by
  induction uses generalizing ch with
  | nil => simp [useChannel]
  | cons use uses ih =>
    cases use with
    | send v =>
      unfold useChannel
      split
      · rename_i ch' hs
        obtain ⟨_, rfl⟩ := send_some_iff.mp hs
        simp [ih]
      · exact ih ch
    | recv =>
      unfold useChannel
      obtain ⟨v, rest, hq, hrecv⟩ | ⟨_, _, hrecv⟩ | ⟨_, _, hrecv⟩ := recv_cases ch <;> rw [hrecv] <;> split
      · simp [ih, hq]
      all_goals exact ih ch
    | drop side =>
      rw [useChannel, ih]
      cases side <;> rfl

/-- Behind a dropped receive side nothing is received: no use makes it live again (R207). -/
theorem useChannel_received_of_dropped {ch : Channel} (h : ch.rxLive = false) (uses : List ChannelUse) :
    (useChannel ch uses).2.1 = [] := by
  induction uses generalizing ch with
  | nil => rfl
  | cons use uses ih =>
    cases use with
    | send v =>
      rw [useChannel, send_none_iff.mpr h]
      exact ih h
    | recv =>
      rw [useChannel, h]
      exact ih h
    | drop side =>
      rw [useChannel]
      refine ih ?_
      cases side with
      | send => exact h
      | receive => rfl

/-- Settles O29: by induction on the sequence of uses, each of which moves one value or none. -/
theorem channelIsFifo : Obligations.ChannelIsFifo :=
  fun ch uses => ⟨useChannel_order ch uses, fun h => useChannel_received_of_dropped h uses⟩

/-! ### Building -/

/-- The seed of the feedback link is queued as that link is made (R240, R302). -/
theorem makeChannel_seeded {s : State} (v : Word) (hroom : s.channels.length < channelCount s.config)
    (hloop : s.config.topology = .feedbackLoop) (hnil : s.channels = []) :
    makeChannel (some v) s = .next { s with channels := s.channels ++ [Channel.fresh [v]], reply := .done } := by
  have hlink : s.config.topology = .feedbackLoop ∧ s.channels.length = 0 := ⟨hloop, List.length_eq_zero_iff.mpr hnil⟩
  simp only [makeChannel, if_pos hroom, if_pos hlink]

/-- No channel but the feedback link is seeded (R240; notes/assumptions/8.md). -/
theorem makeChannel_seed_refused {s : State} (v : Word) (h : s.config.topology = .pipeline ∨ s.channels ≠ []) :
    makeChannel (some v) s = .refused .transaction := by
  have hlink : ¬ (s.config.topology = .feedbackLoop ∧ s.channels.length = 0) := by
    rintro ⟨hloop, hnil⟩
    obtain hline | hne := h
    · cases hline.symm.trans hloop
    · exact hne (List.length_eq_zero_iff.mp hnil)
  simp only [makeChannel, if_neg hlink, ite_self]

/-- Settles O54: each building transaction is done or refused as its guard says; a loop has a first channel to make. -/
theorem buildingTransactions : Obligations.BuildingTransactions := by
  refine fun s rest => ⟨fun c ha hn hhalt => ?_, fun c ha hbad => ?_, fun ha hroom => ?_, fun v ha hloop hnil hwf => ?_,
    fun v ha hbad => ?_, fun seed ha hfull => ?_⟩ <;> rw [step_host ha]
  · exact ⟨_, if_pos ⟨hn, hhalt⟩, rfl, rfl, rfl, rfl, rfl, rfl⟩
  · exact if_neg (by unfold Config.wf; omega)
  · exact if_pos hroom
  · have hroom : s.channels.length < channelCount s.config := by
      rw [hnil, channelCount, hloop]
      exact hwf.1
    refine (makeChannel_seeded (s := { s with agenda := rest }) v hroom hloop hnil).trans ?_
    rw [hnil]
    rfl
  · exact makeChannel_seed_refused v hbad
  · exact if_neg (not_lt.mpr hfull)

/-! ### The host and the sides of the stages -/

section HostSides
variable {s : State} {n k : Nat} {side : Side}

theorem hostSend_refused (v : Word) (h : holderOf s.config n .send = .stage k) :
    hostSend n v s = .refused .transaction := by
  rw [hostSend, h]
  cases s.channels[n]? <;> rfl

theorem hostRecv_refused (h : holderOf s.config n .receive = .stage k) : hostRecv n s = .refused .transaction := by
  rw [hostRecv, h]
  cases s.channels[n]? <;> rfl

theorem hostDrop_refused (h : s.hostMayDrop n side = false) : hostDrop n side s = .refused .transaction := by
  rw [hostDrop, h]
  cases s.channels[n]? <;> rfl

/-- Of a side that a stage holds the host's drop is that of `hostOnly`, once the stage has terminated (R208, D19). -/
theorem hostMayDrop_of_stage (h : holderOf s.config n side = .stage k) :
    s.hostMayDrop n side = (s.config.dropPolicy == .hostOnly && s.terminatedStage k) := by
  rw [State.hostMayDrop, h]

theorem hostMayDrop_of_host (h : holderOf s.config n side = .host) : s.hostMayDrop n side = true := by
  rw [State.hostMayDrop, h]

end HostSides

/-- Settles O57: each of the three transactions asks who holds the side. -/
theorem hostUsesOnlyItsOwnSides : Obligations.HostUsesOnlyItsOwnSides := by
  refine fun s n k rest => ⟨fun v hh ha => ?_, fun hh ha => ?_, fun side hh ha hno => ?_⟩ <;> rw [step_host ha]
  · exact hostSend_refused v hh
  · exact hostRecv_refused hh
  · refine hostDrop_refused ((hostMayDrop_of_stage hh).trans ?_)
    obtain hpolicy | hrunning := hno
    · simp [hpolicy]
    · exact Bool.and_eq_false_imp.mpr fun _ => hrunning

/-! ### Drops -/

section Drop
variable {s : State} {n k : Nat} {side : Side} {ch : Channel}

theorem dropSide_of_channel (hc : s.channels[n]? = some ch) : s.dropSide n side = s.setChannel n (ch.drop side) := by
  rw [State.dropSide, hc]

theorem hostDrop_done (hc : s.channels[n]? = some ch) (h : s.hostMayDrop n side = true) :
    hostDrop n side s = .next { s.setChannel n (ch.drop side) with reply := .done } := by
  rw [← dropSide_of_channel hc]
  simp only [hostDrop, hc, h, if_true]

/-- The interconnect drops no side that the host holds (R208). -/
theorem interconnectDrop_of_host (h : holderOf s.config n side = .host) : interconnectDrop n side s = .next s := by
  rw [interconnectDrop, h]
  cases s.config.dropPolicy <;> rfl

/-- A side that a stage holds the interconnect drops under `free`, once the stage has terminated, and not otherwise (R208). -/
theorem interconnectDrop_of_stage (h : holderOf s.config n side = .stage k) : interconnectDrop n side s =
    .next (if s.config.dropPolicy = .free ∧ s.terminatedStage k = true then s.dropSide n side else s) := by
  rw [interconnectDrop, h]
  cases s.config.dropPolicy with
  | free => by_cases hend : s.terminatedStage k = true <;> simp [hend]
  | onTerminate | hostOnly => rfl

end Drop

/-- A drop clears one live bit, and leaves the other and the queue (R208, R209). -/
theorem drop_fields (ch : Channel) (side : Side) :
    (ch.drop .send).txLive = false ∧ (ch.drop .send).rxLive = ch.rxLive ∧ (ch.drop .receive).rxLive = false ∧
      (ch.drop .receive).txLive = ch.txLive ∧ (ch.drop side).q = ch.q :=
  ⟨rfl, rfl, rfl, rfl, by cases side <;> rfl⟩

/-- Settles O58: a drop that may be made writes its channel, and the interconnect's otherwise does nothing. -/
theorem dropsChangeOnlyTheirSide : Obligations.DropsChangeOnlyTheirSide := by
  refine fun s n k side rest ch hc => ⟨fun ha => ?_, fun ha => ?_, drop_fields ch side⟩
  · rw [step_host ha]
    have done := hostDrop_done (s := { s with agenda := rest }) (side := side) hc
    refine ⟨fun hh => done (hostMayDrop_of_host hh), fun hh hpolicy hend => done ((hostMayDrop_of_stage hh).trans ?_)⟩
    simp only [hpolicy, beq_self_eq_true, Bool.true_and]
    exact hend
  · rw [step_interconnectDrop ha]
    refine ⟨fun hh => interconnectDrop_of_host hh, fun hh => ?_⟩
    rw [interconnectDrop_of_stage (s := { s with agenda := rest }) hh]
    refine ⟨fun hpolicy hend => ?_, fun hno => ?_⟩
    · rw [if_pos ⟨hpolicy, hend⟩, dropSide_of_channel (s := { s with agenda := rest }) hc]
      rfl
    · rw [if_neg]
      rintro ⟨hpolicy, hend⟩
      obtain hne | hrunning := hno
      · exact hne hpolicy
      · exact Bool.false_ne_true (hrunning.symm.trans hend)

end Sys2Proof.Proofs
end

section
/-! SUPPORT. The exceptions family (spec/60_exceptions.md): that the first cause met is the exception taken, for each shape of
instruction, that a move which leaves its engine fatal is a raise, and the statements of the family. -/

namespace Sys2Proof.Proofs

open Sys2Proof.Machine Sys2Proof.Safety Sys2Proof.Laws

/-! ### The first cause is the one taken -/

section Shapes
variable {s : State} {e : Engine} {m1 m2 m3 : Mode} {c : Cause} (he : s.engine? = some e)
include he

/-- The first cause that a conditional jump meets is the exception it takes, the jump taken or not (D7, D8). -/
theorem conditionalJump_raises {op : Op} {taken : Word → Bool} (hop : ConditionalJump op taken)
    (hc : FirstRaise e [(.read, m1), (.read, m2)] 1 c) :
    ∃ t, exec (op.instr m1 m2 m3) s = .next t ∧ TakesFatal s e c t := by
  have hraise : e.jump op taken m1 m2 = .error c := by
    rw [firstRaise_read_iff, firstRaise_read_iff, firstRaise_nil_iff hop.length] at hc
    simp only [Engine.jump, bind_error_iff]
    obtain ha | ⟨va, ha, hb | ⟨vb, hb, hnext⟩⟩ := hc
    · exact .inl ha
    · exact .inr ⟨va, ha, .inl hb⟩
    · exact .inr ⟨va, ha, .inr ⟨vb, hb, .inl hnext⟩⟩
  exact ⟨_, (hop.meaning ..).trans (commit_error he hraise), raise_takesFatal he⟩

omit he in
/-- What the two-word instructions with a read parameter resolve before anything else: that parameter and the next pc. -/
theorem firstRaise_twoWord_iff {op : Op} (hlen : op.length = 2) : FirstRaise e [(.read, m1)] 1 c ↔
    e.val m1 1 = .error c ∨ ∃ v, e.val m1 1 = .ok v ∧ e.advance op = .error c := by
  rw [firstRaise_read_iff, firstRaise_nil_iff hlen]

/-- The first cause that an input meets is the exception it takes: its channel is not looked at (D8, D28). -/
theorem input_raises (hm : m1 ≠ .immediate) (hc : FirstRaise e [(.write, m1)] 1 c) :
    ∃ t, exec (.input m1 m2 m3) s = .next t ∧ TakesFatal s e c t := by
  have hraise : e.inputPlan m1 = .error c := by
    have hlen : Op.length .input = 1 + 1 := rfl
    rw [firstRaise_write_iff hm, firstRaise_nil_iff hlen] at hc
    simp only [Engine.inputPlan, bind_error_iff]
    refine .inr ⟨(), writable_ok_iff.mpr hm, ?_⟩
    obtain hd | ⟨dest, hd, hnext⟩ := hc
    · exact .inl hd
    · exact .inr ⟨dest, hd, .inl hnext⟩
  exact ⟨_, (withEngine_some he _).trans (attempt_error hraise _), raise_takesFatal he⟩

/-- The first cause that an output meets is the exception it takes: nothing is sent (D8). -/
theorem output_raises (hc : FirstRaise e [(.read, m1)] 1 c) :
    ∃ t, exec (.output m1 m2 m3) s = .next t ∧ TakesFatal s e c t := by
  have hraise : e.outputPlan m1 = .error c := by
    rw [firstRaise_twoWord_iff (op := .output) rfl] at hc
    simp only [Engine.outputPlan, bind_error_iff]
    obtain hv | ⟨v, hv, hnext⟩ := hc
    · exact .inl hv
    · exact .inr ⟨v, hv, .inl hnext⟩
  exact ⟨_, (withEngine_some he _).trans (attempt_error hraise _), raise_takesFatal he⟩

/-- The first cause that an adjustment meets is the exception it takes, before the new base is formed (R180). -/
theorem rebase_raises (hc : FirstRaise e [(.read, m1)] 1 c) :
    ∃ t, exec (.adjustRelativeBase m1 m2 m3) s = .next t ∧ TakesFatal s e c t := by
  have hraise : e.rebase m1 = .error c := by
    rw [firstRaise_twoWord_iff (op := .adjustRelativeBase) rfl] at hc
    simp only [Engine.rebase, bind_error_iff]
    obtain hv | ⟨v, hv, hnext⟩ := hc
    · exact .inl hv
    · exact .inr ⟨v, hv, .inl hnext⟩
  exact ⟨_, commit_error he hraise, raise_takesFatal he⟩

end Shapes

/-- Settles O30: by the shape of the instruction; of a legal one the write parameter is in no immediate mode. -/
theorem operandFaultsInOrder : Obligations.OperandFaultsInOrder := by
  intro i s e c he hw hhalt hc
  have hlegal : ¬ i.wellFormed = false := by simp [hw]
  rw [illFormed_iff, not_or, not_and, not_and] at hlegal
  obtain ⟨hm3, hm1⟩ := hlegal
  cases i with
  | add m1 m2 m3 => exact fourWord_raises fourWord_add he (hm3 (.inl rfl)) hc
  | mul m1 m2 m3 => exact fourWord_raises fourWord_mul he (hm3 (.inr (.inl rfl))) hc
  | lessThan m1 m2 m3 => exact fourWord_raises fourWord_lessThan he (hm3 (.inr (.inr (.inl rfl)))) hc
  | equal m1 m2 m3 => exact fourWord_raises fourWord_equal he (hm3 (.inr (.inr (.inr rfl)))) hc
  | input m1 m2 m3 => exact input_raises he (hm1 rfl) hc
  | output m1 m2 m3 => exact output_raises he hc
  | jumpIfTrue m1 m2 m3 => exact conditionalJump_raises he conditionalJump_ifTrue hc
  | jumpIfFalse m1 m2 m3 => exact conditionalJump_raises he conditionalJump_ifFalse hc
  | adjustRelativeBase m1 m2 m3 => exact rebase_raises he hc
  | halt => exact absurd rfl hhalt

/-! ### Fatal is what a raise makes of an engine -/

/-- Of the moves of an instruction only a raise leaves an engine fatal that was not (R28, R270). -/
theorem moves_takesFatal {s t : State} {e e' : Engine} {i : Instr} (h : Moves s e i t) (he : s.engine? = some e)
    (hs : e.status ≠ .fatal) (he' : t.engine? = some e') (hs' : e'.status = .fatal) : ∃ c, TakesFatal s e c t := by
  have not_fatal {f : Engine} (hf : t.engine? = some f) (hsf : f.status ≠ .fatal) : False := by
    cases he'.symm.trans hf
    exact hsf hs'
  have hlt := engine_lt he
  cases h with
  | raised c => exact ⟨c, raise_takesFatal he⟩
  | committed f hl =>
    obtain ⟨hstatus, _⟩ := hl.run
    exact (not_fatal (setEngine_engine s f hlt) (hstatus ▸ hs)).elim
  | received ch v rest d npc => exact (not_fatal (setEngine_engine (s.setChannel _ _) _ hlt) hs).elim
  | held => exact (not_fatal he hs).elim
  | sent ch v npc =>
    refine (not_fatal (setEngine_engine (State.setChannel { s with last := s.lastAfterSend v } _ _) _ hlt) ?_).elim
    rw [afterOutput_status]
    exact hs
  | halted => exact (not_fatal (terminated_setEngine_engine _ he) nofun).elim

/-- The turn that leaves its engine fatal takes an exception: its fetch or decode raises, or its instruction does (R112). -/
theorem turn_takesFatal {s u t : State} {k : Nat} {e e' : Engine} (h : TurnOf s k u) (he : u.engine? = some e)
    (hs : e.status ≠ .fatal) (hstep : step s = .next t) (he' : t.engines[k]? = some e') (hs' : e'.status = .fatal) :
    ∃ c, TakesFatal u e c t := by
  cases hr : e.ready with
  | false =>
    have hidle := step_turn_idle h fun f hf => by rw [he] at hf; cases hf; exact hr
    cases hstep.symm.trans hidle
    rw [← turnOf_active h] at he'
    cases he.symm.trans he'
    exact absurd hs' hs
  | true =>
    rw [step_turn_ready h he hr] at hstep
    obtain ⟨c, _, rfl⟩ | ⟨i, _, hexec⟩ := attempt_next hstep
    · exact ⟨c, raise_takesFatal he⟩
    · obtain ⟨f, hf, hm⟩ := exec_next hexec
      cases he.symm.trans hf
      obtain ⟨_, hactive, _⟩ := moves_sameAround hm
      rw [← turnOf_active h, ← hactive] at he'
      exact moves_takesFatal hm he hs he' hs'

/-- A turn of an engine that is not running does nothing (R110). -/
theorem turn_of_terminated {s u : State} {k : Nat} {e : Engine} (h : TurnOf s k u) (he : s.engines[k]? = some e)
    (hs : e.status ≠ .running) : step s = .next { u with active := s.active } := by
  refine step_turn_idle h fun f hf => ?_
  cases (((turnOf_engine h).trans he).symm.trans hf)
  simp [Engine.ready, hs]

/-- Settles O33: an exception is the one way to be fatal, and a fatal engine is not running. -/
theorem fatalErrorsArePrecise : Obligations.FatalErrorsArePrecise := by
  refine ⟨fun i s t e e' he hs hexec he' hs' => ?_, fun s u t k e e' h he hs hstep he' hs' => ⟨?_, ?_⟩⟩
  · obtain ⟨f, hf, hm⟩ := exec_next hexec
    cases he.symm.trans hf
    exact moves_takesFatal hm he hs he' hs'
  · exact turn_takesFatal h he hs hstep he' hs'
  · intro t' w hsame h'
    exact turn_of_terminated h' (hsame ▸ he') (by simp [hs'])

end Sys2Proof.Proofs
end

section
/-! SUPPORT. The reset family (spec/70_reset_and_hazards.md): what load answers, what words placed in memory read as, and the
statements of the family. -/

namespace Sys2Proof.Proofs

open Sys2Proof.Machine Sys2Proof.Safety Sys2Proof.Laws

/-! ### Load -/

/-- The load of a program that has room in memory is a fresh engine with that program (R300). -/
theorem loadStage_loads {s : State} {text : List Char} {ws : List Word} (hroom : s.engines.length < s.config.nStages)
    (hparse : parseProgram text = some ws) (hfits : (ws.length : Int) ≤ wordMax + 1) : loadStage text s =
      .next { s with engines := s.engines ++ [Engine.fresh (Memory.ofWords 0 ws)], reply := .done } := by
  simp only [loadStage, if_pos hroom, loadEngine, hparse, if_pos hfits]

/-- A text outside the grammar creates no engine (R301, D26). -/
theorem loadStage_refuses_text {s : State} {text : List Char} (hroom : s.engines.length < s.config.nStages)
    (hparse : parseProgram text = none) : loadStage text s = .refused .programText := by
  simp only [loadStage, if_pos hroom, loadEngine, hparse]

/-- Settles O52: the loaded engine is fresh, and its memory reads as the program. -/
theorem loadMakesFreshEngine : Obligations.LoadMakesFreshEngine := by
  intro s text rest ha
  rw [step_host ha]
  refine ⟨fun hroom => ⟨fun ws hparse hfits => ?_, fun hparse => loadStage_refuses_text hroom hparse⟩, fun hfull => ?_⟩
  · have hread (a : Nat) : (Memory.ofWords 0 ws).read a = ws.getD a 0 := by simpa using ofWords_read 0 a ws
    exact ⟨Engine.fresh (Memory.ofWords 0 ws), loadStage_loads hroom hparse hfits, rfl, rfl, rfl, rfl, rfl, rfl,
      ofWords_wf ws hfits, hread⟩
  · exact if_neg (not_lt.mpr hfull)

/-! ### The placed word -/

/-- Words stored at consecutive addresses leave every lower address alone. -/
theorem read_writeWords_below {m : Memory} {a b : Nat} {ws : List Word} (h : a < b) :
    (m.writeWords b ws).read a = m.read a := by
  induction ws generalizing m b with
  | nil => rfl
  | cons w ws ih => rw [Memory.writeWords, ih (by omega), read_write_other (by omega)]

/-- The first of the words stored is read at the address they are stored from. -/
theorem read_writeWords_head {m : Memory} {a : Nat} {w : Word} {ws : List Word} (hm : m.wf = true) :
    (m.writeWords a (w :: ws)).read a = w := by
  rw [Memory.writeWords, read_writeWords_below (Nat.lt_succ_self a), read_write_same hm]

/-- The instruction of a table word is the one that the first of its four words decodes to (R80). -/
theorem decodeTableWord_head {nbits w : Nat} {i : Instr} (h : decodeTableWord nbits w = some i) :
    ∃ v vs, tableWords nbits w = v :: vs ∧ decode v = .ok i := by
  unfold decodeTableWord at h
  split at h
  · cases h
  · rename_i v vs hwords
    split at h
    · rename_i j hj
      cases h
      exact ⟨v, vs, hwords, hj⟩
    · cases h

/-- Settles O59: the one stage is ready, and reads the placed word at its `pc`, which is 0. -/
theorem placedWordRunsNext : Obligations.PlacedWordRunsNext := by
  intro nbits w i h
  obtain ⟨v, vs, hwords, hdecode⟩ := decodeTableWord_head h
  rw [State.withFetchWord, hwords]
  have hread : (Memory.writeWords [] 0 (v :: vs)).read 0 = v := read_writeWords_head rfl
  exact stepRunsDecodedInstruction _ _ 0 ({ Engine.fresh (Memory.writeWords [] 0 (v :: vs)) with grant := .toHalt }) i
    (.inl ⟨rfl, rfl, rfl⟩) rfl rfl nofun ⟨le_rfl, (congrArg decode hread).trans hdecode⟩

end Sys2Proof.Proofs
end

section
/-! SUPPORT. The composition family (spec/48_process_composition.md), wiring and noninterference: which channels and holders a
topology has, what the two ends of a line answer to the host, what changes LAST, what disturbs a running engine, and the
statements. -/

namespace Sys2Proof.Proofs

open Sys2Proof.Machine Sys2Proof.Safety Sys2Proof.Laws

/-! ### Wiring -/

section Wiring
variable {c : Config}

/-- In a loop the last stage sends to the feedback link, and every other one to the next channel (R239, D23). -/
theorem outChannelOf_loop (h : c.topology = .feedbackLoop) {k : Nat} (hk : k < c.nStages) :
    outChannelOf c k = if k + 1 = c.nStages then 0 else k + 1 := by
  simp only [outChannelOf, h]
  split
  · next hlast => rw [hlast, Nat.mod_self]
  · next hlast => exact Nat.mod_eq_of_lt (by omega)

/-- The channels that a stage is bound to are there (R34, R235, R239). -/
theorem endpoints_lt {k : Nat} (hk : k < c.nStages) : inChannelOf c k < channelCount c ∧ outChannelOf c k < channelCount c := by
  simp only [inChannelOf, outChannelOf, channelCount]
  cases c.topology with
  | pipeline => exact ⟨Nat.lt_succ_of_lt hk, Nat.succ_lt_succ hk⟩
  | feedbackLoop => exact ⟨hk, Nat.mod_lt _ (Nat.zero_lt_of_lt hk)⟩

/-- No two stages send to one channel: its send side has one holder (R202, R233). -/
theorem outChannelOf_inj {i j : Nat} (hi : i < c.nStages) (hj : j < c.nStages) (h : outChannelOf c i = outChannelOf c j) :
    i = j := by
  have hholder := (holderOf_outChannelOf hi).symm.trans ((congrArg (holderOf c · .send) h).trans (holderOf_outChannelOf hj))
  exact Holder.stage.inj hholder

/-- The host holds the send side of the first channel of a line (R236, D24). -/
theorem holderOf_first (h : c.topology = .pipeline) : holderOf c 0 .send = .host := by simp [holderOf, h]

/-- The host holds the receive side of the last channel of a line (R236, D24). -/
theorem holderOf_last (h : c.topology = .pipeline) : holderOf c c.nStages .receive = .host := by simp [holderOf, h]

/-- The host holds no side of a loop (R240, D24). -/
theorem holderOf_loop (h : c.topology = .feedbackLoop) (ch : Nat) (side : Side) : holderOf c ch side ≠ .host := by
  cases side <;> simp [holderOf, h]

end Wiring

/-- Settles O56: by topology where the statement names one; for every stage by its two endpoints and who holds them. -/
theorem wiringIsOneToOne : Obligations.WiringIsOneToOne := by
  refine fun c _ => ⟨fun hline => ⟨?_, fun i _ => ⟨rfl, ?_⟩, holderOf_first hline, holderOf_last hline⟩,
    fun hloop => ⟨?_, fun i hi => ⟨rfl, outChannelOf_loop hloop hi⟩, fun ch side _ => holderOf_loop hloop ch side⟩,
    fun i hi => ?_, fun i j => outChannelOf_inj⟩
  · simp only [channelCount, hline]
  · simp only [outChannelOf, hline]
  · simp only [channelCount, hloop]
  · obtain ⟨hin, hout⟩ := endpoints_lt hi
    exact ⟨hin, hout, holderOf_inChannelOf hi, holderOf_outChannelOf hi⟩

/-! ### The host's ends of a line -/

section HostEnds
variable {s : State} {n : Nat} {ch : Channel} (hc : s.channels[n]? = some ch)
include hc

/-- The host's Send on a side it holds appends the value, or finds the receiver dropped (R204; notes/assumptions/5.md). -/
theorem hostSend_eq (v : Word) (hh : holderOf s.config n .send = .host) : hostSend n v s =
    .next (if ch.rxLive then { s.setChannel n { ch with q := ch.q ++ [v] } with reply := .done }
      else { s with reply := .brokenChannel }) := by
  simp only [hostSend, hc, hh, Channel.send]
  cases ch.rxLive <;> rfl

/-- The host's Recv on a live side it holds answers what Recv finds (R205, R206). -/
theorem hostRecv_eq (hh : holderOf s.config n .receive = .host) (hr : ch.rxLive = true) : hostRecv n s =
    .next (match ch.recv with
      | .got v ch' => { s.setChannel n ch' with received := s.received ++ [v], reply := .value v }
      | .hold => s
      | .broken => { s with reply := .brokenChannel }) := by
  simp only [hostRecv, hc, hh, hr, if_true]
  cases ch.recv <;> rfl

/-- The host's Recv on a side it has dropped is refused (R207; notes/assumptions/13.md). -/
theorem hostRecv_dropped (hh : holderOf s.config n .receive = .host) (hr : ch.rxLive = false) :
    hostRecv n s = .refused .transaction := by
  simp only [hostRecv, hc, hh, hr, Bool.false_eq_true, if_false]

end HostEnds

/-- Settles O55: the host holds the two ends, and each answer is the one for what the channel holds. -/
theorem hostSeedsAndDrainsPipeline : Obligations.HostSeedsAndDrainsPipeline := by
  refine fun s rest ch hline => ⟨fun v ha hc => ?_, fun ha hc => ?_⟩ <;> rw [step_host ha]
  · have hsend := hostSend_eq (s := { s with agenda := rest }) hc v (holderOf_first hline)
    exact ⟨fun hr => by rw [transact, hsend, if_pos hr]; rfl, fun hr => by rw [transact, hsend, hr]; rfl⟩
  · refine ⟨fun hr => ?_, fun hr => hostRecv_dropped (s := { s with agenda := rest }) hc (holderOf_last hline) hr⟩
    have hrecv := hostRecv_eq (s := { s with agenda := rest }) hc (holderOf_last hline) hr
    rw [transact, hrecv]
    refine ⟨fun v q hq => ?_, fun hq ht => ?_, fun hq ht => ?_⟩
    · rw [recv_got_iff.mpr ⟨q, hq, rfl⟩]
      rfl
    · simp only [Channel.recv, hq, ht, if_true]
    · simp only [Channel.recv, hq, ht, Bool.false_eq_true, if_false]

/-! ### LAST -/

/-- A Send that changes LAST is on the feedback link of a loop, and LAST is the value sent (R239). -/
theorem lastAfterSend_ne {s : State} {v : Word} (h : s.lastAfterSend v ≠ s.last) :
    s.config.topology = .feedbackLoop ∧ s.outChannel = 0 ∧ s.lastAfterSend v = some v := by
  unfold State.lastAfterSend at h ⊢
  split
  · next hlink => exact ⟨hlink.1, hlink.2, rfl⟩
  · next hlink => exact absurd (if_neg hlink) h

/-- Settles O28: of the moves of an instruction only a Send writes LAST. -/
theorem lastIsWhatTheFeedbackLinkGot : Obligations.LastIsWhatTheFeedbackLinkGot := by
  intro i s t hexec hne
  obtain ⟨e, _, hm⟩ := exec_next hexec
  cases hm with
  | raised | halted => exact absurd (terminated_last _) hne
  | committed | received | held => exact absurd rfl hne
  | sent ch v npc hi hc =>
    obtain ⟨hloop, hout, hlast⟩ := lastAfterSend_ne hne
    rw [hout] at hc
    refine ⟨hi, hloop, hout, v, ch, hlast, hc, ?_⟩
    have hlt := (List.getElem?_eq_some_iff.mp hc).1
    simp [hout, hlt]

/-! ### Running engines -/

/-- Settles O40: a turn of another stage and a drop leave the engine, and of the host's transactions only the run of an engine
without a grant writes it. -/
theorem runningEnginesAreNotDisturbed : Obligations.RunningEnginesAreNotDisturbed := by
  intro s t k e he hrunning hstep hturn hkeep
  have unchanged (h : t.engines[k]? = some e) : ∃ e', t.engines[k]? = some e' ∧ e'.status = .running ∧ e'.pc = e.pc ∧
      e'.rb = e.rb ∧ e'.mem = e.mem ∧ e'.fault = e.fault ∧ (e.grant ≠ .none → e' = e) :=
    ⟨e, h, hrunning, rfl, rfl, rfl, rfl, fun _ => rfl⟩
  obtain ⟨j, u, hu⟩ | ⟨n, side, rest, _, hdrop⟩ | ⟨r, rest, ha, hhost⟩ := step_agent hstep
  · have hkj : k ≠ j := fun h => hturn u (h ▸ hu)
    obtain ⟨_, _, _, _, _, hother, _⟩ := stagesAreIsolated s u t j hu hstep
    exact unchanged ((hother k hkj).trans he)
  · obtain rfl | ⟨_, _, _, _, rfl⟩ := interconnectDrop_next hdrop
    · exact unchanged he
    · exact unchanged (by simpa using he)
  · obtain h | ⟨hg, g, h⟩ := hostMoves_engine hhost (fun c hr => hkeep c rest (hr ▸ ha)) he
    · exact unchanged h
    · rw [granted_of_running g hrunning] at h
      exact ⟨_, h, hrunning, rfl, rfl, rfl, rfl, fun hn => absurd hg hn⟩

end Sys2Proof.Proofs
end

section
/-! SUPPORT. The composition family (spec/48_process_composition.md), ends of runs (R237, R241): when a run is over and ended well,
that every move short of a fresh composition keeps that, what a run of steps reads as a loop's result, and the statements. -/

namespace Sys2Proof.Proofs

open Sys2Proof.Machine Sys2Proof.Safety Sys2Proof.Laws

/-! ### Runs that are over -/

section Over
variable {s : State}

theorem built_iff : s.built = true ↔
    s.engines.length = s.config.nStages ∧ s.channels.length = channelCount s.config := by
  simp only [State.built, Bool.and_eq_true, beq_iff_eq]

/-- A line's run is over once every stage has terminated (R237). -/
theorem runOver_line_iff (h : s.config.topology = .pipeline) :
    s.runOver = true ↔ s.built = true ∧ ∀ e ∈ s.engines, e.status ≠ .running := by
  simp only [State.runOver, h, Bool.and_eq_true, List.all_eq_true, Engine.terminated, bne_iff_ne]

/-- It ended well if every stage is halted (R237). -/
theorem endedWell_line_iff (h : s.config.topology = .pipeline) :
    s.endedWell = true ↔ s.built = true ∧ ∀ e ∈ s.engines, e.status = .halted := by
  simp only [State.endedWell, h, Bool.and_eq_true, List.all_eq_true, beq_iff_eq]

/-- A loop's run is over once its designated stage has halted (R241). -/
theorem runOver_loop_iff (h : s.config.topology = .feedbackLoop) :
    s.runOver = true ↔ ∃ e, s.engines[s.config.haltStage]? = some e ∧ e.status = .halted := by
  simp only [State.runOver, h]
  cases s.engines[s.config.haltStage]? <;> simp

/-- It ended well if moreover no stage is fatal (D30; notes/assumptions/14.md). -/
theorem endedWell_loop_iff (h : s.config.topology = .feedbackLoop) :
    s.endedWell = true ↔ s.runOver = true ∧ ∀ e ∈ s.engines, e.status ≠ .fatal := by
  simp only [State.endedWell, h, Bool.and_eq_true, List.all_eq_true, bne_iff_ne]

end Over

/-! ### What a move keeps of the ends of stages -/

section Keeps
variable {s t : State} (hstep : step s = .next t) (hkeep : KeepsComposition s)
include hstep hkeep

/-- In a composition that is built no move short of a fresh composition adds a stage or a channel (R303). -/
theorem step_keeps_size (hb : s.built = true) :
    t.engines.length = s.engines.length ∧ t.channels.length = s.channels.length := by
  obtain ⟨hengines, hchannels⟩ := built_iff.mp hb
  obtain ⟨k, u, hu⟩ | ⟨n, side, rest, _, hdrop⟩ | ⟨r, rest, ha, hhost⟩ := step_agent hstep
  · obtain ⟨_, _, _, _, hlength, _, hclength, _⟩ := stagesAreIsolated s u t k hu hstep
    exact ⟨hlength, hclength⟩
  · obtain rfl | ⟨_, _, _, _, rfl⟩ := interconnectDrop_next hdrop <;> simp
  · cases hhost with
    | built c _ => exact absurd ha (hkeep c rest)
    | channel _ _ hroom => exact absurd hchannels hroom.ne
    | loaded _ _ hroom _ => exact absurd hengines hroom.ne
    | granted | sent | received | told | dropped => simp

theorem step_keeps_built (hb : s.built = true) : t.built = true := by
  obtain ⟨hengines, hchannels⟩ := step_keeps_size hstep hkeep hb
  exact (built_congr (step_keeps_wiring hstep hkeep).1 hengines hchannels).trans hb

/-- A stage that has terminated keeps its status (R28). -/
theorem step_keeps_status {k : Nat} {e : Engine} (he : s.engines[k]? = some e) (hs : e.status ≠ .running) :
    ∃ f, t.engines[k]? = some f ∧ f.status = e.status := by
  obtain h | h := step_keeps_terminated hstep hkeep he hs <;> exact ⟨_, h, rfl⟩

/-- Where every stage has terminated each keeps its status, and there is no other (R28). -/
theorem step_keeps_all_ended (hb : s.built = true) (hall : ∀ e ∈ s.engines, e.status ≠ .running) {f : Engine}
    (hf : f ∈ t.engines) : ∃ e ∈ s.engines, f.status = e.status := by
  obtain ⟨k, hk⟩ := List.getElem?_of_mem hf
  have hlt : k < s.engines.length := (step_keeps_size hstep hkeep hb).1 ▸ (List.getElem?_eq_some_iff.mp hk).1
  obtain ⟨g, hg, hstatus⟩ := step_keeps_status hstep hkeep (List.getElem?_eq_getElem hlt) (hall _ (List.getElem_mem hlt))
  cases hk.symm.trans hg
  exact ⟨_, List.getElem_mem hlt, hstatus⟩

/-- A line whose run is over keeps it over. -/
theorem step_keeps_runOver_line (hline : s.config.topology = .pipeline) (h : s.runOver = true) : t.runOver = true := by
  obtain ⟨hb, hall⟩ := (runOver_line_iff hline).mp h
  refine (runOver_line_iff ((step_keeps_wiring hstep hkeep).1 ▸ hline)).mpr
    ⟨step_keeps_built hstep hkeep hb, fun f hf => ?_⟩
  obtain ⟨e, he, hstatus⟩ := step_keeps_all_ended hstep hkeep hb hall hf
  exact hstatus ▸ hall e he

/-- A line that ended well stays so. -/
theorem step_keeps_endedWell_line (hline : s.config.topology = .pipeline) (h : s.endedWell = true) : t.endedWell = true := by
  obtain ⟨hb, hall⟩ := (endedWell_line_iff hline).mp h
  have hended : ∀ e ∈ s.engines, e.status ≠ .running := fun e he => by simp [hall e he]
  refine (endedWell_line_iff ((step_keeps_wiring hstep hkeep).1 ▸ hline)).mpr
    ⟨step_keeps_built hstep hkeep hb, fun f hf => ?_⟩
  obtain ⟨e, he, hstatus⟩ := step_keeps_all_ended hstep hkeep hb hended hf
  exact hstatus ▸ hall e he

/-- A loop whose designated stage has terminated keeps that stage's status. -/
theorem step_keeps_haltStage {e : Engine} (he : s.engines[s.config.haltStage]? = some e) (hs : e.status ≠ .running) :
    ∃ f, t.engines[t.config.haltStage]? = some f ∧ f.status = e.status :=
  (step_keeps_wiring hstep hkeep).1 ▸ step_keeps_status hstep hkeep he hs

/-- A loop whose run is over keeps it over. -/
theorem step_keeps_runOver_loop (hloop : s.config.topology = .feedbackLoop) (h : s.runOver = true) : t.runOver = true := by
  obtain ⟨e, he, hhalted⟩ := (runOver_loop_iff hloop).mp h
  obtain ⟨f, hf, hstatus⟩ := step_keeps_haltStage hstep hkeep he (by simp [hhalted])
  exact (runOver_loop_iff ((step_keeps_wiring hstep hkeep).1 ▸ hloop)).mpr ⟨f, hf, hstatus.trans hhalted⟩

end Keeps

/-- Settles O50: the ends of stages are kept, and no stage is added. -/
theorem runOverIsFinal : Obligations.RunOverIsFinal := by
  intro s t hstep hkeep
  have hover : s.runOver = true → t.runOver = true := by
    cases htopology : s.config.topology with
    | pipeline => exact step_keeps_runOver_line hstep hkeep htopology
    | feedbackLoop => exact step_keeps_runOver_loop hstep hkeep htopology
  refine ⟨hover, step_keeps_endedWell_line hstep hkeep, fun hloop hwell hnone => ?_⟩
  obtain ⟨hs, _⟩ := (endedWell_loop_iff hloop).mp hwell
  exact (endedWell_loop_iff ((step_keeps_wiring hstep hkeep).1 ▸ hloop)).mpr ⟨hover hs, hnone⟩

/-! ### Runs of steps -/

theorem coreRun_succ {M : Host.Core} {s t : M.State} (n : Nat) (h : M.step s = .next t) : M.run (n + 1) s = M.run n t := by
  rw [Host.Core.run, h]

/-- A run of one step more begins with a step. -/
theorem coreRun_succ_next {M : Host.Core} {s t : M.State} {n : Nat} (h : M.run (n + 1) s = .next t) :
    ∃ u, M.step s = .next u ∧ M.run n u = .next t := by
  rw [Host.Core.run] at h
  split at h
  · next u hstep => exact ⟨u, hstep, h⟩
  · cases h
  · cases h

/-- Where the run is over the result is LAST as it stands, whatever the fuel (R241). -/
theorem loopResultWithin_of_over {s : State} (fuel : Nat) (h : s.runOver = true) : loopResultWithin fuel s = s.last := by
  cases fuel with
  | zero => rw [loopResultWithin, State.loopResult, if_pos h]
  | succ fuel => rw [loopResultWithin, if_pos h]

/-- Where it is not over the result is that of the run from the next state. -/
theorem loopResultWithin_step {s t : State} (fuel : Nat) (h : s.runOver = false) (hstep : step s = .next t) :
    loopResultWithin (fuel + 1) s = loopResultWithin fuel t := by
  rw [loopResultWithin, h, if_neg Bool.false_ne_true, hstep]

/-- Settles O48: by induction on the steps, of which none but the last reaches a state whose run is over. -/
theorem loopResultIsLastAtEnd : Obligations.LoopResultIsLastAtEnd := by
  intro s t n fuel hle hrun hover hbefore
  induction n generalizing s fuel with
  | zero =>
    cases hrun
    exact loopResultWithin_of_over fuel hover
  | succ n ih =>
    obtain ⟨u, hstep, hrun⟩ := coreRun_succ_next hrun
    have hnot : s.runOver = false := hbefore 0 s (Nat.succ_pos n) rfl
    obtain ⟨fuel, rfl⟩ : ∃ m, fuel = m + 1 := Nat.exists_eq_add_one.mpr (by omega)
    rw [loopResultWithin_step fuel hnot hstep]
    exact ih u fuel (Nat.le_of_succ_le_succ hle) hrun fun j v hj hv =>
      hbefore (j + 1) v (Nat.succ_lt_succ hj) ((coreRun_succ (M := core) j hstep).trans hv)

/-! ### Loops without a result -/

/-- A step takes the move it makes off the agenda and adds none. -/
theorem step_agenda {s t : State} (h : step s = .next t) : t.agenda = s.agenda.tail := by
  obtain ⟨k, u, hu⟩ | ⟨n, side, rest, ha, hdrop⟩ | ⟨r, rest, ha, hhost⟩ := step_agent h
  · obtain ⟨_, hagenda, _⟩ := stagesAreIsolated s u t k hu h
    rw [hagenda]
    obtain ⟨ha, _, rfl⟩ | ⟨rest, ha, rfl⟩ := hu <;> simp [ha]
  · rw [ha]
    obtain rfl | ⟨_, _, _, _, rfl⟩ := interconnectDrop_next hdrop <;> simp
  · rw [ha]
    cases hhost <;> simp

/-- A loop whose designated stage is fatal, and no fresh composition is among the moves to come. -/
structure Fruitless (s : State) : Prop where
  loop : s.config.topology = .feedbackLoop
  fatal : ∃ e, s.engines[s.config.haltStage]? = some e ∧ e.status = .fatal
  keep : ∀ c, Event.host (.newComposition c) ∉ s.agenda

section Fruitless
variable {s t : State} (h : Fruitless s)
include h

/-- A fatal stage is not halted, so the run is not over (R241, D30). -/
theorem fruitless_not_over : s.runOver = false := by
  obtain ⟨e, he, hfatal⟩ := h.fatal
  refine Bool.eq_false_iff.mpr fun hover => ?_
  obtain ⟨f, hf, hhalted⟩ := (runOver_loop_iff h.loop).mp hover
  cases he.symm.trans hf
  cases hfatal.symm.trans hhalted

/-- A fatal stage stays fatal (R28). -/
theorem fruitless_step (hstep : step s = .next t) : Fruitless t := by
  have hkeep : KeepsComposition s := fun c rest ha => h.keep c (by simp [ha])
  obtain ⟨e, he, hfatal⟩ := h.fatal
  obtain ⟨f, hf, hstatus⟩ := step_keeps_haltStage hstep hkeep he (by simp [hfatal])
  refine ⟨(step_keeps_wiring hstep hkeep).1 ▸ h.loop, ⟨f, hf, hstatus.trans hfatal⟩, fun c hc => h.keep c ?_⟩
  rw [step_agenda hstep] at hc
  exact List.mem_of_mem_tail hc

/-- So no run of steps reaches an end of the run. -/
theorem fruitless_run {n : Nat} (hrun : core.run n s = .next t) : t.runOver = false := by
  induction n generalizing s with
  | zero =>
    cases hrun
    exact fruitless_not_over h
  | succ n ih =>
    obtain ⟨u, hstep, hrun⟩ := coreRun_succ_next hrun
    exact ih (fruitless_step h hstep) hrun

/-- And none reads a result. -/
theorem fruitless_result (fuel : Nat) : loopResultWithin fuel s = none := by
  induction fuel generalizing s with
  | zero => simp [loopResultWithin, State.loopResult, fruitless_not_over h]
  | succ fuel ih =>
    cases hs : step s with
    | next t => exact (loopResultWithin_step fuel (fruitless_not_over h) hs).trans (ih (fruitless_step h hs))
    | fault | refused => simp [loopResultWithin, fruitless_not_over h, hs]

end Fruitless

/-- Settles O49: the ends of runs by topology, and a loop whose designated stage is fatal is fruitless. -/
theorem runOverRule : Obligations.RunOverRule := by
  intro s
  refine ⟨fun hline => ?_, fun hloop => ⟨runOver_loop_iff hloop, endedWell_loop_iff hloop, fun hover => ?_,
    fun e he hfatal hkeep => ?_⟩⟩
  · rw [runOver_line_iff hline, endedWell_line_iff hline, built_iff, and_assoc, and_assoc]
    exact ⟨Iff.rfl, Iff.rfl⟩
  · exact ⟨if_pos hover, fun fuel => loopResultWithin_of_over fuel hover⟩
  · have h : Fruitless s := ⟨hloop, ⟨e, he, hfatal⟩, hkeep⟩
    exact ⟨fruitless_result h 0, fun n => ⟨fruitless_result h n, fun t => fruitless_run h⟩⟩

end Sys2Proof.Proofs
end

section
/-! SUPPORT. The composition family (spec/48_process_composition.md), deadlock (R250): what decides whether a machine is stalled,
which moves leave that alone, what the seed of a line does, and the statement. -/

namespace Sys2Proof.Proofs

open Sys2Proof.Machine Sys2Proof.Safety Sys2Proof.Laws

/-! ### What decides whether stages wait -/

/-- `t` is `s` in all that decides whether its stages hold: the wiring, the channels, and each engine but for its fault record,
grant and yielded value (R206). -/
structure WaitsAlike (s t : State) : Prop where
  config : t.config = s.config
  channels : t.channels = s.channels
  length : t.engines.length = s.engines.length
  engine : ∀ (k : Nat) (e : Engine), s.engines[k]? = some e →
    ∃ f, t.engines[k]? = some f ∧ f.status = e.status ∧ f.pc = e.pc ∧ f.rb = e.rb ∧ f.mem = e.mem

section WaitsAlike
variable {s t : State} (h : WaitsAlike s t)

theorem waitsAlike_of_sameEngines (hconfig : t.config = s.config) (hengines : t.engines = s.engines)
    (hchannels : t.channels = s.channels) : WaitsAlike s t :=
  ⟨hconfig, hchannels, congrArg List.length hengines, fun _ e he => ⟨e, hengines ▸ he, rfl, rfl, rfl, rfl⟩⟩

include h

theorem waitsAlike_holds (k : Nat) : t.holds k = s.holds k := by
  cases he : s.engines[k]? with
  | none =>
    have hf : t.engines[k]? = none := by
      rw [List.getElem?_eq_none_iff] at he ⊢
      exact h.length ▸ he
    simp [State.holds, he, hf]
  | some e =>
    obtain ⟨f, hf, hstatus, hpc, hrb, hmem⟩ := h.engine k e he
    exact holds_of_same h.config h.channels he hf hstatus hpc hrb hmem

/-- Such a machine is stalled alike. -/
theorem waitsAlike_stalled (hs : s.stalled = true) : t.stalled = true := by
  obtain ⟨hb, ⟨e, he, hrunning⟩, hall⟩ := stalled_iff.mp hs
  refine stalled_iff.mpr ⟨(built_congr h.config h.length (by rw [h.channels])).trans hb, ?_, fun k f hf hfs => ?_⟩
  · obtain ⟨k, hk⟩ := List.getElem?_of_mem he
    obtain ⟨f, hf, hstatus, _⟩ := h.engine k e hk
    exact ⟨f, List.mem_of_getElem? hf, hstatus.trans hrunning⟩
  · have hlt : k < s.engines.length := h.length ▸ (List.getElem?_eq_some_iff.mp hf).1
    have hk := List.getElem?_eq_getElem hlt
    obtain ⟨g, hg, hstatus, _⟩ := h.engine k _ hk
    cases hf.symm.trans hg
    exact (waitsAlike_holds h k).trans (hall k _ hk (hstatus.symm.trans hfs))

/-- Such a machine is deadlocked alike, where as many seeds are to come (R245). -/
theorem waitsAlike_deadlocked (ha : sendToCome t.agenda = sendToCome s.agenda) (hs : s.deadlocked = true) :
    t.deadlocked = true := by
  obtain ⟨hstalled, hseed⟩ : s.stalled = true ∧ s.seedOutstanding = false := by simpa [State.deadlocked] using hs
  have hseed' : t.seedOutstanding = s.seedOutstanding := by
    simp only [State.seedOutstanding, h.config, waitsAlike_holds h, ha]
  simp [State.deadlocked, waitsAlike_stalled h hstalled, hseed', hseed]

end WaitsAlike

/-! ### Moves of a stalled machine -/

section Stalled
variable {s : State} (hs : s.stalled = true)
include hs

/-- No stage of a stalled machine has an enabled step: one that runs holds (R110, R206). -/
theorem stalled_not_enabled (k : Nat) : s.enabled k = false := by
  obtain ⟨_, _, hall⟩ := stalled_iff.mp hs
  cases he : s.engines[k]? with
  | none => simp [State.enabled, he]
  | some e =>
    by_cases hrunning : e.status = .running
    · exact holds_not_enabled (hall k e he hrunning)
    · simp [State.enabled, he, Engine.ready, hrunning]

/-- The turn of a stage of a stalled machine does nothing but take the turn. -/
theorem stalled_turn {u : State} {k : Nat} (h : TurnOf s k u) : ∃ n, step s = .next { u with active := n } := by
  obtain ⟨_, _, hall⟩ := stalled_iff.mp hs
  by_cases hrunning : ∃ e, s.engines[k]? = some e ∧ e.status = .running
  · obtain ⟨e, he, hrunning⟩ := hrunning
    obtain hstep | hstep := step_turn_held h (hall k e he hrunning) <;> exact ⟨_, hstep⟩
  · refine ⟨_, step_turn_idle h fun e he => Bool.eq_false_iff.mpr fun hready => hrunning ⟨e, ?_, ?_⟩⟩
    · exact (turnOf_engine h).symm.trans he
    · exact (ready_iff.mp hready).1

end Stalled

/-- The turn of a stage is no Send. -/
theorem sendToCome_turn {s u : State} {k : Nat} (h : TurnOf s k u) : sendToCome u.agenda = sendToCome s.agenda := by
  obtain ⟨_, _, rfl⟩ | ⟨rest, ha, rfl⟩ := h
  · rfl
  · rw [ha]
    rfl

/-- A run transaction changes nothing that decides whether stages hold (R125, R126, R206). -/
theorem waitsAlike_run {s t : State} {k : Nat} {r : Transaction} {rest : List Event}
    (hr : r = .runToHalt k ∨ r = .runUntilBlocked k) (h : HostMoves { s with agenda := rest } r t) :
    WaitsAlike s t ∧ t.agenda = rest := by
  have hnew : ∀ c, r ≠ .newComposition c := by
    rintro c rfl
    obtain h | h := hr <;> cases h
  have engine (j : Nat) (e : Engine) (he : s.engines[j]? = some e) :
      ∃ f, t.engines[j]? = some f ∧ f.status = e.status ∧ f.pc = e.pc ∧ f.rb = e.rb ∧ f.mem = e.mem := by
    obtain hf | ⟨_, g, hf⟩ := hostMoves_engine h hnew he
    · exact ⟨e, hf, rfl, rfl, rfl, rfl⟩
    · exact ⟨_, hf, granted_status e g, granted_pc e g, granted_rb e g, granted_mem e g⟩
  cases h with
  | granted => exact ⟨⟨rfl, rfl, by simp, engine⟩, rfl⟩
  | told => exact ⟨⟨rfl, rfl, rfl, engine⟩, rfl⟩
  | built | channel | loaded | sent | received | dropped => obtain h | h := hr <;> cases h

/-! ### The seed -/

section Seed
variable {s : State} {rest : List Event} {v : Word} (hline : s.config.topology = .pipeline) (hh : s.holds 0 = true)
  (ha : s.agenda = .host (.send 0 v) :: rest)
include hline hh ha

/-- A line whose seed is the next move has a duty of the host outstanding (R245; notes/assumptions/15.md). -/
theorem seed_not_deadlocked : s.deadlocked = false := by
  have hsend : sendToCome s.agenda = true := by rw [ha]; rfl
  simp [State.deadlocked, State.seedOutstanding, hline, hh, hsend]

/-- The seed puts a value in the queue on which the first stage holds (R206, R236). -/
theorem seed_lifts {e : Engine} {ch : Channel} (he : s.engines[0]? = some e) (hc : s.channels[0]? = some ch)
    (hr : ch.rxLive = true) :
    ∃ t, step s = .next t ∧ t.holds 0 = false ∧ (e.grant ≠ .none → t.enabled 0 = true) := by
  obtain ⟨hrunning, _⟩ := held_input hh he hc
  obtain ⟨hseed, _⟩ := hostSeedsAndDrainsPipeline s rest ch hline
  obtain ⟨hsend, _⟩ := hseed v ha hc
  refine ⟨_, hsend hr, ?_⟩
  have hc' : (s.channels.set 0 { ch with q := ch.q ++ [v] })[0]? = some { ch with q := ch.q ++ [v] } :=
    List.getElem?_set_self (List.getElem?_eq_some_iff.mp hc).1
  have hvalue : ch.q ++ [v] ≠ [] ∨ ch.txLive = false := .inl (List.concat_ne_nil v ch.q)
  exact ⟨not_holds_of_lifted hc' hvalue, fun hg => enabled_of_lifted hc' hvalue he (ready_iff.mpr ⟨hrunning, hg⟩)⟩

end Seed

/-- Settles O47: turns and run transactions leave alone what decides whether stages hold, and the seed does not. -/
theorem deadlockIsStuck : Obligations.DeadlockIsStuck := by
  intro s hs
  obtain ⟨_, _, hall⟩ := stalled_iff.mp hs
  refine ⟨stalled_not_enabled hs, hall, fun k u hu => ?_, fun k r rest t hr ha hstep => ?_,
    fun v rest e ch hline hh he hc hr ha => ⟨seed_not_deadlocked hline hh ha, seed_lifts hline hh ha he hc hr⟩⟩
  · obtain ⟨hconfig, hengines, hchannels, hlast, _⟩ := turnOf_same hu
    obtain ⟨n, hstep⟩ := stalled_turn hs hu
    have halike : WaitsAlike s { u with active := n } := waitsAlike_of_sameEngines hconfig hengines hchannels
    have hsend : sendToCome u.agenda = sendToCome s.agenda := sendToCome_turn hu
    exact ⟨_, hstep, hengines, hchannels, hlast, waitsAlike_stalled halike hs, waitsAlike_deadlocked halike hsend⟩
  · rw [step_host ha] at hstep
    obtain ⟨halike, hagenda⟩ := waitsAlike_run hr (transact_next hstep)
    have hsend : sendToCome t.agenda = sendToCome s.agenda := by
      rw [hagenda, ha]
      obtain rfl | rfl := hr <;> rfl
    have hstalled : t.stalled = true := waitsAlike_stalled halike hs
    exact ⟨stalled_not_enabled hstalled, hstalled, waitsAlike_deadlocked halike hsend⟩

end Sys2Proof.Proofs
end

section
/-! SUPPORT. The composition family (spec/48_process_composition.md), interleaving (R231, R251): a turn of an enabled stage as one
engine written and one queue moved by at most a value, that another stage's turn leaves alone what decides it, that two such turns
commute, and the statement. -/

namespace Sys2Proof.Proofs

open Sys2Proof.Machine Sys2Proof.Safety Sys2Proof.Laws

/-! ### The effect of a turn -/

/-- What a turn does to the queues: nothing, or its input's head is taken, or a value is put at its output's tail (R110). -/
inductive QueueEffect where
  | stay
  | take
  | put (v : Word)

/-- The effect of stage `k` on channel `n`. -/
def QueueEffect.onChannel (c : Config) (k : Nat) : QueueEffect → Nat → Channel → Channel
  | .stay, _, ch => ch
  | .take, n, ch => if n = inChannelOf c k then { ch with q := ch.q.tail } else ch
  | .put v, n, ch => if n = outChannelOf c k then { ch with q := ch.q ++ [v] } else ch

/-- The effect of stage `k` on LAST (R239). -/
def QueueEffect.onLast (c : Config) (k : Nat) : QueueEffect → Option Word → Option Word
  | .put v, last => if c.topology = .feedbackLoop ∧ outChannelOf c k = 0 then some v else last
  | .stay, last | .take, last => last

/-- The machine after a turn of stage `k` that leaves it as the engine `f`, with the effect `x` on the queues. -/
def afterTurn (k : Nat) (f : Engine) (x : QueueEffect) (s : State) : State :=
  { s with
    active := k
    engines := s.engines.set k f
    channels := s.channels.mapIdx (x.onChannel s.config k)
    last := x.onLast s.config k s.last }

section Effect
variable {s : State} {k n : Nat} {f : Engine} {x : QueueEffect} {ch : Channel}

@[simp] theorem onChannel_txLive (c : Config) : (x.onChannel c k n ch).txLive = ch.txLive := by
  cases x with
  | stay => rfl
  | take | put =>
    rw [QueueEffect.onChannel]
    split <;> rfl

@[simp] theorem onChannel_rxLive (c : Config) : (x.onChannel c k n ch).rxLive = ch.rxLive := by
  cases x with
  | stay => rfl
  | take | put =>
    rw [QueueEffect.onChannel]
    split <;> rfl

theorem afterTurn_channel (hc : s.channels[n]? = some ch) :
    (afterTurn k f x s).channels[n]? = some (x.onChannel s.config k n ch) := by
  simp [afterTurn, hc]

/-- A map that changes one entry of a list is the writing of that entry. -/
theorem mapIdx_eq_set {l : List Channel} {a : Channel} {g : Channel → Channel} (h : l[n]? = some a) :
    l.mapIdx (fun m b => if m = n then g b else b) = l.set n (g a) := by
  refine List.ext_getElem? fun m => ?_
  by_cases hmn : m = n
  · subst hmn
    rw [List.getElem?_mapIdx, h, List.getElem?_set_self (List.getElem?_eq_some_iff.mp h).1]
    simp
  · simp [hmn, Ne.symm hmn]

theorem afterTurn_stay : afterTurn k f .stay s = ({ s with active := k } : State).setEngine f := by
  have hsame : s.channels.mapIdx (QueueEffect.stay.onChannel s.config k) = s.channels :=
    List.ext_getElem? fun m => by
      rw [List.getElem?_mapIdx]
      exact congrFun Option.map_id _
  simp only [afterTurn, hsame]
  rfl

theorem afterTurn_take {v : Word} {rest : List Word} (hc : s.channels[inChannelOf s.config k]? = some ch)
    (hq : ch.q = v :: rest) : afterTurn k f .take s =
      (State.setChannel { s with active := k } (inChannelOf s.config k) { ch with q := rest }).setEngine f := by
  have hset := mapIdx_eq_set (g := fun ch => { ch with q := ch.q.tail }) hc
  simp only [hq, List.tail_cons] at hset
  simp only [afterTurn, State.setChannel, State.setEngine, ← hset]
  rfl

theorem afterTurn_put {v : Word} (hc : s.channels[outChannelOf s.config k]? = some ch) : afterTurn k f (.put v) s =
    (State.setChannel { s with active := k, last := State.lastAfterSend { s with active := k } v }
      (outChannelOf s.config k) { ch with q := ch.q ++ [v] }).setEngine f := by
  have hset := mapIdx_eq_set (g := fun ch => { ch with q := ch.q ++ [v] }) hc
  simp only [afterTurn, State.setChannel, State.setEngine, ← hset]
  rfl

end Effect

/-! ### What decides a turn -/

/-- Of all that decides a turn of stage `k`, `s'` is as `s`: the engine, the head of its input queue or that it is empty with its
sender dropped, and whether its receiver is live (R118). -/
structure SeenAlike (k : Nat) (s s' : State) : Prop where
  config : s'.config = s.config
  engine : s'.engines[k]? = s.engines[k]?
  input : ∀ ch, s.channels[inChannelOf s.config k]? = some ch → ∃ ch', s'.channels[inChannelOf s.config k]? = some ch' ∧
    (∀ v rest, ch.q = v :: rest → ∃ rest', ch'.q = v :: rest') ∧
    (ch.q = [] → ch.txLive = false → ch'.q = [] ∧ ch'.txLive = false)
  output : ∀ ch, s.channels[outChannelOf s.config k]? = some ch →
    ∃ ch', s'.channels[outChannelOf s.config k]? = some ch' ∧ ch'.rxLive = ch.rxLive

theorem seenAlike_self (k : Nat) (s : State) : SeenAlike k s s :=
  ⟨rfl, rfl, fun ch hc => ⟨ch, hc, fun _ rest hq => ⟨rest, hq⟩, And.intro⟩, fun ch hc => ⟨ch, hc, rfl⟩⟩

/-- The moves to come decide nothing. -/
theorem seenAlike_agenda {k : Nat} {s s' : State} (h : SeenAlike k s s') (agenda : List Event) :
    SeenAlike k s { s' with agenda := agenda } :=
  ⟨h.config, h.engine, h.input, h.output⟩

/-- The answer `r` of stage `k`'s turn writes one engine and moves its queues by one effect, the same ones in every machine that is
as `s` in all that decides the turn; a value is taken only where one is queued. -/
def Acts (s : State) (k : Nat) (r : State → Result) : Prop :=
  ∃ (f : Engine) (x : QueueEffect),
    (x = .take → ∀ ch, s.channels[inChannelOf s.config k]? = some ch → ch.q ≠ []) ∧
    ∀ s', SeenAlike k s s' → r { s' with active := k } = .next (afterTurn k f x s')

section Acts
variable {s : State} {k : Nat} {e : Engine} {r r' : State → Result}

theorem acts_congr (h : Acts s k r) (heq : ∀ s', SeenAlike k s s' → r' { s' with active := k } = r { s' with active := k }) :
    Acts s k r' := by
  obtain ⟨f, x, htake, hr⟩ := h
  exact ⟨f, x, htake, fun s' hs' => (heq s' hs').trans (hr s' hs')⟩

theorem acts_setEngine (f : Engine) : Acts s k fun u => .next (u.setEngine f) :=
  ⟨f, .stay, nofun, fun _ _ => congrArg _ afterTurn_stay.symm⟩

/-- The end of an engine drops nothing unless DROP_POLICY is `on_terminate` (R208). -/
theorem acts_terminated (hpolicy : s.config.dropPolicy ≠ .onTerminate) (f : Engine) :
    Acts s k fun u => .next (u.setEngine f).terminated :=
  acts_congr (acts_setEngine f) fun _ hs' => congrArg _ (terminated_id _ (hs'.config.symm ▸ hpolicy))

theorem acts_attempt {α : Type} {a : Except Cause α} {g : α → State → Result}
    (hpolicy : s.config.dropPolicy ≠ .onTerminate) (h : ∀ b, a = .ok b → Acts s k (g b)) :
    Acts s k fun u => u.attempt e a fun b => g b u := by
  cases a with
  | ok b => exact h b rfl
  | error c => exact acts_terminated hpolicy (e.fatal c)

variable (he : s.engines[k]? = some e)
include he

theorem acts_withEngine {g : Engine → State → Result} (h : Acts s k (g e)) :
    Acts s k fun u => u.withEngine fun e => g e u :=
  acts_congr h fun s' hs' => withEngine_some (s := { s' with active := k }) (hs'.engine.trans he) _

variable (hpolicy : s.config.dropPolicy ≠ .onTerminate)
include hpolicy

/-- The shape the four-word, jump and base instructions share. -/
theorem acts_commit (a : Engine → Except Cause Engine) :
    Acts s k fun u => u.withEngine fun e => u.attempt e (a e) fun f => .next (u.setEngine f) :=
  acts_withEngine he (g := fun e u => u.attempt e (a e) fun f => .next (u.setEngine f))
    (acts_attempt hpolicy fun f _ => acts_setEngine f)

/-- An input that does not hold takes the head or raises (R150, R205). -/
theorem acts_input {ch : Channel} (m1 : Mode) (hc : s.channels[inChannelOf s.config k]? = some ch)
    (hlifted : ∀ p, e.inputPlan m1 = .ok p → ch.q ≠ [] ∨ ch.txLive = false) : Acts s k (execInput m1) := by
  refine acts_withEngine he (acts_attempt hpolicy fun p hp => ?_)
  cases hq : ch.q with
  | cons v rest =>
    refine ⟨{ e.store p.1 v with pc := p.2 }, .take, fun _ d hd => ?_, fun s' hs' => ?_⟩
    · cases hc.symm.trans hd
      simp [hq]
    · obtain ⟨ch', hc', hhead, _⟩ := hs'.input ch hc
      obtain ⟨rest', hq'⟩ := hhead v rest hq
      rw [← hs'.config] at hc'
      refine (withChannel_some (s := { s' with active := k }) hc' _).trans ?_
      rw [recv_got_iff.mpr ⟨rest', hq', rfl⟩, afterTurn_take hc' hq']
      rfl
  | nil =>
    have hdropped : ch.txLive = false := (hlifted p hp).resolve_left (absurd hq)
    refine acts_congr (acts_terminated hpolicy (e.fatal .brokenChannel)) fun s' hs' => ?_
    obtain ⟨ch', hc', _, hnil⟩ := hs'.input ch hc
    obtain ⟨hq', ht'⟩ := hnil hq hdropped
    refine (withChannel_some (s := { s' with active := k }) hc' _).trans ?_
    simp only [Channel.recv, hq', ht', Bool.false_eq_true, if_false, State.raise]

/-- An output appends its value or raises (R151, R204). -/
theorem acts_output {ch : Channel} (m1 : Mode) (hc : s.channels[outChannelOf s.config k]? = some ch) :
    Acts s k (execOutput m1) := by
  refine acts_withEngine he (acts_attempt hpolicy fun p _ => ?_)
  cases hr : ch.rxLive with
  | true =>
    refine ⟨({ e with pc := p.2 } : Engine).afterOutput p.1, .put p.1, nofun, fun s' hs' => ?_⟩
    obtain ⟨ch', hc', hr'⟩ := hs'.output ch hc
    rw [← hs'.config] at hc'
    refine (withChannel_some (s := { s' with active := k }) hc' _).trans ?_
    rw [send_some_iff.mpr ⟨hr'.trans hr, rfl⟩, afterTurn_put hc']
    rfl
  | false =>
    refine acts_congr (acts_terminated hpolicy (e.fatal .brokenChannel)) fun s' hs' => ?_
    obtain ⟨ch', hc', hr'⟩ := hs'.output ch hc
    rw [← hs'.config] at hc'
    refine (withChannel_some (s := { s' with active := k }) hc' _).trans ?_
    rw [send_none_iff.mpr (hr'.trans hr)]
    rfl

/-- Every instruction acts in this way, unless it is an input that holds. -/
theorem acts_exec (i : Instr) (hwired : Wired { s with active := k })
    (hlifted : ∀ m1 m2 m3 p ch, i = .input m1 m2 m3 → e.inputPlan m1 = .ok p →
      s.channels[inChannelOf s.config k]? = some ch → ch.q ≠ [] ∨ ch.txLive = false) : Acts s k (exec i) := by
  obtain ⟨hin, hout⟩ := hwired
  cases i with
  | add | mul | lessThan | equal => exact acts_commit he hpolicy (·.binary _ _ _ _ _)
  | jumpIfTrue | jumpIfFalse => exact acts_commit he hpolicy (·.jump _ _ _ _)
  | adjustRelativeBase => exact acts_commit he hpolicy (·.rebase _)
  | input m1 m2 m3 =>
    have hc := List.getElem?_eq_getElem hin
    exact acts_input he hpolicy m1 hc fun p hp => hlifted m1 m2 m3 p _ rfl hp hc
  | output m1 m2 m3 => exact acts_output he hpolicy m1 (List.getElem?_eq_getElem hout)
  | halt => exact acts_withEngine he (acts_terminated hpolicy _)

end Acts

/-! ### The turn of an enabled stage -/

theorem enabled_ready {s : State} {k : Nat} (h : s.enabled k = true) :
    ∃ e, s.engines[k]? = some e ∧ e.ready = true := by
  unfold State.enabled at h
  split at h
  · rename_i e he
    exact ⟨e, he, (Bool.and_eq_true_iff.mp h).1⟩
  · cases h

/-- An enabled stage at an input has a value queued or its sender dropped (R206). -/
theorem enabled_lifted {s : State} {k : Nat} {e : Engine} {m1 m2 m3 : Mode} {p : Word × Word} {ch : Channel}
    (h : s.enabled k = true) (he : s.engines[k]? = some e) (hr : e.ready = true) (hd : e.decoded = .ok (.input m1 m2 m3))
    (hp : e.inputPlan m1 = .ok p) (hc : s.channels[inChannelOf s.config k]? = some ch) : ch.q ≠ [] ∨ ch.txLive = false := by
  by_contra hwaits
  obtain ⟨hq, ht⟩ : ch.q = [] ∧ ch.txLive = true := by simpa using hwaits
  have hholds : s.holds k = true := holds_iff.mpr ⟨e, m1, m2, m3, p, ch, he, (ready_iff.mp hr).1, hd, hp, hc, hq, ht⟩
  exact Bool.false_ne_true ((holds_not_enabled hholds).symm.trans h)

/-- The turn of an enabled stage: the engine it becomes and its effect on the queues, for every machine that is alike in all that
decides the turn. -/
theorem enabled_turn {s : State} {k : Nat} (hi : Inv s) (hpolicy : s.config.dropPolicy ≠ .onTerminate)
    (h : s.enabled k = true) : ∃ (f : Engine) (x : QueueEffect),
      (x = .take → ∀ ch, s.channels[inChannelOf s.config k]? = some ch → ch.q ≠ []) ∧
      ∀ s', SeenAlike k s s' → stageTurn k s' = .next (afterTurn k f x s') := by
  obtain ⟨e, he, hr⟩ := enabled_ready h
  have hb : s.built = true := inv_built hi he (ready_iff.mp hr).2
  have hwired := wired_of_built hb (List.getElem?_eq_some_iff.mp he).1
  have hacts : Acts s k fun u => u.attempt e e.decoded fun i => exec i u := by
    refine acts_attempt hpolicy fun i hd => acts_exec he hpolicy i hwired ?_
    rintro m1 m2 m3 p ch rfl hp hc
    exact enabled_lifted h he hr hd hp hc
  obtain ⟨f, x, htake, hturn⟩ := hacts
  exact ⟨f, x, htake, fun s' hs' => (stageTurn_ready (hs'.engine.trans he) hr).trans (hturn s' hs')⟩

/-! ### The turn of another stage -/

/-- Whoever receives from a stage that has not terminated has a live sender (R208). -/
theorem output_txLive {s : State} {i : Nat} {ch : Channel} (hd : DropsInv s) (hlt : i < s.config.nStages)
    (hi : s.terminatedStage i = false) (hc : s.channels[outChannelOf s.config i]? = some ch) : ch.txLive = true := by
  by_contra hdead
  have hdropped : Dropped s.channels (outChannelOf s.config i) .send := ⟨ch, hc, Bool.eq_false_iff.mpr hdead⟩
  have hended := dropAllowed_iff.mp (dropsInv_iff.mp hd _ _ hdropped) i (holderOf_outChannelOf hlt)
  exact Bool.false_ne_true (hi.symm.trans hended)

/-- An effect of stage `i` leaves the head of another stage's input queue: it can only put a value behind it (R233). -/
theorem onChannel_head {c : Config} {i j : Nat} {x : QueueEffect} {ch : Channel} {v : Word} {rest : List Word} (hne : i ≠ j)
    (hq : ch.q = v :: rest) : ∃ rest', (x.onChannel c i (inChannelOf c j) ch).q = v :: rest' := by
  cases x with
  | stay => exact ⟨rest, hq⟩
  | take => exact ⟨rest, by rw [QueueEffect.onChannel, if_neg fun h => hne h.symm, hq]⟩
  | put w =>
    rw [QueueEffect.onChannel]
    split
    · exact ⟨rest ++ [w], by simp [hq]⟩
    · exact ⟨rest, hq⟩

/-- An effect of stage `i` leaves an empty queue empty, unless the queue is its own output's. -/
theorem onChannel_empty {c : Config} {i n : Nat} {x : QueueEffect} {ch : Channel} (hn : n ≠ outChannelOf c i)
    (hq : ch.q = []) : (x.onChannel c i n ch).q = [] := by
  cases x with
  | stay => exact hq
  | take =>
    rw [QueueEffect.onChannel]
    split
    · simp [hq]
    · exact hq
  | put w => rw [QueueEffect.onChannel, if_neg hn, hq]

/-- The turn of a running stage leaves alone all that decides the turn of another one. -/
theorem seenAlike_afterTurn {s : State} {i j : Nat} {f : Engine} {x : QueueEffect} (hd : DropsInv s)
    (hlt : i < s.config.nStages) (hi : s.terminatedStage i = false) (hne : i ≠ j) : SeenAlike j s (afterTurn i f x s) := by
  refine ⟨rfl, List.getElem?_set_ne hne, fun ch hc => ⟨_, afterTurn_channel hc, ?_, fun hq ht => ⟨?_, ?_⟩⟩,
    fun ch hc => ⟨_, afterTurn_channel hc, onChannel_rxLive _⟩⟩
  · exact fun v rest hq => onChannel_head hne hq
  · refine onChannel_empty (fun hn => ?_) hq
    rw [hn] at hc
    exact Bool.false_ne_true (ht.symm.trans (output_txLive hd hlt hi hc))
  · exact (onChannel_txLive _).trans ht

/-! ### Two turns commute -/

section Commute
variable {c : Config} {i j n : Nat} {x y : QueueEffect} {ch : Channel}

/-- The head of a queue that holds a value is taken alike before and after a value is put at its tail. -/
theorem take_put_comm {v : Word} (hq : n = inChannelOf c i → ch.q ≠ []) :
    QueueEffect.take.onChannel c i n ((QueueEffect.put v).onChannel c j n ch) =
      (QueueEffect.put v).onChannel c j n (QueueEffect.take.onChannel c i n ch) := by
  simp only [QueueEffect.onChannel]
  by_cases hin : n = inChannelOf c i
  · by_cases hout : n = outChannelOf c j
    · simp only [if_pos hin, if_pos hout, List.tail_append_of_ne_nil (hq hin)]
    · simp only [if_pos hin, if_neg hout]
  · simp only [if_neg hin]

variable (hi : i < c.nStages) (hj : j < c.nStages) (hne : i ≠ j)
include hi hj hne

/-- Effects of two stages on a channel commute: no two stages receive from one channel or send to one (R233), and a value is taken
only where one is queued. -/
theorem onChannel_comm (hx : x = .take → n = inChannelOf c i → ch.q ≠ [])
    (hy : y = .take → n = inChannelOf c j → ch.q ≠ []) :
    y.onChannel c j n (x.onChannel c i n ch) = x.onChannel c i n (y.onChannel c j n ch) := by
  cases x with
  | stay => rfl
  | take =>
    cases y with
    | stay => rfl
    | take =>
      simp only [QueueEffect.onChannel]
      by_cases hin : n = inChannelOf c i
      · have hout : n ≠ inChannelOf c j := fun h => hne (hin.symm.trans h)
        simp only [if_neg hout]
      · simp only [if_neg hin]
    | put w => exact (take_put_comm (hx rfl)).symm
  | put v =>
    cases y with
    | stay => rfl
    | take => exact take_put_comm (hy rfl)
    | put w =>
      simp only [QueueEffect.onChannel]
      by_cases hin : n = outChannelOf c i
      · have hout : n ≠ outChannelOf c j := fun h => hne (outChannelOf_inj hi hj (hin.symm.trans h))
        simp only [if_neg hout]
      · simp only [if_neg hin]

/-- Effects of two stages on LAST commute: one stage at most sends to the feedback link (R239). -/
theorem onLast_comm (last : Option Word) : y.onLast c j (x.onLast c i last) = x.onLast c i (y.onLast c j last) := by
  cases x with
  | stay | take => cases y <;> rfl
  | put v =>
    cases y with
    | stay | take => rfl
    | put w =>
      simp only [QueueEffect.onLast]
      by_cases hlink : c.topology = .feedbackLoop ∧ outChannelOf c i = 0
      · have hother : ¬ (c.topology = .feedbackLoop ∧ outChannelOf c j = 0) :=
          fun h => hne (outChannelOf_inj hi hj (hlink.2.trans h.2.symm))
        simp only [if_neg hother]
      · simp only [if_neg hlink]

end Commute

/-- The turns of two stages commute, but for whose turn was last. -/
theorem afterTurn_comm {s : State} {i j : Nat} {f g : Engine} {x y : QueueEffect} (hi : i < s.config.nStages)
    (hj : j < s.config.nStages) (hne : i ≠ j)
    (hx : x = .take → ∀ ch, s.channels[inChannelOf s.config i]? = some ch → ch.q ≠ [])
    (hy : y = .take → ∀ ch, s.channels[inChannelOf s.config j]? = some ch → ch.q ≠ []) :
    { afterTurn j g y (afterTurn i f x s) with active := 0 } = { afterTurn i f x (afterTurn j g y s) with active := 0 } := by
  have hengines : (s.engines.set i f).set j g = (s.engines.set j g).set i f := List.set_comm f g hne
  have hchannels : (s.channels.mapIdx (x.onChannel s.config i)).mapIdx (y.onChannel s.config j) =
      (s.channels.mapIdx (y.onChannel s.config j)).mapIdx (x.onChannel s.config i) := by
    refine List.ext_getElem? fun n => ?_
    simp only [List.getElem?_mapIdx, Option.map_map]
    refine Option.map_congr fun ch hc => onChannel_comm hi hj hne (fun htake hn => ?_) fun htake hn => ?_
    · exact hx htake ch (hn ▸ hc)
    · exact hy htake ch (hn ▸ hc)
  have hlast : y.onLast s.config j (x.onLast s.config i s.last) = x.onLast s.config i (y.onLast s.config j s.last) :=
    onLast_comm hi hj hne s.last
  simp only [afterTurn, hengines, hchannels, hlast]

/-- Two turns, one after the other, are a run of two steps. -/
theorem coreRun_turns {s t u : State} {i j : Nat} (hi : stageTurn i { s with agenda := [.stage j] } = .next t)
    (ha : t.agenda = [.stage j]) (hj : stageTurn j { t with agenda := [] } = .next u) :
    core.run 2 { s with agenda := [.stage i, .stage j] } = .next u := by
  have hfirst : core.step { s with agenda := [.stage i, .stage j] } = .next t := hi
  have hsecond : core.step t = .next u := by
    show step t = .next u
    simp only [step, nextMove, ha, happen, hj]
  exact (coreRun_succ (M := core) 1 hfirst).trans (coreRun_succ (M := core) 0 hsecond)

/-- Settles O46: each turn is an engine and an effect that the other turn leaves as they are, and such turns commute. -/
theorem enabledStagesCommute : Obligations.EnabledStagesCommute := by
  intro s i j hinv hd hpolicy hne hi hj
  have stage {k : Nat} (h : s.enabled k = true) : k < s.config.nStages ∧ s.terminatedStage k = false := by
    obtain ⟨e, he, hr⟩ := enabled_ready h
    obtain ⟨_, hn, _⟩ := hinv
    obtain ⟨hrunning, _⟩ := ready_iff.mp hr
    have hlt : k < s.engines.length := (List.getElem?_eq_some_iff.mp he).1
    exact ⟨hlt.trans_le hn, by simp [State.terminatedStage, he, Engine.terminated, hrunning]⟩
  obtain ⟨hilt, hirun⟩ := stage hi
  obtain ⟨hjlt, hjrun⟩ := stage hj
  obtain ⟨f, x, hx, hfx⟩ := enabled_turn hinv hpolicy hi
  obtain ⟨g, y, hy, hgy⟩ := enabled_turn hinv hpolicy hj
  refine ⟨_, _, coreRun_turns (hfx _ ?_) rfl (hgy _ ?_), coreRun_turns (hgy _ ?_) rfl (hfx _ ?_), ?_⟩
  · exact seenAlike_agenda (seenAlike_self i s) _
  · exact seenAlike_agenda (seenAlike_afterTurn hd hilt hirun hne) []
  · exact seenAlike_agenda (seenAlike_self j s) _
  · exact seenAlike_agenda (seenAlike_afterTurn hd hjlt hjrun hne.symm) []
  · exact afterTurn_comm (s := { s with agenda := [] }) hilt hjlt hne hx hy

end Sys2Proof.Proofs
end
